-- ==== Sys2Proof/Word.lean ====
section
/-! DEFINITION. The byte type and the two-valued line levels every other file uses. -/

namespace Sys2Proof

/-- `u8` (R15): an unsigned 8-bit value, bit 7 the most significant. -/
abbrev Byte := BitVec 8

/-- The level of chip-enable or of the interrupt line (R42, R43). -/
inductive Level where
  | low
  | high
deriving DecidableEq, Repr, Inhabited

/-- The logical level of chip-select (R42): `asserted` selects the radio. -/
inductive Select where
  | asserted
  | deasserted
deriving DecidableEq, Repr, Inhabited

end Sys2Proof
end

