-- ==== Sys2Proof/Config.lean ====
section
/-! DEFINITION. The implementation parameters (the spec's `Cfg`, R10), their default values (D1 to D4),
the session the reset state carries, and the free values: constants with no body that stand for what the
radio chooses (R13, D25, D26). -/

namespace Sys2Proof

/-- The seven command bytes of parameter `CMD` (R104, D1). -/
structure CmdTable where
  rRegister  : Byte
  wRegister  : Byte
  rRxPayload : Byte
  wTxPayload : Byte
  flushTx    : Byte
  flushRx    : Byte
  nop        : Byte
deriving DecidableEq, Repr

/-- The twelve register addresses of parameter `REGADDR` (R44, D2). -/
structure RegAddr where
  config   : Byte
  enAa     : Byte
  enRxaddr : Byte
  setupAw  : Byte
  setupRetr : Byte
  rfCh     : Byte
  rfSetup  : Byte
  status   : Byte
  rxAddrP0 : Byte
  rxAddrP1 : Byte
  txAddr   : Byte
  rxPwP0   : Byte
deriving DecidableEq, Repr

/-- Parameter `BITS` (R32, R44, D3): bit positions, each at most 7 (R23(b)), and the register value encodings: the
address-width code, and the lowest bits of the two fields of SETUP_RETR. -/
structure Bits where
  rxDr      : Fin 8
  txDs      : Fin 8
  maxRt     : Fin 8
  maskRxDr  : Fin 8
  maskTxDs  : Fin 8
  maskMaxRt : Fin 8
  enCrc     : Fin 8
  crco      : Fin 8
  pwrUp     : Fin 8
  primRx    : Fin 8
  enaaP0    : Fin 8
  erxP0     : Fin 8
  aw5Bytes  : Byte
  /-- SETUP_RETR: the retry delay's lowest bit. -/
  ard       : Fin 8
  /-- SETUP_RETR: the retry count's lowest bit. -/
  arc       : Fin 8
deriving DecidableEq, Repr

/-- A radio address: 5 bytes, byte 0 sent first (R10, R72). -/
structure Addr where
  b0 : Byte
  b1 : Byte
  b2 : Byte
  b3 : Byte
  b4 : Byte
deriving DecidableEq, Repr

/-- The bytes of an address in index order (R72). -/
def Addr.bytes (a : Addr) : List Byte := [a.b0, a.b1, a.b2, a.b3, a.b4]

/-- `DR_METHOD` (R10, R204, D12). -/
inductive DrMethod where
  | irqLine
  | statusPoll
deriving DecidableEq, Repr

/-- The configuration record `Cfg` (R10). No field changes while the controller runs. -/
structure Cfg where
  addrWidth     : Nat
  payloadLen    : Nat
  txAddr        : Addr
  rxAddr        : Addr
  channel       : Byte
  rfSetupVal    : Byte
  retrDelay     : Nat
  retrCount     : Nat
  pollBudgetMs  : Nat
  pollQuantumMs : Nat
  /-- `T_SETTLE` in microseconds: a lower bound that no rule reads (R258, D30). -/
  tSettleUs     : Nat
  cmd           : CmdTable
  reg           : RegAddr
  addrMask      : Byte
  bits          : Bits
  drMethod      : DrMethod
  defensive     : Bool
  csnActiveLow  : Bool
deriving DecidableEq, Repr

/-- What the radio may do of its own between two events (R79, I10): latch flags, change the read-only status
bits, receive or send a packet, or change a register (R134: a radio that lost state). -/
inductive RadioAct where
  | latch (flags : Byte)
  | readOnlyBits (v : Byte)
  | arrive (payload : List Byte)
  | sent
  | poke (a : Byte) (d : List Byte)
deriving DecidableEq, Repr

/-- Default D1: the command bytes of the nRF24L01 family. -/
def Config.cmd : CmdTable where
  rRegister  := 0x00#8
  wRegister  := 0x20#8
  rRxPayload := 0x61#8
  wTxPayload := 0xA0#8
  flushTx    := 0xE1#8
  flushRx    := 0xE2#8
  nop        := 0xFF#8

/-- Default D2: the register addresses. -/
def Config.reg : RegAddr where
  config    := 0x00#8
  enAa      := 0x01#8
  enRxaddr  := 0x02#8
  setupAw   := 0x03#8
  setupRetr := 0x04#8
  rfCh      := 0x05#8
  rfSetup   := 0x06#8
  status    := 0x07#8
  rxAddrP0  := 0x0A#8
  rxAddrP1  := 0x0B#8
  txAddr    := 0x10#8
  rxPwP0    := 0x11#8

/-- Default D3: bit positions, the 5-byte code of SETUP_AW and the packing of SETUP_RETR. -/
def Config.bits : Bits where
  rxDr      := 6
  txDs      := 5
  maxRt     := 4
  maskRxDr  := 6
  maskTxDs  := 5
  maskMaxRt := 4
  enCrc     := 3
  crco      := 2
  pwrUp     := 1
  primRx    := 0
  enaaP0    := 0
  erxP0     := 0
  aw5Bytes  := 0x03#8
  ard       := 4
  arc       := 0

/-- The session of the reset state: the values the spec fixes (R10), the defaults D1 to D4, D11, D12 and D19, and
for the OPEN parameters of D29 the example values of 95_test_vectors.md.
DESIGN CHOICE (log 1): unsafe for a claim about `State.reset` alone; a claim over every state holds for every `Cfg`. -/
def Config.session : Cfg where
  addrWidth     := 5
  payloadLen    := 8
  txAddr        := ⟨0xAA#8, 0xBB#8, 0xCC#8, 0xDD#8, 0xEE#8⟩
  rxAddr        := ⟨0xAA#8, 0xBB#8, 0xCC#8, 0xDD#8, 0xEE#8⟩
  channel       := 0x4C#8
  rfSetupVal    := 0x07#8
  retrDelay     := 1
  retrCount     := 15
  pollBudgetMs  := 500
  pollQuantumMs := 10
  tSettleUs     := 10
  cmd           := Config.cmd
  reg           := Config.reg
  addrMask      := 0x1F#8
  bits          := Config.bits
  drMethod      := .irqLine
  defensive     := true
  csnActiveLow  := true

/-- FREE VALUE (log 2, D25, I8): the byte the radio answers at the n-th draw. -/
opaque Config.radioByte : Nat → Byte

/-- FREE VALUE (log 2, I9): the level of the interrupt line at the n-th draw. -/
opaque Config.irqLevel : Nat → Level

/-- FREE VALUE (log 2, I10): what the radio does of its own at the n-th draw. -/
opaque Config.radioMove : Nat → List RadioAct

/-- FREE VALUE (log 3, D26, I11): byte `i` of radio register `a` before anything wrote it. -/
opaque Config.radioReg : Byte → Nat → Byte

/-- FREE VALUE (log 3, D26, I11): what the radio's TX FIFO holds at power-on. -/
opaque Config.radioTxFifo : List (List Byte)

/-- FREE VALUE (log 3, D26, I11): what the radio's RX FIFO holds at power-on. -/
opaque Config.radioRxFifo : List (List Byte)

end Sys2Proof
end

