-- ==== Sys2Proof/Syntax.lean ====
section
/-! DEFINITION. The instructions (R2): the seven wire commands (R104) and the eight host operations (R110),
one constructor for each row of spec/opcode_table.json. -/

namespace Sys2Proof

/-- A caller-owned payload buffer (R18, R70): byte `i` lies at host address `base + i`, and it holds `len` bytes. -/
structure Buf where
  base : Nat
  len  : Nat
deriving DecidableEq, Repr

/-- A wire command stands for the whole transaction it opens; a host operation for the whole request. -/
inductive Instr where
  /-- R130: read `n` data bytes of register `addr`. -/
  | rRegister (addr : Byte) (n : Nat)
  /-- R131: write `data` to register `addr`. -/
  | wRegister (addr : Byte) (data : List Byte)
  /-- R205: read one payload from the RX FIFO. -/
  | rRxPayload
  /-- R189: append one payload to the TX FIFO. -/
  | wTxPayload (data : List Byte)
  /-- R187. -/
  | flushTx
  /-- R188. -/
  | flushRx
  /-- R132: the filler exchange that receives one byte. -/
  | nop
  /-- R150. -/
  | init
  /-- R134. -/
  | readReg (a : Byte)
  /-- R135. -/
  | writeReg (a v : Byte)
  /-- R136. -/
  | readRegMulti (a : Byte) (n : Nat)
  /-- R137. -/
  | writeRegMulti (a : Byte) (n : Nat) (buf : Buf)
  /-- R170. -/
  | transmit (n : Nat) (buf : Buf)
  /-- R200. -/
  | receive (n : Nat) (buf : Buf)
  /-- R203. -/
  | checkDataReady
deriving DecidableEq, Repr

/-- The host operations (R14, R110), as `S.busy` records them (R36). -/
inductive HostOp where
  | init
  | readReg
  | writeReg
  | readRegMulti
  | writeRegMulti
  | transmit
  | receive
  | checkDataReady
deriving DecidableEq, Repr

end Sys2Proof
end

