-- ==== Sys2Proof/WellFormed.lean ====
section
/-! DEFINITION. Which terms of `Instr` are instructions: each operand fits the field that carries it. The checks
the CONTROLLER makes on a request (R111) and on `Cfg` (R221) are its behaviour and stand in Machine/Checks.lean. -/

namespace Sys2Proof

/-- The register address fits the address field (R101). -/
def addrFits (c : Cfg) (addr : Byte) : Bool := addr &&& ~~~c.addrMask == 0#8

/-- The length fits the 8-bit field `w[31:24]` of a request word (R110). -/
def lengthFits (n : Nat) : Bool := n < 256

/-- The operands of the instruction fit its encoding under the configuration `c`. -/
def Instr.wellFormed (c : Cfg) : Instr → Bool
  | .rRegister addr n      => addrFits c addr && 1 ≤ n
  | .wRegister addr data   => addrFits c addr && 1 ≤ data.length
  | .rRxPayload            => true
  | .wTxPayload data       => data.length == c.payloadLen
  | .flushTx               => true
  | .flushRx               => true
  | .nop                   => true
  | .init                  => true
  | .readReg _             => true
  | .writeReg _ _          => true
  | .readRegMulti _ n      => lengthFits n
  | .writeRegMulti _ n _   => lengthFits n
  | .transmit n _          => lengthFits n
  | .receive n _           => lengthFits n
  | .checkDataReady        => true

end Sys2Proof
end

