-- ==== Sys2Proof/Decode.lean ====
section
/-! DEFINITION. The two encodings (R100, R110): the command byte of a wire transaction and the 32-bit host request
word; the decoder, total and rejecting by name; the encoder, from the same tables. -/

namespace Sys2Proof

/-- What a command byte means (R104, R105). `notEmitted` is R106: no command of this controller. -/
inductive Command where
  | rRegister (a : Byte)
  | wRegister (a : Byte)
  | rRxPayload
  | wTxPayload
  | flushTx
  | flushRx
  | nop
  | notEmitted
deriving DecidableEq, Repr

/-- A host request `(op, a, v, n, buf)`: the packed word `w` and the separate buffer reference (R48, R110). -/
structure Request where
  word : BitVec 32
  buf  : Buf
deriving DecidableEq, Repr

/-- The outgoing bytes of one wire transaction (R100): the command byte and its data phase. -/
structure Frame where
  cmd  : Byte
  data : List Byte
deriving DecidableEq, Repr

/-- What an instruction is encoded as. -/
inductive Words where
  | request (r : Request)
  | frame (f : Frame)
deriving DecidableEq, Repr

/-- Why words are no instruction. -/
inductive Reject where
  /-- `WF_OP` (R111): `op` in 0x8 to 0xF, or `w[7:4] ≠ 0`. -/
  | wfOp
  /-- R106: a byte the controller never sends as a command. -/
  | notEmitted (b : Byte)
  /-- R130, R131, R187 to R189, R205: the data phase does not have the command's length. -/
  | dataLength
  /-- R107, R130: a byte sent while receiving is not `CMD.NOP`. -/
  | filler
deriving DecidableEq, Repr

/-- The decoder's answer. -/
inductive Decoded where
  | ok (i : Instr)
  | rejected (r : Reject)
deriving DecidableEq, Repr

/-- The address field of a register command (R101, R102): `addr & ADDR_MASK`. -/
def regNum (c : Cfg) (addr : Byte) : Byte := addr &&& c.addrMask

/-- `RegCmd(op, addr) = CMD.op | (addr & ADDR_MASK)` (R102): the mask is applied before the OR. -/
def regCmd (c : Cfg) (op addr : Byte) : Byte := op ||| regNum c addr

/-- R105: total on all 256 bytes. The five FIX values first, then the read class, then the write class. -/
def decodeCommand (c : Cfg) (b : Byte) : Command :=
  if b = c.cmd.rRxPayload then .rRxPayload
  else if b = c.cmd.wTxPayload then .wTxPayload
  else if b = c.cmd.flushTx then .flushTx
  else if b = c.cmd.flushRx then .flushRx
  else if b = c.cmd.nop then .nop
  else if b &&& ~~~c.addrMask = c.cmd.rRegister then .rRegister (b &&& c.addrMask)
  else if b &&& ~~~c.addrMask = c.cmd.wRegister then .wRegister (b &&& c.addrMask)
  else .notEmitted

/-- `n` filler bytes (R107, D13). -/
def fillers (c : Cfg) (n : Nat) : List Byte := List.replicate n c.cmd.nop

/-- The instruction a transaction's outgoing bytes stand for (R76, R100, R108: the length is that of the data phase). -/
def decodeFrame (c : Cfg) (f : Frame) : Decoded :=
  match decodeCommand c f.cmd with
  | .rRegister a =>
    if f.data = [] then .rejected .dataLength
    else if f.data = fillers c f.data.length then .ok (.rRegister a f.data.length)
    else .rejected .filler
  | .wRegister a => if f.data = [] then .rejected .dataLength else .ok (.wRegister a f.data)
  | .rRxPayload =>
    if f.data.length ≠ c.payloadLen then .rejected .dataLength
    else if f.data = fillers c f.data.length then .ok .rRxPayload
    else .rejected .filler
  | .wTxPayload => if f.data.length ≠ c.payloadLen then .rejected .dataLength else .ok (.wTxPayload f.data)
  | .flushTx => if f.data = [] then .ok .flushTx else .rejected .dataLength
  | .flushRx => if f.data = [] then .ok .flushRx else .rejected .dataLength
  | .nop => if f.data = [] then .ok .nop else .rejected .dataLength
  | .notEmitted => .rejected (.notEmitted f.cmd)

/-- `w[7:0]`: the reserved bits `w[7:4]` over `op = w[3:0]` (R110). -/
def reqOp (w : BitVec 32) : Byte := w.extractLsb' 0 8

/-- `a = w[15:8]` (R110). -/
def reqA (w : BitVec 32) : Byte := w.extractLsb' 8 8

/-- `v = w[23:16]` (R110). -/
def reqV (w : BitVec 32) : Byte := w.extractLsb' 16 8

/-- `n = w[31:24]` (R110). -/
def reqN (w : BitVec 32) : Nat := (w.extractLsb' 24 8).toNat

/-- R110: the host operation of a request word, arguments it does not use ignored; anything else fails `WF_OP` (R111). -/
def decodeRequest (r : Request) : Decoded :=
  match (reqOp r.word).toNat with
  | 0 => .ok .init
  | 1 => .ok (.readReg (reqA r.word))
  | 2 => .ok (.writeReg (reqA r.word) (reqV r.word))
  | 3 => .ok (.readRegMulti (reqA r.word) (reqN r.word))
  | 4 => .ok (.writeRegMulti (reqA r.word) (reqN r.word) r.buf)
  | 5 => .ok (.transmit (reqN r.word) r.buf)
  | 6 => .ok (.receive (reqN r.word) r.buf)
  | 7 => .ok .checkDataReady
  | _ => .rejected .wfOp

/-- The decoder. -/
def decode (c : Cfg) : Words → Decoded
  | .request r => decodeRequest r
  | .frame f   => decodeFrame c f

/-- `w = n<<24 | v<<16 | a<<8 | op` (R110). -/
def reqWord (op a v : Byte) (n : Nat) : BitVec 32 := BitVec.ofNat 8 n ++ v ++ a ++ op

/-- A buffer reference for a request that takes none. -/
def noBuf : Buf := ⟨0, 0⟩

/-- The words of an instruction (R102, R104, R110). -/
def encode (c : Cfg) : Instr → Words
  | .rRegister addr n      => .frame ⟨regCmd c c.cmd.rRegister addr, fillers c n⟩
  | .wRegister addr data   => .frame ⟨regCmd c c.cmd.wRegister addr, data⟩
  | .rRxPayload            => .frame ⟨c.cmd.rRxPayload, fillers c c.payloadLen⟩
  | .wTxPayload data       => .frame ⟨c.cmd.wTxPayload, data⟩
  | .flushTx               => .frame ⟨c.cmd.flushTx, []⟩
  | .flushRx               => .frame ⟨c.cmd.flushRx, []⟩
  | .nop                   => .frame ⟨c.cmd.nop, []⟩
  | .init                  => .request ⟨reqWord 0#8 0#8 0#8 0, noBuf⟩
  | .readReg a             => .request ⟨reqWord 1#8 a 0#8 0, noBuf⟩
  | .writeReg a v          => .request ⟨reqWord 2#8 a v 0, noBuf⟩
  | .readRegMulti a n      => .request ⟨reqWord 3#8 a 0#8 n, noBuf⟩
  | .writeRegMulti a n buf => .request ⟨reqWord 4#8 a 0#8 n, buf⟩
  | .transmit n buf        => .request ⟨reqWord 5#8 0#8 0#8 n, buf⟩
  | .receive n buf         => .request ⟨reqWord 6#8 0#8 0#8 n, buf⟩
  | .checkDataReady        => .request ⟨reqWord 7#8 0#8 0#8 0, noBuf⟩

/-- The data phase laid out after a command byte of the opcode table, which gives it no bits: the least length the
command takes, fillers where the controller receives and zeros where it sends. -/
def tableData (c : Cfg) (b : Byte) : List Byte :=
  match decodeCommand c b with
  | .rRegister _ => fillers c 1
  | .wRegister _ => [0#8]
  | .rRxPayload  => fillers c c.payloadLen
  | .wTxPayload  => List.replicate c.payloadLen 0#8
  | .flushTx | .flushRx | .nop | .notEmitted => []

/-- A word of spec/opcode_table.json as the controller is given it. The host port is read first: the table's rows of
both ports give 8 bits, and the words 0x00 to 0x07 are a request word (R110) and a read-register byte (R104) alike
(DESIGN CHOICE, log 4: safe, it concerns this lookup alone). -/
def tableWords (c : Cfg) (nbits w : Nat) : Words :=
  match decodeRequest ⟨BitVec.ofNat 32 w, noBuf⟩ with
  | .ok _ => .request ⟨BitVec.ofNat 32 w, noBuf⟩
  | .rejected _ =>
    if nbits ≤ 8 then .frame ⟨BitVec.ofNat 8 w, tableData c (BitVec.ofNat 8 w)⟩
    else .request ⟨BitVec.ofNat 32 w, noBuf⟩

/-- The instruction the decoder reads from the `nbits` bits `w` of an opcode-table row, all further bits zero. -/
def decodeTableWord (nbits w : Nat) : Option Instr :=
  match decode Config.session (tableWords Config.session nbits w) with
  | .ok i => some i
  | .rejected _ => none

end Sys2Proof
end

