-- ==== Sys2Proof/Machine/State.lean ====
section
/-! DEFINITION. The state: the controller's own fields (10_state.md, R250), the host's side (port, buffers, results,
refusal marks), the radio as the controller sees it (R44 to R46), and the bus trace (R49). Plain data. -/

namespace Sys2Proof.Machine

/-- `Success | Failed | TimedOut` (R40, R220). -/
inductive TxOutcome where
  | success
  | failed
  | timedOut
deriving DecidableEq, Repr

/-- The state of the transmit state machine (R35). -/
inductive Phase where
  | idle
  | flushing
  | addressingAndLoading
  | transmitting
  | polling
  | done (o : TxOutcome)
deriving DecidableEq, Repr

/-- One event of the bus trace (R49). `kept` is `none` for a byte the controller discards, written `--` (R112, D24). -/
inductive Event where
  | csn (v : Select)
  | ce (v : Level)
  | x (out : Byte) (kept : Option Byte)
  | settle
  | sleep (ms : Nat)
  | irq (v : Level)
deriving DecidableEq, Repr

/-- The named checks of a request (R111, R221). -/
inductive Check where
  | wfOp
  | wfInitFirst
  | wfMultiLen
  | wfPayloadLen
  | wfBuf
  | wfNoConfigWrite
  | wfCfg
deriving DecidableEq, Repr

/-- What a refusal mark holds of the request (R221): the operation, or the raw request where no operation decodes. -/
inductive Asked where
  | op (i : Instr)
  | raw (r : Request)
deriving DecidableEq, Repr

/-- A refusal mark (R221), kept for the rest of the run. -/
structure Mark where
  check : Check
  asked : Asked
deriving DecidableEq, Repr

/-- The answer to a completed request (R48); `done` where the operation has no result. -/
inductive Response where
  | done
  | byte (b : Byte)
  | bytes (bs : List Byte)
  | outcome (o : TxOutcome)
  | ready (r : Bool)
deriving DecidableEq, Repr

/-- The state fields whose unwritten value `⊥` a rule could read (R222). -/
inductive Field where
  | shadow
  | status
  | budget
  | outcome
deriving DecidableEq, Repr

/-- How the radio behaves: freely within R77 and R78 (R13, D25: every claim must hold for it), or as the deterministic
reference radio of R88, which serves tests. -/
inductive RadioKind where
  | free
  | reference
deriving DecidableEq, Repr

/-- Where the radio stands in a chip-select bracket (R80, R100). -/
inductive Link where
  | idle
  | selected
  | frame (cmd : Byte) (data : List Byte)
deriving DecidableEq, Repr

/-- The radio (R13, R44 to R46, R88): its registers and queues, its pins, and the choices it has yet to make. -/
structure Radio where
  kind    : RadioKind
  /-- Register contents by register number, numbers rising; a number not listed holds the free value of D26. -/
  regs    : List (Nat × List Byte)
  /-- R46: the oldest payload first. Of no bounded depth (DESIGN CHOICE, log 23: unsafe; the depth is not in the source). -/
  txFifo  : List (List Byte)
  /-- R46: as `txFifo` (log 23). -/
  rxFifo  : List (List Byte)
  /-- Chip-enable as last driven: a reset of the controller does not touch it (R251). -/
  ce      : Option Level
  link    : Link
  /-- MODEL: the answers the radio gives next to kept exchanges; when empty, its kind says what it answers. -/
  answers : List Byte
  /-- MODEL: the levels the interrupt line has at the next samples; when empty, a free value (I9). -/
  levels  : List Level
  /-- MODEL: what the radio does of its own before each of the next events; when empty, its kind says (I10). -/
  moves   : List (List RadioAct)
  /-- MODEL: how many free values have been drawn. -/
  drawn   : Nat
deriving DecidableEq, Repr

/-- Why the machine stops. -/
inductive Fault where
  /-- `FAULT_UNWRITTEN(field)` (R222): a rule read `⊥`. Raised by the transmit stages. Safe: the spec's own fault. -/
  | unwritten (f : Field)
  /-- R229, I3: a request while another is in progress; the source leaves it undefined and the host has no such move.
  Raised by every host operation entered with `busy` set. Safe: the machine stops. -/
  | overlap
  /-- R12: the poll loop of an ill-formed `Cfg` (a quantum of 0) has no end. Raised by the poll loop. Safe: the machine stops. -/
  | pollUnbounded
deriving DecidableEq, Repr

/-- Why the machine has no meaning for what it was given. -/
inductive Refusal where
  /-- An instruction rejected by name in exec. Safe. -/
  | notModelled (mnemonic : String)
  /-- R106: the bench slot holds a frame that is no wire command. Raised by the fetch. Safe: nothing happens. -/
  | noCommand (r : Reject)
deriving DecidableEq, Repr

/-- The whole machine. -/
structure State where
  /-- R10: the parameters; no step changes them. -/
  cfg         : Cfg
  /-- R31; `none` is `⊥`. -/
  shadow      : Option Byte
  /-- R35. -/
  phase       : Phase
  /-- R36. -/
  busy        : Option HostOp
  /-- R36: the operation's position in its event sequence; 0 between operations (log 24). -/
  stepIndex   : Nat
  /-- R37. -/
  initialized : Bool
  /-- R38. -/
  status      : Option Byte
  /-- R39: a mathematical integer. -/
  budget      : Option Int
  /-- R40. -/
  outcome     : Option TxOutcome
  /-- R42. -/
  csn         : Option Select
  /-- R42. -/
  ce          : Option Level
  /-- R18, R70: the host's memory, where payload buffers lie; an unlisted address reads as 0. -/
  mem         : List Host.Cell
  /-- R48: the requests the host presents, each one when the operation before it has returned. -/
  port        : List Request
  /-- MODEL (log 5): a wire transaction to run by itself, which no host request does. -/
  bench       : Option Frame
  /-- R48: the results returned so far, the latest last. -/
  responses   : List Response
  /-- R221: the refusal marks so far, the latest last. -/
  marks       : List Mark
  /-- R49: the bus trace since the last reset of the system, the latest event last. -/
  trace       : List Event
  /-- MODEL (log 6): the traces of earlier sessions, each ended by a reset of the system. -/
  sessions    : List (List Event)
  /-- R44 to R46. -/
  radio       : Radio
  /-- MODEL (log 6, R238): a reset of the system arrives after this many further events; `none`: none arrives. -/
  resetAt     : Option Nat
deriving DecidableEq, Repr

/-- The radio at power-on: registers, flags and queues are draws (R250, D26). That no transaction is open then is the
model's (DESIGN CHOICE, log 22: unsafe; chip-select is `⊥` until `INIT`), and so are the scripts' values (log 18). -/
def Radio.powerOn : Radio where
  kind    := .free
  regs    := []
  txFifo  := Config.radioTxFifo
  rxFifo  := Config.radioRxFifo
  ce      := none
  link    := .idle
  answers := []
  levels  := []
  moves   := []
  drawn   := 0

/-- The state after reset under the parameters `c` (R250). R250 gives the step index of R36 no value: 0 here and between
operations (DESIGN CHOICE, log 24: unsafe). -/
def State.resetWith (c : Cfg) : State where
  cfg         := c
  shadow      := none
  phase       := .idle
  busy        := none
  stepIndex   := 0
  initialized := false
  status      := none
  budget      := none
  outcome     := none
  csn         := none
  ce          := none
  mem         := []
  port        := []
  bench       := none
  responses   := []
  marks       := []
  trace       := []
  sessions    := []
  radio       := Radio.powerOn
  resetAt     := none

/-- The state after reset (R250), under the session of `Config.session`. -/
def State.reset : State := State.resetWith Config.session

end Sys2Proof.Machine
end

