-- ==== Sys2Proof/Machine/Operands.lean ====
section
/-! DEFINITION. The byte values the controller computes (R23): single bits, flag masks, register values, and the
codes of an outcome and of a refusal. -/

namespace Sys2Proof.Machine

/-- `bit(Y) = 1 << BIT.Y` (R20, R23(b)). -/
def bit (i : Fin 8) : Byte := 1#8 <<< i.val

/-- `m_RX_DR` (R113). -/
def mRxDr (c : Cfg) : Byte := bit c.bits.rxDr

/-- `m_TX_DS` (R113). -/
def mTxDs (c : Cfg) : Byte := bit c.bits.txDs

/-- `m_MAX_RT` (R113). -/
def mMaxRt (c : Cfg) : Byte := bit c.bits.maxRt

/-- `m_ALL` (R113): the three latched flags (R45). -/
def mAll (c : Cfg) : Byte := mRxDr c ||| mTxDs c ||| mMaxRt c

/-- The value of SETUP_RETR: `(RETR_DELAY << 4) | RETR_COUNT` under the default packing (R153, D3). Under a packing whose
fields overlap or pass bit 7, of which R23(b) says nothing, the shifted values are ORed and cut to 8 bits, and `Cfg` is not
refused for it (DESIGN CHOICE, log 19: unsafe). -/
def setupRetrVal (c : Cfg) : Byte :=
  BitVec.ofNat 8 c.retrDelay <<< c.bits.ard.val ||| BitVec.ofNat 8 c.retrCount <<< c.bits.arc.val

/-- The payload width written to RX_PW_P0 (R158); of a PAYLOAD_LEN above 255, which R10's value 8 is not, its low eight bits
(DESIGN CHOICE, log 19: unsafe). -/
def payloadLenVal (c : Cfg) : Byte := BitVec.ofNat 8 c.payloadLen

/-- The configuration value of INIT step 10 (R160): EN_CRC, CRCO, PRIM_RX and PWR_UP. -/
def configIdle (c : Cfg) : Byte :=
  bit c.bits.enCrc ||| bit c.bits.crco ||| bit c.bits.primRx ||| bit c.bits.pwrUp

/-- `v & ~bit(PRIM_RX)` (R177). -/
def primRxOff (c : Cfg) (v : Byte) : Byte := v &&& ~~~(bit c.bits.primRx)

/-- `v | bit(PRIM_RX)` (R180). -/
def primRxOn (c : Cfg) (v : Byte) : Byte := v ||| bit c.bits.primRx

/-- The electrical level of chip-select (R42, D19). -/
def csnLevel (c : Cfg) : Select → Level
  | .asserted   => if c.csnActiveLow then .low else .high
  | .deasserted => if c.csnActiveLow then .high else .low

/-- The outcome on the host port (R220, D16). -/
def outcomeCode : TxOutcome → Nat
  | .success  => 0
  | .failed   => 1
  | .timedOut => 2

/-- The refusal code of a check (R221). -/
def refusalCode : Check → String
  | .wfOp            => "REF_OP"
  | .wfInitFirst     => "REF_NOT_INIT"
  | .wfMultiLen      => "REF_MULTI_LEN"
  | .wfPayloadLen    => "REF_PAYLOAD_LEN"
  | .wfBuf           => "REF_BUF"
  | .wfNoConfigWrite => "REF_CONFIG_WRITE"
  | .wfCfg           => "REF_CFG"

end Sys2Proof.Machine
end

