-- ==== Sys2Proof/Machine/Flags.lean ====
section
/-! DEFINITION. The flag computations (R23(c), R45, R77). The controller itself keeps no flags. -/

namespace Sys2Proof.Machine

/-- The test `s & m ≠ 0` for one bit of a status byte (R23(c), R181, R203). -/
def flagSet (st : Byte) (i : Fin 8) : Bool := st &&& bit i != 0#8

/-- R181(a): MAX_RT is set. -/
def maxRtSet (c : Cfg) (st : Byte) : Bool := flagSet st c.bits.maxRt

/-- R181(b): TX_DS is set. -/
def txDsSet (c : Cfg) (st : Byte) : Bool := flagSet st c.bits.txDs

/-- R203: RX_DR is set. -/
def rxDrSet (c : Cfg) (st : Byte) : Bool := flagSet st c.bits.rxDr

/-- Write-1-to-clear (R77): each latched flag whose bit is 1 in `v` is cleared; every other bit of STATUS stays. -/
def writeOneToClear (c : Cfg) (st v : Byte) : Byte := st &&& ~~~(v &&& mAll c)

/-- The radio latches the flags of `m` (R45). -/
def latchFlags (c : Cfg) (st m : Byte) : Byte := st ||| (m &&& mAll c)

/-- The radio changes the bits of STATUS that are no latched flag (R44: RX_P_NO and TX_FULL). -/
def setReadOnlyBits (c : Cfg) (st v : Byte) : Byte := (st &&& mAll c) ||| (v &&& ~~~(mAll c))

end Sys2Proof.Machine
end

