-- ==== Sys2Proof/Machine/Radio.lean ====
section
/-! DEFINITION. The radio as the controller reaches it: what it does at each bus event (R77, R78), what it answers
(R13, R88, D25), and what it may do of its own between events (R79). The controller's rules never read it. -/

namespace Sys2Proof.Machine

/-- The registers of the twelve that are `ADDR_WIDTH` bytes wide (R44, R70, R88). -/
def isAddrReg (c : Cfg) (a : Byte) : Bool :=
  a == regNum c c.reg.txAddr || a == regNum c c.reg.rxAddrP0 || a == regNum c c.reg.rxAddrP1

/-- The width of a register in bytes (R44, R70). -/
def regWidth (c : Cfg) (a : Byte) : Nat := if isAddrReg c a then c.addrWidth else 1

/-- The entry of a register in the list of known registers. -/
def lookupReg (a : Nat) : List (Nat × List Byte) → Option (List Byte)
  | [] => none
  | (k, d) :: rest => if k = a then some d else lookupReg a rest

/-- The list of known registers with register `a` holding `d`: numbers rising, one entry a number. -/
def insertReg (a : Nat) (d : List Byte) : List (Nat × List Byte) → List (Nat × List Byte)
  | [] => [(a, d)]
  | (k, e) :: rest =>
    if a < k then (a, d) :: (k, e) :: rest
    else if a = k then (a, d) :: rest
    else (k, e) :: insertReg a d rest

/-- The bytes a register holds; before anything wrote it, the free bytes of D26. -/
def Radio.reg (c : Cfg) (r : Radio) (a : Byte) : List Byte :=
  match lookupReg a.toNat r.regs with
  | some d => d
  | none   => (List.range (regWidth c a)).map (Config.radioReg a)

/-- Register `a` holds `d` from now on. -/
def Radio.setReg (r : Radio) (a : Byte) (d : List Byte) : Radio := { r with regs := insertReg a.toNat d r.regs }

/-- The number of STATUS. -/
def statusNum (c : Cfg) : Byte := regNum c c.reg.status

/-- The status register (R45). -/
def Radio.status (c : Cfg) (r : Radio) : Byte := ((r.reg c (statusNum c))[0]?).getD (Config.radioReg (statusNum c) 0)

/-- The status register holds `v` from now on. -/
def Radio.setStatus (c : Cfg) (r : Radio) (v : Byte) : Radio := r.setReg (statusNum c) [v]

/-- The numbers of the twelve registers (R44). -/
def regNums (c : Cfg) : List Byte :=
  [c.reg.config, c.reg.enAa, c.reg.enRxaddr, c.reg.setupAw, c.reg.setupRetr, c.reg.rfCh, c.reg.rfSetup, c.reg.status,
    c.reg.rxAddrP0, c.reg.rxAddrP1, c.reg.txAddr, c.reg.rxPwP0].map (regNum c)

/-- A read of `n` bytes of register `a` is answered from what the register holds (R78(b)): on the reference radio at every
number of its 32 entries (R88); on the free radio at one of the twelve registers, where an address register is read whole.
A read of an address register at another length, or of any other number, the free radio answers as it likes (R74, R81). -/
def Radio.bound (c : Cfg) (r : Radio) (a : Byte) (n : Nat) : Bool :=
  match r.kind with
  | .free      => (regNums c).contains a && (regWidth c a == 1 || n == regWidth c a)
  | .reference => true

/-- A payload read of `n` bytes is answered from the payload `p` (R78(e), R88): on the reference radio whatever the payload's
length; the free radio answers as it likes where `p` is not `n` bytes long (R205, D25 leave it open; log 27). -/
def Radio.gives (r : Radio) (p : List Byte) (n : Nat) : Bool :=
  match r.kind with
  | .free      => p.length == n
  | .reference => true

/-- `n` fresh free bytes. -/
def Radio.freshBytes (r : Radio) (n : Nat) : List Byte := (List.range n).map fun i => Config.radioByte (r.drawn + i)

/-- R78(b), R88: a write stores its bytes, the reference radio's from index 0 on. DESIGN CHOICE (log 12): after a write of
another length than the register's width the free radio's register holds free bytes (R74, D25); of a shorter one the
reference radio keeps the bytes not written, of a longer one it stores the bytes the register has room for. -/
def Radio.store (c : Cfg) (r : Radio) (a : Byte) (d : List Byte) : Radio :=
  let w := regWidth c a
  match r.kind with
  | .reference => r.setReg a ((d ++ (r.reg c a).drop d.length).take w)
  | .free =>
    if d.length = w then r.setReg a d
    else { r.setReg a (r.freshBytes w) with drawn := r.drawn + w }

/-- R77, R78(c): a write to STATUS clears by its first byte. DESIGN CHOICE (log 12): of later bytes, which R137 leaves to
the radio, the reference radio takes no notice, and after them the other bits of the free radio's STATUS are free. -/
def Radio.clearFlags (c : Cfg) (r : Radio) (d : List Byte) : Radio :=
  match d with
  | [] => r
  | [v] => r.setStatus c (writeOneToClear c (r.status c) v)
  | v :: _ :: _ =>
    match r.kind with
    | .reference => r.setStatus c (writeOneToClear c (r.status c) v)
    | .free => { r.setStatus c (writeOneToClear c (Config.radioByte r.drawn) v) with drawn := r.drawn + 1 }

/-- The effect of a completed transaction on the radio (R78): `d` is its data phase as sent. A queue is never full, so
every payload is appended (DESIGN CHOICE, log 23: unsafe; R46, the depth is not in the source). A payload read takes the
one at the head when the transaction ends, be it one that arrived within it (DESIGN CHOICE, log 25: unsafe) or one that is
not PAYLOAD_LEN bytes long, which goes whole (DESIGN CHOICE, log 27: unsafe). A command byte that is none of the seven has no effect (DESIGN CHOICE, log 26: unsafe; R106, outside the spec). -/
def Radio.finish (c : Cfg) (r : Radio) (cmd : Byte) (d : List Byte) : Radio :=
  match decodeCommand c cmd with
  | .rRegister _ => r
  | .wRegister a => if d = [] then r else if a = statusNum c then r.clearFlags c d else r.store c a d
  | .rRxPayload  => if d = [] then r else { r with rxFifo := r.rxFifo.drop 1 }
  | .wTxPayload  => if d = [] then r else { r with txFifo := r.txFifo ++ [d] }
  | .flushTx     => { r with txFifo := [] }
  | .flushRx     => { r with rxFifo := [] }
  | .nop         => r
  | .notEmitted  => r

/-- What the radio does at one event of the controller (R83). A transaction takes its effect when chip-select is
deasserted (DESIGN CHOICE, log 7: the spec gives the effect of a transaction, not the moment within it). Where
chip-select is asserted with a transaction still open, which only a reset leaves so, the open one is dropped with no
effect and a new one begins (DESIGN CHOICE, log 22: unsafe; R84 names the deassertion alone as the boundary). -/
def Radio.hear (c : Cfg) (r : Radio) : Event → Radio
  | .csn .asserted => { r with link := .selected }
  | .csn .deasserted =>
    match r.link with
    | .frame cmd d => { r.finish c cmd d with link := .idle }
    | .idle | .selected => { r with link := .idle }
  | .ce v => { r with ce := some v }
  | .x out _ =>
    match r.link with
    | .idle        => r
    | .selected    => { r with link := .frame out [] }
    | .frame cmd d => { r with link := .frame cmd (d ++ [out]) }
  | .settle => r
  | .sleep _ => r
  | .irq _ => r

/-- One thing the radio does of its own (R79). A flag is cleared only by a write (R45), so a register change of its
own leaves STATUS alone. A packet that arrives finds room (DESIGN CHOICE, log 23). -/
def Radio.act (c : Cfg) (r : Radio) : RadioAct → Radio
  | .latch m        => r.setStatus c (latchFlags c (r.status c) m)
  | .readOnlyBits v => r.setStatus c (setReadOnlyBits c (r.status c) v)
  | .arrive p       => { r with rxFifo := r.rxFifo ++ [p] }
  | .sent           => { r with txFifo := r.txFifo.drop 1 }
  | .poke a d       => if a = statusNum c then r else r.setReg a d

/-- What the radio does of its own before an event (R79, I8, I10): as scripted; with no script, the free radio does
anything, so that a register may hold any value when it is read, and the reference radio nothing (R88: flags are set only
where a test script says so). -/
def Radio.stir (c : Cfg) (r : Radio) : Radio :=
  match r.moves with
  | m :: rest => m.foldl (Radio.act c) { r with moves := rest }
  | [] =>
    match r.kind with
    | .free      => (Config.radioMove r.drawn).foldl (Radio.act c) { r with drawn := r.drawn + 1 }
    | .reference => r

/-- A free answer (D25). -/
def Radio.draw (r : Radio) : Byte × Radio := (Config.radioByte r.drawn, { r with drawn := r.drawn + 1 })

/-- The given byte, or a free one where there is none. -/
def Radio.orDraw (r : Radio) : Option Byte → Byte × Radio
  | some b => (b, r)
  | none   => r.draw

/-- The byte the radio holds for the exchange now due, in a transaction that receives `n` bytes (R78, R88): a register's
bytes in index order, or those of the payload at the head of the RX FIFO. With the queue empty at an exchange there is none
(R205), and a packet that arrives then is answered from the running index on (DESIGN CHOICE, log 25: unsafe). Of a payload
that is not `n` bytes long the reference radio gives the first `n` bytes, or all of them and then none, and the free radio
holds none to give (DESIGN CHOICE, log 27: unsafe for the reference radio). STATUS during the command byte is the reference
radio's alone (R88, D24). -/
def Radio.stored (c : Cfg) (r : Radio) (n : Nat) : Option Byte :=
  match r.link with
  | .frame cmd d =>
    match decodeCommand c cmd with
    | .rRegister a => if r.bound c a n then (r.reg c a)[d.length]? else none
    | .rRxPayload  => (r.rxFifo.head?).bind fun p => if r.gives p n then p[d.length]? else none
    | _            => none
  | .selected =>
    match r.kind with
    | .free      => none
    | .reference => some (r.status c)
  | .idle => none

/-- The byte the radio returns in an exchange whose byte is kept, in a transaction that receives `n` bytes (R13, R17):
scripted; else the one it holds (R78, R88, D25); else free: an empty RX FIFO, a payload of another length, a read of a wrong
width (R74, R136), a number that names no register (R81). The radio's choice may rest on the `n` still to come, since it is an oracle (log 2). -/
def Radio.answer (c : Cfg) (r : Radio) (n : Nat) : Byte × Radio :=
  match r.answers with
  | b :: rest => (b, { r with answers := rest })
  | []        => r.orDraw (r.stored c n)

/-- The level of the interrupt line (R43, I9): scripted, else free for either kind of radio. -/
def Radio.irq (r : Radio) : Level × Radio :=
  match r.levels with
  | l :: rest => (l, { r with levels := rest })
  | [] => (Config.irqLevel r.drawn, { r with drawn := r.drawn + 1 })

/-- The radio's operating mode (R78(g), R231): powered down, or powered as receiver or as transmitter. -/
inductive RadioMode where
  | powerDown
  | receive
  | transmit
deriving DecidableEq, Repr

/-- The mode the radio's CONFIG register puts it in (R32, R78(g)). -/
def Radio.mode (c : Cfg) (r : Radio) : RadioMode :=
  match (r.reg c (regNum c c.reg.config))[0]? with
  | some v =>
    if flagSet v c.bits.pwrUp then if flagSet v c.bits.primRx then .receive else .transmit else .powerDown
  | none => .powerDown

end Sys2Proof.Machine
end

