-- ==== Sys2Proof/Machine/Ops.lean ====
section
/-! DEFINITION. The named operations: the host's memory and buffers (R18), the reset of the system (R238, R250),
refusal (R221, what this hardware has in place of taking an exception: R227), and the bus and pin primitives (R17). -/

namespace Sys2Proof.Machine

/-- What a byte nothing has written reads as (DESIGN CHOICE, log 8: unsafe; the spec gives host memory no contents). -/
def memDefault : Byte := 0#8

/-- The byte at an address of the host's memory. -/
def memRead : List Host.Cell → Nat → Byte
  | [], _ => memDefault
  | (k, v) :: rest, a => if k = a then v else memRead rest a

/-- The memory without an entry for `a`. -/
def memErase : List Host.Cell → Nat → List Host.Cell
  | [], _ => []
  | (k, v) :: rest, a => if k = a then rest else (k, v) :: memErase rest a

/-- The memory with the entry `(a, v)` at its place. -/
def memInsert : List Host.Cell → Nat → Byte → List Host.Cell
  | [], a, v => [(a, v)]
  | (k, w) :: rest, a, v =>
    if a < k then (a, v) :: (k, w) :: rest
    else if a = k then (a, v) :: rest
    else (k, w) :: memInsert rest a v

/-- The memory after a write of `v` at `a`, in canonical form. -/
def memWrite (m : List Host.Cell) (a : Nat) (v : Byte) : List Host.Cell :=
  if v = memDefault then memErase m a else memInsert m a v

/-- The canonical form, above the address `lo` where there is one: addresses rising, no entry of the default value. -/
def memWfAbove : Option Nat → List Host.Cell → Bool
  | _, [] => true
  | lo, (k, v) :: rest => (match lo with | none => true | some l => decide (l < k)) && v != memDefault && memWfAbove (some k) rest

/-- The canonical form of memory. -/
def memWf (m : List Host.Cell) : Bool := memWfAbove none m

/-- `[BufRead(buf, 0), …, BufRead(buf, n-1)]` (R18). -/
def bufRead (m : List Host.Cell) (b : Buf) (n : Nat) : List Byte := (List.range n).map fun i => memRead m (b.base + i)

/-- Writes of consecutive bytes from an address. -/
def memWriteList : List Host.Cell → Nat → List Byte → List Host.Cell
  | m, _, [] => m
  | m, a, v :: rest => memWriteList (memWrite m a v) (a + 1) rest

/-- `for i: BufWrite(buf, i, d[i])` (R18, R200). -/
def bufWrite (m : List Host.Cell) (b : Buf) (d : List Byte) : List Host.Cell := memWriteList m b.base d

/-- A reset of the whole system (R238, R250, R251): every field of the controller takes its reset value; the radio, the
host's memory and the host's later requests are untouched; the session's trace is put by (log 6). -/
def systemReset (s : State) : State :=
  { State.resetWith s.cfg with
    mem       := s.mem
    port      := s.port
    responses := s.responses
    marks     := s.marks
    sessions  := s.sessions ++ [s.trace]
    radio     := s.radio }

/-- A refusal (R19, R221): no event, no change of the controller's state, and one mark. -/
def refuse (k : Check) (q : Asked) (s : State) : State := { s with marks := s.marks ++ [⟨k, q⟩] }

/-- How a piece of an operation ends: it goes on with a result, a reset of the system ended it, or it faulted. -/
inductive Flow (α : Type) where
  | on (a : α) (s : State)
  | stop (s : State)
  | fault (f : Fault)

/-- One piece of an operation after another. -/
def Flow.bind {α β : Type} (x : Flow α) (k : α → State → Flow β) : Flow β :=
  match x with
  | .on a s  => k a s
  | .stop s  => .stop s
  | .fault f => .fault f

/-- What follows, unless the reset of the system is due (R238). -/
def unlessReset {α : Type} (s : State) (k : Flow α) : Flow α :=
  if s.resetAt = some 0 then .stop (systemReset s) else k

/-- Chip-select after an event (R42). -/
def csnAfter (e : Event) (v : Option Select) : Option Select :=
  match e with
  | .csn w => some w
  | _ => v

/-- Chip-enable after an event (R42). -/
def ceAfter (e : Event) (v : Option Level) : Option Level :=
  match e with
  | .ce w => some w
  | _ => v

/-- The state after the event `e`, `r` being the radio just before it: the trace grows by `e` (R17, R49), the step
index advances (R36), a pin event drives its pin (R42) and the radio hears it (R83). -/
def logEvent (r : Radio) (e : Event) (s : State) : State :=
  { s with
    csn       := csnAfter e s.csn
    ce        := ceAfter e s.ce
    stepIndex := s.stepIndex + 1
    trace     := s.trace ++ [e]
    radio     := r.hear s.cfg e
    resetAt   := s.resetAt.map (· - 1) }

/-- One event with no answer. -/
def emit (e : Event) (s : State) : Flow Unit := unlessReset s (.on () (logEvent (s.radio.stir s.cfg) e s))

/-- `SetCSN` (R17). -/
def setCsn (v : Select) (s : State) : Flow Unit := emit (.csn v) s

/-- `SetCE` (R17). -/
def setCe (v : Level) (s : State) : Flow Unit := emit (.ce v) s

/-- `Settle` (R17, R133). -/
def settle (s : State) : Flow Unit := emit .settle s

/-- `Sleep(ms)` (R17). -/
def sleep (ms : Nat) (s : State) : Flow Unit := emit (.sleep ms) s

/-- `Xfer` of a byte whose answer is discarded (R17, D24). -/
def xfer (out : Byte) (s : State) : Flow Unit := emit (.x out none) s

/-- `Xfer` of a byte whose answer is kept, in a transaction that receives `n` bytes: the radio chooses it (R13, R17). -/
def xferKeep (out : Byte) (n : Nat) (s : State) : Flow Byte :=
  let a := (s.radio.stir s.cfg).answer s.cfg n
  unlessReset s (.on a.1 (logEvent a.2 (.x out (some a.1)) s))

/-- `ReadIRQ` (R17, R43): the radio chooses the level. -/
def readIrq (s : State) : Flow Level :=
  let l := (s.radio.stir s.cfg).irq
  unlessReset s (.on l.1 (logEvent l.2 (.irq l.1) s))

/-- `XferN` with the answers discarded (R17): successive exchanges in index order. -/
def xferN : List Byte → State → Flow Unit
  | [], s => .on () s
  | o :: rest, s => (xfer o s).bind fun _ s => xferN rest s

/-- `XferN` with the answers kept, the i-th at index i (R17, R72). -/
def xferKeepN (n : Nat) : List Byte → State → Flow (List Byte)
  | [], s => .on [] s
  | o :: rest, s => (xferKeep o n s).bind fun b s => (xferKeepN n rest s).bind fun bs s => .on (b :: bs) s

/-- A read of a field that may be `⊥` (R16, R222). -/
def readField {α : Type} (f : Field) (v : Option α) (s : State) : Flow α :=
  match v with
  | some a => .on a s
  | none   => .fault (.unwritten f)

end Sys2Proof.Machine
end

