-- ==== Sys2Proof/Machine/Transaction.lean ====
section
/-! DEFINITION. The wire transactions (R100, R130 to R133, R187 to R189, R205) and the internal sequences built of
them (R113). -/

namespace Sys2Proof.Machine

/-- A transaction whose data phase is received (R76, R100): `n` fillers out, `n` bytes kept. -/
def readFrame (cmd : Byte) (n : Nat) (s : State) : Flow (List Byte) :=
  (setCsn .asserted s).bind fun _ s =>
  (xfer cmd s).bind fun _ s =>
  (settle s).bind fun _ s =>
  (xferKeepN n (fillers s.cfg n) s).bind fun d s =>
  (setCsn .deasserted s).bind fun _ s => .on d s

/-- A transaction whose data phase is sent (R76, R100). -/
def writeFrame (cmd : Byte) (d : List Byte) (s : State) : Flow Unit :=
  (setCsn .asserted s).bind fun _ s =>
  (xfer cmd s).bind fun _ s =>
  (settle s).bind fun _ s =>
  (xferN d s).bind fun _ s =>
  setCsn .deasserted s

/-- `Command(c)` (R113): a transaction with no data phase, and so with no `SETTLE` (R100). -/
def command (cmd : Byte) (s : State) : Flow Unit :=
  (setCsn .asserted s).bind fun _ s =>
  (xfer cmd s).bind fun _ s =>
  setCsn .deasserted s

/-- The `R_REGISTER` transaction (R130). -/
def readRegister (addr : Byte) (n : Nat) (s : State) : Flow (List Byte) :=
  readFrame (regCmd s.cfg s.cfg.cmd.rRegister addr) n s

/-- The `W_REGISTER` transaction (R131). -/
def writeRegister (addr : Byte) (d : List Byte) (s : State) : Flow Unit :=
  writeFrame (regCmd s.cfg s.cfg.cmd.wRegister addr) d s

/-- The `R_RX_PAYLOAD` transaction (R205). -/
def readPayload (s : State) : Flow (List Byte) := readFrame s.cfg.cmd.rRxPayload s.cfg.payloadLen s

/-- The `W_TX_PAYLOAD` transaction (R189). -/
def writePayload (d : List Byte) (s : State) : Flow Unit := writeFrame s.cfg.cmd.wTxPayload d s

/-- `RegRead(a)` (R113, R134): the one byte kept. -/
def regRead (a : Byte) (s : State) : Flow Byte :=
  (setCsn .asserted s).bind fun _ s =>
  (xfer (regCmd s.cfg s.cfg.cmd.rRegister a) s).bind fun _ s =>
  (settle s).bind fun _ s =>
  (xferKeep s.cfg.cmd.nop 1 s).bind fun b s =>
  (setCsn .deasserted s).bind fun _ s => .on b s

/-- `RegWrite(a, v)` (R113, R135). -/
def regWrite (a v : Byte) (s : State) : Flow Unit := writeRegister a [v] s

/-- `RegWriteN(a, bytes)` (R113, R137). -/
def regWriteN (a : Byte) (d : List Byte) (s : State) : Flow Unit := writeRegister a d s

/-- `ReadStatus()` (R113). -/
def readStatus (s : State) : Flow Byte := regRead s.cfg.reg.status s

/-- `ClearStatus(m)` (R113). -/
def clearStatus (m : Byte) (s : State) : Flow Unit := regWrite s.cfg.reg.status m s

/-- `WriteConfig(v)` (R34, R113): the shadow is updated first, then CONFIG is written. -/
def writeConfig (v : Byte) (s : State) : Flow Unit := regWrite s.cfg.reg.config v { s with shadow := some v }

end Sys2Proof.Machine
end

