-- ==== Sys2Proof/Machine/Checks.lean ====
section
/-! DEFINITION. The checks of `Cfg` (R11, R12, R103, R153) and of a request (R111), in the order of R226, and the frame
every host operation runs in: acceptance (R36), its body, its return (R48). -/

namespace Sys2Proof.Machine

/-- R103(a): the register commands leave the address field clear. -/
def cmdFieldsOk (c : Cfg) : Bool :=
  c.cmd.rRegister &&& c.addrMask == 0#8 && c.cmd.wRegister &&& c.addrMask == 0#8

/-- The byte range `{op | a}` over all `a ≤ ADDR_MASK` (R103). -/
def cmdRange (c : Cfg) (op : Byte) : List Byte := (List.range (c.addrMask.toNat + 1)).map fun a => op ||| BitVec.ofNat 8 a

/-- The five FIX command bytes (R101). -/
def fixBytes (c : Cfg) : List Byte :=
  [c.cmd.rRxPayload, c.cmd.wTxPayload, c.cmd.flushTx, c.cmd.flushRx, c.cmd.nop]

/-- No byte of the one list is in the other. -/
def disjointBytes (xs ys : List Byte) : Bool := xs.all fun x => ys.all fun y => x != y

/-- R103(d): pairwise distinct. -/
def distinctBytes : List Byte → Bool
  | [] => true
  | x :: rest => rest.all (fun y => x != y) && distinctBytes rest

/-- R103: every command byte has one meaning. -/
def cmdOk (c : Cfg) : Bool :=
  cmdFieldsOk c
    && disjointBytes (cmdRange c c.cmd.rRegister) (cmdRange c c.cmd.wRegister)
    && disjointBytes (cmdRange c c.cmd.rRegister) (fixBytes c)
    && disjointBytes (cmdRange c c.cmd.wRegister) (fixBytes c)
    && distinctBytes (fixBytes c)

/-- R11. -/
def addrPairOk (c : Cfg) : Bool := c.rxAddr == c.txAddr

/-- R12. -/
def pollOk (c : Cfg) : Bool :=
  decide (0 < c.pollBudgetMs) && decide (0 < c.pollQuantumMs) && c.pollBudgetMs % c.pollQuantumMs == 0

/-- R153: both retry parameters are in 0..15. -/
def retryOk (c : Cfg) : Bool := decide (c.retrDelay ≤ 15) && decide (c.retrCount ≤ 15)

/-- `Cfg` is well-formed: the causes of `REF_CFG` (R221). -/
def cfgOk (c : Cfg) : Bool := addrPairOk c && pollOk c && retryOk c && cmdOk c

/-- `WF_INIT_FIRST` fails (R111). -/
def failsInitFirst (s : State) : Bool := !s.initialized

/-- `WF_MULTI_LEN` fails (R111). -/
def failsMultiLen (n : Nat) (s : State) : Bool := !(decide (1 ≤ n) && decide (n ≤ s.cfg.addrWidth))

/-- `WF_PAYLOAD_LEN` fails (R111). -/
def failsPayloadLen (n : Nat) (s : State) : Bool := n != s.cfg.payloadLen

/-- `WF_BUF` fails (R111). -/
def failsBuf (n : Nat) (b : Buf) : Bool := decide (b.len < n)

/-- `WF_NO_CONFIG_WRITE` fails (R111). -/
def failsNoConfigWrite (a : Byte) (s : State) : Bool := regNum s.cfg a == regNum s.cfg s.cfg.reg.config

/-- The first failing check of a request, in the order of R226; `none` where it is accepted. `WF_OP` is the decoder's. -/
def failedCheck (i : Instr) (s : State) : Option Check :=
  match i with
  | .init => if cfgOk s.cfg then none else some .wfCfg
  | .readReg _ => if failsInitFirst s then some .wfInitFirst else none
  | .writeReg a _ =>
    if failsInitFirst s then some .wfInitFirst
    else if failsNoConfigWrite a s then some .wfNoConfigWrite
    else none
  | .readRegMulti _ n =>
    if failsInitFirst s then some .wfInitFirst
    else if failsMultiLen n s then some .wfMultiLen
    else none
  | .writeRegMulti a n b =>
    if failsInitFirst s then some .wfInitFirst
    else if failsMultiLen n s then some .wfMultiLen
    else if failsBuf n b then some .wfBuf
    else if failsNoConfigWrite a s then some .wfNoConfigWrite
    else none
  | .transmit n b | .receive n b =>
    if failsInitFirst s then some .wfInitFirst
    else if failsPayloadLen n s then some .wfPayloadLen
    else if failsBuf n b then some .wfBuf
    else none
  | .checkDataReady => if failsInitFirst s then some .wfInitFirst else none
  | .rRegister _ _ | .wRegister _ _ | .rRxPayload | .wTxPayload _ | .flushTx | .flushRx | .nop => none

/-- The operation is accepted (R36): `busy` records it and its step index starts at its first event. -/
def accept (op : HostOp) (s : State) : State := { s with busy := some op, stepIndex := 0 }

/-- The operation is over (R36). -/
def release (s : State) : State := { s with busy := none, stepIndex := 0 }

/-- The result is answered to the host (R48). -/
def respond (r : Response) (s : State) : State := { s with responses := s.responses ++ [r] }

/-- The end of an operation as the machine's outcome. A reset of the system ends it with no result (R238). -/
def conclude (x : Flow Response) : Host.Outcome State Fault Refusal :=
  match x with
  | .on r s  => .next (respond r s)
  | .stop s  => .next s
  | .fault f => .fault f

/-- A host operation: not while another is in progress (R229), refused by the first check that fails (R221, R226), else
accepted, run, released and answered. -/
def hostOp (op : HostOp) (i : Instr) (s : State) (body : State → Flow Response) : Host.Outcome State Fault Refusal :=
  if s.busy.isSome then .fault .overlap
  else
    match failedCheck i s with
    | some k => .next (refuse k (.op i) s)
    | none   => conclude ((body (accept op s)).bind fun r t => .on r (release t))

/-- A wire command run by itself (log 5): its transaction and its result. It is no host operation, so `busy` and the
step index of R36 are left as they are. -/
def wireOp (s : State) (body : State → Flow Response) : Host.Outcome State Fault Refusal :=
  conclude ((body s).bind fun r t => .on r { t with stepIndex := s.stepIndex })

end Sys2Proof.Machine
end

