-- ==== Sys2Proof/Machine/Configuration.lean ====
section
/-! DEFINITION. The configuration sequencer, `INIT` (R150 to R164). -/

namespace Sys2Proof.Machine

/-- Step 1 (R151): both pins to their idle levels, chip-enable first. -/
def initPins (s : State) : Flow Unit := (setCe .low s).bind fun _ s => setCsn .deasserted s

/-- Steps 2 to 8 (R152 to R158), in the order R163 requires. -/
def initRegisters (s : State) : Flow Unit :=
  (regWrite s.cfg.reg.enAa (bit s.cfg.bits.enaaP0) s).bind fun _ s =>
  (regWrite s.cfg.reg.setupRetr (setupRetrVal s.cfg) s).bind fun _ s =>
  (regWrite s.cfg.reg.enRxaddr (bit s.cfg.bits.erxP0) s).bind fun _ s =>
  (regWrite s.cfg.reg.setupAw s.cfg.bits.aw5Bytes s).bind fun _ s =>
  (regWrite s.cfg.reg.rfCh s.cfg.channel s).bind fun _ s =>
  (regWrite s.cfg.reg.rfSetup s.cfg.rfSetupVal s).bind fun _ s =>
  (regWriteN s.cfg.reg.rxAddrP0 s.cfg.rxAddr.bytes s).bind fun _ s =>
  regWrite s.cfg.reg.rxPwP0 (payloadLenVal s.cfg) s

/-- Steps 9 and 10 (R159, R160): the flags are cleared, then the radio is powered up. -/
def initFinish (s : State) : Flow Unit :=
  (clearStatus (mAll s.cfg) s).bind fun _ s => writeConfig (configIdle s.cfg) s

/-- `INIT` (R150, R161). -/
def execInit (s : State) : Host.Outcome State Fault Refusal :=
  hostOp .init .init s fun s =>
    (initPins s).bind fun _ s =>
    (initRegisters s).bind fun _ s =>
    (initFinish s).bind fun _ s => .on .done { s with initialized := true }

end Sys2Proof.Machine
end

