-- ==== Sys2Proof/Machine/Receive.lean ====
section
/-! DEFINITION. The receive path: `RECEIVE` and `CHECK_DATA_READY` (R200 to R207). -/

namespace Sys2Proof.Machine

/-- `RECEIVE buf, n` (R200 to R202): the payload is read and stored, then RX_DR is cleared, then TX is flushed. The bytes
are stored as one with the payload transaction's last event, so a reset of the system that falls between that event and the
next finds them stored (DESIGN CHOICE, log 6: unsafe; R238 does not say). -/
def execReceive (n : Nat) (buf : Buf) (s : State) : Host.Outcome State Fault Refusal :=
  hostOp .receive (.receive n buf) s fun s =>
    (readFrame s.cfg.cmd.rRxPayload n s).bind fun d s =>
    (clearStatus (mRxDr s.cfg) { s with mem := bufWrite s.mem buf d }).bind fun _ s =>
    (if s.cfg.defensive then command s.cfg.cmd.flushTx s else .on () s).bind fun _ s => .on .done s

/-- `CHECK_DATA_READY` (R203), by the session's method (R204). -/
def execCheckDataReady (s : State) : Host.Outcome State Fault Refusal :=
  hostOp .checkDataReady .checkDataReady s fun s =>
    match s.cfg.drMethod with
    | .irqLine    => (readIrq s).bind fun l s => .on (.ready (l == .low)) s
    | .statusPoll => (readStatus s).bind fun st s => .on (.ready (rxDrSet s.cfg st)) s

end Sys2Proof.Machine
end

