-- ==== Sys2Proof/Machine/RegisterAccess.lean ====
section
/-! DEFINITION. The meanings of the four register host operations (R134 to R137). -/

namespace Sys2Proof.Machine

/-- `READ_REG a` (R134). -/
def execReadReg (a : Byte) (s : State) : Host.Outcome State Fault Refusal :=
  hostOp .readReg (.readReg a) s fun s => (regRead a s).bind fun b s => .on (.byte b) s

/-- `WRITE_REG a, v` (R135). -/
def execWriteReg (a v : Byte) (s : State) : Host.Outcome State Fault Refusal :=
  hostOp .writeReg (.writeReg a v) s fun s => (regWrite a v s).bind fun _ s => .on .done s

/-- `READ_REG_MULTI a, n` (R136). -/
def execReadRegMulti (a : Byte) (n : Nat) (s : State) : Host.Outcome State Fault Refusal :=
  hostOp .readRegMulti (.readRegMulti a n) s fun s => (readRegister a n s).bind fun d s => .on (.bytes d) s

/-- `WRITE_REG_MULTI a, buf, n` (R137). -/
def execWriteRegMulti (a : Byte) (n : Nat) (buf : Buf) (s : State) : Host.Outcome State Fault Refusal :=
  hostOp .writeRegMulti (.writeRegMulti a n buf) s fun s =>
    (regWriteN a (bufRead s.mem buf n) s).bind fun _ s => .on .done s

end Sys2Proof.Machine
end

