-- ==== Sys2Proof/Machine/Transmit.lean ====
section
/-! DEFINITION. The transmit state machine, `TRANSMIT` (R170 to R192), stage by stage. -/

namespace Sys2Proof.Machine

/-- Steps 1 to 3, Flushing (R171 to R174). -/
def txFlushing (s : State) : Flow Unit :=
  (command s.cfg.cmd.flushTx { s with phase := .flushing }).bind fun _ s =>
  (command s.cfg.cmd.flushRx s).bind fun _ s =>
  (clearStatus (mTxDs s.cfg ||| mMaxRt s.cfg) s).bind fun _ s =>
  if s.cfg.defensive then regWrite s.cfg.reg.enAa (bit s.cfg.bits.enaaP0) s else .on () s

/-- Step 4, AddressingAndLoading (R175, R176): both addresses, then the payload from the host's buffer. -/
def txLoading (n : Nat) (buf : Buf) (s : State) : Flow Unit :=
  (regWriteN s.cfg.reg.txAddr s.cfg.txAddr.bytes { s with phase := .addressingAndLoading }).bind fun _ s =>
  (regWriteN s.cfg.reg.rxAddrP0 s.cfg.rxAddr.bytes s).bind fun _ s =>
  writePayload (bufRead s.mem buf n) s

/-- Step 5, Transmitting (R177, R178): PRIM_RX off through the shadow (R34), then chip-enable high. -/
def txStarting (s : State) : Flow Unit :=
  (readField .shadow s.shadow { s with phase := .transmitting }).bind fun v s =>
  (writeConfig (primRxOff s.cfg v) s).bind fun _ s => setCe .high s

/-- The loop is left with an outcome (R40). -/
def leavePoll (o : TxOutcome) (s : State) : Flow Bool := .on true { s with outcome := some o }

/-- The decision of one iteration (R181 to R185), on the status byte just read (R38, R257): `true` where the loop is
left. MAX_RT is tested first (R226). -/
def pollDecide (st : Byte) (s : State) : Flow Bool :=
  if maxRtSet s.cfg st then (clearStatus (mMaxRt s.cfg) s).bind fun _ s => leavePoll .failed s
  else if txDsSet s.cfg st then (clearStatus (mTxDs s.cfg) s).bind fun _ s => leavePoll .success s
  else
    (sleep s.cfg.pollQuantumMs s).bind fun _ s =>
    (readField .budget s.budget s).bind fun b s =>
    let left := b - (s.cfg.pollQuantumMs : Int)
    let s : State := { s with budget := some left }
    if left ≤ 0 then leavePoll .timedOut s else .on false s

/-- One poll iteration (R181): the status is read anew, then decided on. -/
def pollOnce (s : State) : Flow Bool :=
  (readStatus s).bind fun b s =>
  let s : State := { s with status := some b }
  (readField .status s.status s).bind fun st s => pollDecide st s

/-- The poll loop (R182), bounded by a number of iterations that a well-formed `Cfg` never uses up. -/
def pollLoop : Nat → State → Flow Unit
  | 0, _ => .fault .pollUnbounded
  | fuel + 1, s => (pollOnce s).bind fun left s => if left then .on () s else pollLoop fuel s

/-- Step 6, Polling (R179, R181, R182): the budget is loaded, and the loop run. -/
def txPolling (s : State) : Flow Unit :=
  pollLoop (s.cfg.pollBudgetMs + 1) { s with phase := .polling, budget := some (s.cfg.pollBudgetMs : Int) }

/-- Step 7, cleanup (R186, R180), the same on every outcome: chip-enable low, then PRIM_RX on through the shadow. The
budget is `⊥` from the moment `Polling` is left (R39). -/
def txCleanup (s : State) : Flow Unit :=
  (readField .outcome s.outcome s).bind fun o s =>
  (setCe .low { s with phase := .done o, budget := none }).bind fun _ s =>
  (readField .shadow s.shadow s).bind fun v s => writeConfig (primRxOn s.cfg v) s

/-- The return (R170): the transient fields are `⊥` again and the machine is `Idle`. -/
def txReturn (s : State) : Flow Response :=
  (readField .outcome s.outcome s).bind fun o s =>
  .on (.outcome o) { s with status := none, budget := none, outcome := none, phase := .idle }

/-- `TRANSMIT buf, n` (R170): its stages in the order of R171. -/
def execTransmit (n : Nat) (buf : Buf) (s : State) : Host.Outcome State Fault Refusal :=
  hostOp .transmit (.transmit n buf) s fun s =>
    (txFlushing s).bind fun _ s =>
    (txLoading n buf s).bind fun _ s =>
    (txStarting s).bind fun _ s =>
    (txPolling s).bind fun _ s =>
    (txCleanup s).bind fun _ s => txReturn s

end Sys2Proof.Machine
end

