-- ==== Sys2Proof/Machine/WireCommands.lean ====
section
/-! DEFINITION. The meanings of the seven wire commands (R130 to R132, R187 to R189, R205). None refuses at this level. -/

namespace Sys2Proof.Machine

/-- `R_REGISTER` (R130): the result is the `n` bytes received. -/
def execRRegister (addr : Byte) (n : Nat) (s : State) : Host.Outcome State Fault Refusal :=
  wireOp s fun s => (readRegister addr n s).bind fun d s => .on (.bytes d) s

/-- `W_REGISTER` (R131). -/
def execWRegister (addr : Byte) (data : List Byte) (s : State) : Host.Outcome State Fault Refusal :=
  wireOp s fun s => (writeRegister addr data s).bind fun _ s => .on .done s

/-- `R_RX_PAYLOAD` (R205): the result is the payload received. -/
def execRRxPayload (s : State) : Host.Outcome State Fault Refusal :=
  wireOp s fun s => (readPayload s).bind fun d s => .on (.bytes d) s

/-- `W_TX_PAYLOAD` (R189). -/
def execWTxPayload (data : List Byte) (s : State) : Host.Outcome State Fault Refusal :=
  wireOp s fun s => (writePayload data s).bind fun _ s => .on .done s

/-- `FLUSH_TX` (R187). -/
def execFlushTx (s : State) : Host.Outcome State Fault Refusal :=
  wireOp s fun s => (command s.cfg.cmd.flushTx s).bind fun _ s => .on .done s

/-- `FLUSH_RX` (R188). -/
def execFlushRx (s : State) : Host.Outcome State Fault Refusal :=
  wireOp s fun s => (command s.cfg.cmd.flushRx s).bind fun _ s => .on .done s

/-- `NOP` (R132): the filler exchange, outside any bracket of its own; the byte the radio returns is the byte read. -/
def execNop (s : State) : Host.Outcome State Fault Refusal :=
  wireOp s fun s => (xferKeep s.cfg.cmd.nop 1 s).bind fun b s => .on (.byte b) s

end Sys2Proof.Machine
end

