-- ==== Sys2Proof/Machine/Dispatch.lean ====
section
/-! DEFINITION. One arm per constructor of Instr. -/

namespace Sys2Proof.Machine

def exec (i : Instr) (s : State) : Host.Outcome State Fault Refusal :=
  match i with
  | .rRegister addr n => Sys2Proof.Machine.execRRegister addr n s
  | .wRegister addr data => Sys2Proof.Machine.execWRegister addr data s
  | .rRxPayload => Sys2Proof.Machine.execRRxPayload s
  | .wTxPayload data => Sys2Proof.Machine.execWTxPayload data s
  | .flushTx => Sys2Proof.Machine.execFlushTx s
  | .flushRx => Sys2Proof.Machine.execFlushRx s
  | .nop => Sys2Proof.Machine.execNop s
  | .init => Sys2Proof.Machine.execInit s
  | .readReg a => Sys2Proof.Machine.execReadReg a s
  | .writeReg a v => Sys2Proof.Machine.execWriteReg a v s
  | .readRegMulti a n => Sys2Proof.Machine.execReadRegMulti a n s
  | .writeRegMulti a n buf => Sys2Proof.Machine.execWriteRegMulti a n buf s
  | .transmit n buf => Sys2Proof.Machine.execTransmit n buf s
  | .receive n buf => Sys2Proof.Machine.execReceive n buf s
  | .checkDataReady => Sys2Proof.Machine.execCheckDataReady s

end Sys2Proof.Machine
end

