-- ==== Sys2Proof/Machine/Fetch.lean ====
section
/-! DEFINITION. What the controller runs next: the reset of the system, the bench's transaction, the host's next request,
or nothing (R13, R48, R207, R238). -/

namespace Sys2Proof.Machine

/-- What the next step is. -/
inductive Fetched where
  | run (i : Instr) (s : State)
  | ended (x : Host.Outcome State Fault Refusal)

/-- A transaction of the bench slot (log 5). -/
def fetchFrame (f : Frame) (s : State) : Fetched :=
  match decode s.cfg (.frame f) with
  | .ok i       => .run i { s with bench := none }
  | .rejected r => .ended (.refused (.noCommand r))

/-- A host request (R48): `WF_OP` is the first check (R111, R226), and its refusal leaves a mark (R221). None may be
presented while an operation is in progress (R229). -/
def fetchRequest (r : Request) (rest : List Request) (s : State) : Fetched :=
  match decode s.cfg (.request r) with
  | .ok i => .run i { s with port := rest }
  | .rejected _ =>
    if s.busy.isSome then .ended (.fault .overlap)
    else .ended (.next (refuse .wfOp (.raw r) { s with port := rest }))

/-- What the controller runs next. With no request it waits: it starts no operation of its own (R207). -/
def fetch (s : State) : Fetched :=
  if s.resetAt = some 0 then .ended (.next (systemReset s))
  else
    match s.bench with
    | some f => fetchFrame f s
    | none =>
      match s.port with
      | [] => .ended (.next s)
      | r :: rest => fetchRequest r rest s

/-- The state with words placed where the next step takes them: a request at the head of the host's port, a frame in the
bench slot; no reset of the system stands before it. -/
def placeWords (w : Words) (s : State) : State :=
  match w with
  | .request r => { s with port := r :: s.port, bench := none, resetAt := none }
  | .frame f   => { s with bench := some f, resetAt := none }

end Sys2Proof.Machine
end

