-- ==== Sys2Proof/Machine/Step.lean ====
section
/-! DEFINITION. One step of the machine: what is fetched is run. -/

namespace Sys2Proof.Machine

/-- One step: one whole operation (R79, R83), or what the fetch says instead. -/
def step (s : State) : Host.Outcome State Fault Refusal :=
  match fetch s with
  | .run i t => exec i t
  | .ended x => x

/-- The state whose next step runs the instruction of an opcode-table word. -/
def State.withFetchWord (s : State) (nbits w : Nat) : State := placeWords (tableWords s.cfg nbits w) s

end Sys2Proof.Machine
end

