-- ==== Sys2Proof/Safety.lean ====
section
/-! DEFINITION. What the claims speak of: the traces the rules give (R49), the trace checker of the bus discipline
(R254, R255, R258, R260) and the last value sent to CONFIG (R33), the poll runs of TRANSMIT (R181, R182), and the
invariants of a run. -/

namespace Sys2Proof.Safety

open Sys2Proof.Machine

/-- The trace of a transaction that receives `ins` (R130, R205). -/
def readTrace (c : Cfg) (cmd : Byte) (ins : List Byte) : List Event :=
  [.csn .asserted, .x cmd none, .settle] ++ ins.map (fun b => .x c.cmd.nop (some b)) ++ [.csn .deasserted]

/-- The trace of a transaction that sends `outs` (R131, R189). -/
def writeTrace (cmd : Byte) (outs : List Byte) : List Event :=
  [.csn .asserted, .x cmd none, .settle] ++ outs.map (fun b => .x b none) ++ [.csn .deasserted]

/-- The trace of a transaction with no data phase (R113, R187, R188). -/
def commandTrace (cmd : Byte) : List Event := [.csn .asserted, .x cmd none, .csn .deasserted]

/-- The trace of a register read (R130, R134, R136). -/
def regReadTrace (c : Cfg) (a : Byte) (ins : List Byte) : List Event := readTrace c (regCmd c c.cmd.rRegister a) ins

/-- The trace of a register write (R131, R135, R137). -/
def regWriteTrace (c : Cfg) (a : Byte) (outs : List Byte) : List Event := writeTrace (regCmd c c.cmd.wRegister a) outs

/-- The trace of `INIT` (R150 to R160, R163). -/
def initTrace (c : Cfg) : List Event :=
  [.ce .low, .csn .deasserted]
    ++ regWriteTrace c c.reg.enAa [bit c.bits.enaaP0]
    ++ regWriteTrace c c.reg.setupRetr [setupRetrVal c]
    ++ regWriteTrace c c.reg.enRxaddr [bit c.bits.erxP0]
    ++ regWriteTrace c c.reg.setupAw [c.bits.aw5Bytes]
    ++ regWriteTrace c c.reg.rfCh [c.channel]
    ++ regWriteTrace c c.reg.rfSetup [c.rfSetupVal]
    ++ regWriteTrace c c.reg.rxAddrP0 c.rxAddr.bytes
    ++ regWriteTrace c c.reg.rxPwP0 [payloadLenVal c]
    ++ regWriteTrace c c.reg.status [mAll c]
    ++ regWriteTrace c c.reg.config [configIdle c]

/-- The events of `TRANSMIT`'s steps 1 to 3 (R172 to R174). -/
def flushingTrace (c : Cfg) : List Event :=
  commandTrace c.cmd.flushTx ++ commandTrace c.cmd.flushRx
    ++ regWriteTrace c c.reg.status [mTxDs c ||| mMaxRt c]
    ++ (if c.defensive then regWriteTrace c c.reg.enAa [bit c.bits.enaaP0] else [])

/-- The events of step 4 (R175, R176). -/
def loadingTrace (c : Cfg) (payload : List Byte) : List Event :=
  regWriteTrace c c.reg.txAddr c.txAddr.bytes ++ regWriteTrace c c.reg.rxAddrP0 c.rxAddr.bytes
    ++ writeTrace c.cmd.wTxPayload payload

/-- The events of step 5 (R177, R178), the shadow holding `v` before it. -/
def startingTrace (c : Cfg) (v : Byte) : List Event := regWriteTrace c c.reg.config [primRxOff c v] ++ [.ce .high]

/-- The events of one poll iteration whose status read returned `st` (R181, R183, R184). -/
def pollOnceTrace (c : Cfg) (st : Byte) : List Event :=
  regReadTrace c c.reg.status [st]
    ++ (if maxRtSet c st then regWriteTrace c c.reg.status [mMaxRt c]
        else if txDsSet c st then regWriteTrace c c.reg.status [mTxDs c]
        else [.sleep c.pollQuantumMs])

/-- The events of the poll loop whose status reads returned `sts` (R182). -/
def pollTrace (c : Cfg) (sts : List Byte) : List Event := sts.flatMap (pollOnceTrace c)

/-- The events of the cleanup (R186, R180), the shadow holding `v` before it. -/
def cleanupTrace (c : Cfg) (v : Byte) : List Event := [.ce .low] ++ regWriteTrace c c.reg.config [primRxOn c v]

/-- The trace of `TRANSMIT` (R170): the payload, the shadow before it, and the status bytes the polls read. -/
def transmitTrace (c : Cfg) (payload : List Byte) (v : Byte) (sts : List Byte) : List Event :=
  flushingTrace c ++ loadingTrace c payload ++ startingTrace c v ++ pollTrace c sts ++ cleanupTrace c (primRxOff c v)

/-- The trace of `RECEIVE` (R200 to R202), the radio returning the payload `ins`. -/
def receiveTrace (c : Cfg) (ins : List Byte) : List Event :=
  readTrace c c.cmd.rRxPayload ins ++ regWriteTrace c c.reg.status [mRxDr c]
    ++ (if c.defensive then commandTrace c.cmd.flushTx else [])

/-- A status byte that shows neither flag (R181(c)). -/
def noFlag (c : Cfg) (st : Byte) : Prop := maxRtSet c st = false ∧ txDsSet c st = false

/-- The most iterations of the poll loop (R12, R182). -/
def maxPolls (c : Cfg) : Nat := c.pollBudgetMs / c.pollQuantumMs

/-- The status bytes of a poll loop that ends with the outcome `o` (R181 to R185): flags are absent from every read but
the last; MAX_RT on the last read is Failed whatever TX_DS is, TX_DS alone is Success, and TimedOut follows the last
read the budget allows. -/
def pollsEndIn (c : Cfg) (sts : List Byte) : TxOutcome → Prop
  | .failed   => ∃ qs st, sts = qs ++ [st] ∧ (∀ q ∈ qs, noFlag c q) ∧ qs.length < maxPolls c ∧ maxRtSet c st = true
  | .success  => ∃ qs st, sts = qs ++ [st] ∧ (∀ q ∈ qs, noFlag c q) ∧ qs.length < maxPolls c ∧
      maxRtSet c st = false ∧ txDsSet c st = true
  | .timedOut => (∀ q ∈ sts, noFlag c q) ∧ sts.length = maxPolls c

/-- Where a trace stands within a bracket. -/
inductive Bracket where
  | outside
  | selected
  | commanded (cmd : Byte)
  | settled (cmd : Byte) (n : Nat)
deriving DecidableEq, Repr

/-- The trace checker: the bracket, chip-enable, the last byte sent to CONFIG, and whether every event was in place. -/
structure Monitor where
  bracket : Bracket
  ce      : Option Level
  config  : Option Byte
  ok      : Bool
deriving DecidableEq, Repr

/-- The checker before any event. -/
def Monitor.start : Monitor := ⟨.outside, none, none, true⟩

/-- The command takes a data phase (R104). -/
def hasData : Command → Bool
  | .rRegister _ | .wRegister _ | .rRxPayload | .wTxPayload => true
  | .flushTx | .flushRx | .nop | .notEmitted => false

/-- The command is one the controller sends as a command byte (R106, R107). -/
def isSent : Command → Bool
  | .rRegister _ | .wRegister _ | .rRxPayload | .wTxPayload | .flushTx | .flushRx => true
  | .nop | .notEmitted => false

/-- The command is one whose data bytes are received (R76). -/
def isRead : Command → Bool
  | .rRegister _ | .rRxPayload => true
  | .wRegister _ | .wTxPayload | .flushTx | .flushRx | .nop | .notEmitted => false

/-- PRIM_RX is known to be 0 in the last value sent to CONFIG. -/
def primRxIsOff (c : Cfg) : Option Byte → Bool
  | some v => !flagSet v c.bits.primRx
  | none   => false

/-- One event of the checker. A transaction is `CSN(Asserted)`, a command byte that is sent (R106), for a command with
data `SETTLE` and at least one data byte, then `CSN(Deasserted)` (R80, R254, R255); a byte is received under `CMD.NOP`
only, and only by a read (R107); pins, sleeps and samples stand outside brackets; CE goes high only with PRIM_RX off in
CONFIG, CONFIG is not written while CE is high (R260), and only then does the controller sleep (R181). -/
def Monitor.next (c : Cfg) (m : Monitor) : Event → Monitor
  | .csn .asserted => { m with bracket := .selected, ok := m.ok && m.bracket == .outside }
  | .csn .deasserted =>
    match m.bracket with
    | .outside       => m
    | .selected      => { m with bracket := .outside, ok := false }
    | .commanded cmd => { m with bracket := .outside, ok := m.ok && !hasData (decodeCommand c cmd) }
    | .settled _ n   => { m with bracket := .outside, ok := m.ok && n != 0 }
  | .x out kept =>
    match m.bracket with
    | .outside     => { m with ok := false }
    | .selected    => { m with bracket := .commanded out, ok := m.ok && isSent (decodeCommand c out) && kept.isNone }
    | .commanded _ => { m with ok := false }
    | .settled cmd n =>
      let reads := isRead (decodeCommand c cmd)
      let configures := decodeCommand c cmd == .wRegister (regNum c c.reg.config)
      { m with
        bracket := .settled cmd (n + 1)
        config  := if configures && n == 0 then some out else m.config
        ok      := m.ok && kept.isSome == reads && (!reads || out == c.cmd.nop) && !(configures && m.ce == some .high) }
  | .settle =>
    match m.bracket with
    | .commanded cmd => { m with bracket := .settled cmd 0, ok := m.ok && hasData (decodeCommand c cmd) }
    | .outside | .selected | .settled _ _ => { m with ok := false }
  | .ce v => { m with ce := some v, ok := m.ok && m.bracket == .outside && (v == .low || primRxIsOff c m.config) }
  | .sleep _ => { m with ok := m.ok && m.bracket == .outside && m.ce == some .high }
  | .irq _ => { m with ok := m.ok && m.bracket == .outside }

/-- The checker over a trace. -/
def check (c : Cfg) (es : List Event) : Monitor := es.foldl (Monitor.next c) Monitor.start

/-- The trace is in order and no bracket is open at its end. -/
def traceOk (c : Cfg) (es : List Event) : Bool := (check c es).ok && (check c es).bracket == .outside

/-- The value most recently sent to CONFIG by a `W_REGISTER` (R33); `none` where none was sent. -/
def lastConfigSent (c : Cfg) (es : List Event) : Option Byte := (check c es).config

/-- The reference radio while it does nothing of its own and no answer is scripted (R88). -/
def Quiet (r : Radio) : Prop := r.kind = .reference ∧ r.moves = [] ∧ r.answers = []

/-- The radio's registers and queues are as they were. -/
def Untouched (r r' : Radio) : Prop := r'.regs = r.regs ∧ r'.txFifo = r.txFifo ∧ r'.rxFifo = r.rxFifo

/-- The register addresses are told apart by the address field (D2). -/
def regAddrsOk (c : Cfg) : Bool := distinctBytes (regNums c)

/-- Between operations the transient state is clear (R30, R35, R36, R38 to R40). -/
def atRest (s : State) : Prop :=
  s.busy = none ∧ s.stepIndex = 0 ∧ s.phase = .idle ∧ s.status = none ∧ s.budget = none ∧ s.outcome = none

/-- Between operations, by whether `INIT` has completed: the shadow and the pins hold what `INIT` and every later
operation leave (R31 to R33, R42, R164), or nothing has happened since the reset (R250). -/
def configured (s : State) : Prop :=
  if s.initialized then
    cfgOk s.cfg = true ∧ s.shadow = some (configIdle s.cfg) ∧ s.csn = some .deasserted ∧ s.ce = some .low
  else s.shadow = none ∧ s.csn = none ∧ s.ce = none ∧ s.trace = []

/-- The bus history agrees with the controller's state: the trace is in order, chip-enable is the pin's level, and the
shadow is the value last sent to CONFIG (R33). -/
def historyAgrees (s : State) : Prop :=
  traceOk s.cfg s.trace = true ∧ (check s.cfg s.trace).ce = s.ce ∧ lastConfigSent s.cfg s.trace = s.shadow

/-- The invariant of the controller under its host, who runs no bare wire transaction. -/
def Inv (s : State) : Prop := s.bench = none ∧ atRest s ∧ configured s ∧ historyAgrees s

end Sys2Proof.Safety
end

