-- ==== Sys2Proof/Certificates/Slice0/Obligations.lean ====
section
/-! DEFINITION. The statements for the provers. A completion statement gives the whole next state, so what it does not
name is unchanged: that is its frame. "No reset arrives" is `s.resetAt = none` (R238). Where a clause is the model's own
choice and no rule of the spec, the docstring names its log entry. -/

open Sys2Proof Sys2Proof.Machine Sys2Proof.Safety

/-- Words written out from the spec's tables and vectors (V1, V2, V3, V5, V6, V8, P2, P3, P5) decode to what the spec
says they are, under the session's `Cfg` (the model's: log 1, and log 16 for the numbers of D1 to D4). -/
def Obligations.SpecWordsDecode : Prop :=
  let c := Config.session
  decodeCommand c 0x07#8 = .rRegister 0x07#8 ∧
  decodeCommand c 0x1F#8 = .rRegister 0x1F#8 ∧
  decodeCommand c 0x20#8 = .wRegister 0x00#8 ∧
  decodeCommand c 0x3F#8 = .wRegister 0x1F#8 ∧
  decodeCommand c 0x61#8 = .rRxPayload ∧
  decodeCommand c 0xA0#8 = .wTxPayload ∧
  decodeCommand c 0xE1#8 = .flushTx ∧
  decodeCommand c 0xE2#8 = .flushRx ∧
  decodeCommand c 0xFF#8 = .nop ∧
  decodeCommand c 0xA1#8 = .notEmitted ∧
  decode c (.request ⟨0x00000000#32, ⟨0, 0⟩⟩) = .ok .init ∧
  decode c (.request ⟨0x00000701#32, ⟨0, 0⟩⟩) = .ok (.readReg 0x07#8) ∧
  decode c (.request ⟨0x00700702#32, ⟨0, 0⟩⟩) = .ok (.writeReg 0x07#8 0x70#8) ∧
  decode c (.request ⟨0x05001003#32, ⟨0, 0⟩⟩) = .ok (.readRegMulti 0x10#8 5) ∧
  decode c (.request ⟨0x05001004#32, ⟨64, 5⟩⟩) = .ok (.writeRegMulti 0x10#8 5 ⟨64, 5⟩) ∧
  decode c (.request ⟨0x08000005#32, ⟨64, 8⟩⟩) = .ok (.transmit 8 ⟨64, 8⟩) ∧
  decode c (.request ⟨0x08000006#32, ⟨64, 8⟩⟩) = .ok (.receive 8 ⟨64, 8⟩) ∧
  decode c (.request ⟨0x00000007#32, ⟨0, 0⟩⟩) = .ok .checkDataReady ∧
  decode c (.request ⟨0x00000008#32, ⟨0, 0⟩⟩) = .rejected .wfOp ∧
  decode c (.request ⟨0x00000011#32, ⟨0, 0⟩⟩) = .rejected .wfOp

/-- Under every `CMD` table that meets R103, decoding an encoded well-formed instruction gives it back, every operand at
every value (R101, R102, R104, R105, R110). -/
def Obligations.DecodeEncodeGivesBack : Prop :=
  ∀ (c : Cfg) (i : Instr), cmdOk c = true → i.wellFormed c = true → decode c (encode c i) = .ok i

/-- R105 with R103: each of the 256 bytes has one meaning, told by its value alone. -/
def Obligations.CommandByteHasOneMeaning : Prop :=
  ∀ (c : Cfg), cmdOk c = true → ∀ b : Byte,
    (∀ a, decodeCommand c b = .rRegister a ↔ (b = c.cmd.rRegister ||| a ∧ a &&& ~~~c.addrMask = 0#8)) ∧
    (∀ a, decodeCommand c b = .wRegister a ↔ (b = c.cmd.wRegister ||| a ∧ a &&& ~~~c.addrMask = 0#8)) ∧
    (decodeCommand c b = .rRxPayload ↔ b = c.cmd.rRxPayload) ∧
    (decodeCommand c b = .wTxPayload ↔ b = c.cmd.wTxPayload) ∧
    (decodeCommand c b = .flushTx ↔ b = c.cmd.flushTx) ∧
    (decodeCommand c b = .flushRx ↔ b = c.cmd.flushRx) ∧
    (decodeCommand c b = .nop ↔ b = c.cmd.nop)

/-- R102: the mask is applied before the OR, so the address field carries `addr & ADDR_MASK` and the class field the
command, whatever the bits of `addr` outside the mask. -/
def Obligations.RegisterCommandKeepsClass : Prop :=
  ∀ (c : Cfg), cmdOk c = true → ∀ (op addr : Byte), (op = c.cmd.rRegister ∨ op = c.cmd.wRegister) →
    regCmd c op addr = op ||| (addr &&& c.addrMask) ∧
    regCmd c op addr &&& c.addrMask = addr &&& c.addrMask ∧
    regCmd c op addr &&& ~~~c.addrMask = op

/-- `WF_OP` (R110, R111): a request word is rejected exactly where `op` is in 0x8 to 0xF or `w[7:4]` is not 0. -/
def Obligations.RequestRejectedOnReservedBits : Prop :=
  ∀ r : Request, decodeRequest r = .rejected .wfOp ↔ (8 ≤ (r.word.extractLsb' 0 4).toNat ∨ r.word.extractLsb' 4 4 ≠ 0#4)

/-- `READ_REG` completes (R134): its five events, the radio's byte as result, nothing else changed; a read has no side
effect on the reference radio's registers and queues (R78(a)), no flag of STATUS among them. The MODEL's choices: that the
step index is 0 afterwards (log 24), and that a transaction left open, in no run after `INIT`, is dropped (log 22). -/
def Obligations.ReadRegCompletes : Prop :=
  ∀ (s : State) (a : Byte), s.busy = none → s.initialized = true → s.resetAt = none →
    ∃ (b : Byte) (r : Radio), exec (.readReg a) s = .next { s with
      csn := some .deasserted
      stepIndex := 0
      trace := s.trace ++ [.csn .asserted, .x (s.cfg.cmd.rRegister ||| (a &&& s.cfg.addrMask)) none, .settle,
        .x s.cfg.cmd.nop (some b), .csn .deasserted]
      responses := s.responses ++ [.byte b]
      radio := r } ∧
      (Quiet s.radio → cmdOk s.cfg = true → Untouched s.radio r)

/-- `WRITE_REG` completes on every register but CONFIG (R135): its five events, nothing else changed (step index 0: the
model's, log 24). -/
def Obligations.WriteRegCompletes : Prop :=
  ∀ (s : State) (a v : Byte), s.busy = none → s.initialized = true → s.resetAt = none →
    a &&& s.cfg.addrMask ≠ s.cfg.reg.config &&& s.cfg.addrMask →
    ∃ r : Radio, exec (.writeReg a v) s = .next { s with
      csn := some .deasserted
      stepIndex := 0
      trace := s.trace ++ [.csn .asserted, .x (s.cfg.cmd.wRegister ||| (a &&& s.cfg.addrMask)) none, .settle,
        .x v none, .csn .deasserted]
      responses := s.responses ++ [.done]
      radio := r }

/-- `READ_REG_MULTI` completes for `1 ≤ n ≤ ADDR_WIDTH` (R136): `n` bytes in the order received; no side effect on the
reference radio's registers and queues (R78(a)). Step index 0: the model's (log 24). A transaction left open before it, in
no run after `INIT`, is dropped: the model's (log 22). -/
def Obligations.ReadRegMultiCompletes : Prop :=
  ∀ (s : State) (a : Byte) (n : Nat), s.busy = none → s.initialized = true → s.resetAt = none →
    1 ≤ n → n ≤ s.cfg.addrWidth →
    ∃ (d : List Byte) (r : Radio), d.length = n ∧ exec (.readRegMulti a n) s = .next { s with
      csn := some .deasserted
      stepIndex := 0
      trace := s.trace ++ ([.csn .asserted, .x (s.cfg.cmd.rRegister ||| (a &&& s.cfg.addrMask)) none, .settle]
        ++ d.map (fun b => .x s.cfg.cmd.nop (some b)) ++ [.csn .deasserted])
      responses := s.responses ++ [.bytes d]
      radio := r } ∧
      (Quiet s.radio → cmdOk s.cfg = true → Untouched s.radio r)

/-- `WRITE_REG_MULTI` completes for `1 ≤ n ≤ ADDR_WIDTH` from a buffer that holds `n` bytes, on every register but CONFIG
(R137): the buffer's bytes in index order; the buffer is only read. Step index 0: the model's (log 24). -/
def Obligations.WriteRegMultiCompletes : Prop :=
  ∀ (s : State) (a : Byte) (n : Nat) (buf : Buf), s.busy = none → s.initialized = true → s.resetAt = none →
    1 ≤ n → n ≤ s.cfg.addrWidth → n ≤ buf.len →
    a &&& s.cfg.addrMask ≠ s.cfg.reg.config &&& s.cfg.addrMask →
    ∃ r : Radio, exec (.writeRegMulti a n buf) s = .next { s with
      csn := some .deasserted
      stepIndex := 0
      trace := s.trace ++ ([.csn .asserted, .x (s.cfg.cmd.wRegister ||| (a &&& s.cfg.addrMask)) none, .settle]
        ++ (List.range n).map (fun i => .x (memRead s.mem (buf.base + i)) none) ++ [.csn .deasserted])
      responses := s.responses ++ [.done]
      radio := r }

/-- R139: the four register host operations leave the controller's other state alone, and chip-select as they found it,
on every path. -/
def Obligations.RegisterOperationsKeepState : Prop :=
  ∀ (s t : State) (i : Instr),
    ((∃ a, i = .readReg a) ∨ (∃ a v, i = .writeReg a v) ∨ (∃ a n, i = .readRegMulti a n) ∨
      (∃ a n buf, i = .writeRegMulti a n buf)) →
    s.resetAt = none → s.csn = some .deasserted → exec i s = .next t →
    t.shadow = s.shadow ∧ t.ce = s.ce ∧ t.phase = s.phase ∧ t.status = s.status ∧ t.budget = s.budget ∧
    t.outcome = s.outcome ∧ t.csn = some .deasserted

/-- R221: a refused request performs no event and changes nothing but the marks, which gain the check and the request. -/
def Obligations.RefusalOnlyMarks : Prop :=
  ∀ (s : State) (i : Instr) (k : Check), s.busy = none → failedCheck i s = some k →
    exec i s = .next { s with marks := s.marks ++ [⟨k, .op i⟩] }

/-- R111, R226: the refusal of a host operation names the first failing check. -/
def Obligations.FirstFailingCheckNamed : Prop :=
  ∀ (s : State) (a v : Byte) (n : Nat) (buf : Buf), s.busy = none →
    (s.initialized = false →
      exec (.readReg a) s = .next { s with marks := s.marks ++ [⟨.wfInitFirst, .op (.readReg a)⟩] } ∧
      exec (.writeReg a v) s = .next { s with marks := s.marks ++ [⟨.wfInitFirst, .op (.writeReg a v)⟩] } ∧
      exec (.readRegMulti a n) s = .next { s with marks := s.marks ++ [⟨.wfInitFirst, .op (.readRegMulti a n)⟩] } ∧
      exec (.writeRegMulti a n buf) s = .next { s with marks := s.marks ++ [⟨.wfInitFirst, .op (.writeRegMulti a n buf)⟩] } ∧
      exec (.transmit n buf) s = .next { s with marks := s.marks ++ [⟨.wfInitFirst, .op (.transmit n buf)⟩] } ∧
      exec (.receive n buf) s = .next { s with marks := s.marks ++ [⟨.wfInitFirst, .op (.receive n buf)⟩] } ∧
      exec .checkDataReady s = .next { s with marks := s.marks ++ [⟨.wfInitFirst, .op .checkDataReady⟩] }) ∧
    (s.initialized = true → (n = 0 ∨ s.cfg.addrWidth < n) →
      exec (.readRegMulti a n) s = .next { s with marks := s.marks ++ [⟨.wfMultiLen, .op (.readRegMulti a n)⟩] } ∧
      exec (.writeRegMulti a n buf) s = .next { s with marks := s.marks ++ [⟨.wfMultiLen, .op (.writeRegMulti a n buf)⟩] }) ∧
    (s.initialized = true → n ≠ s.cfg.payloadLen →
      exec (.transmit n buf) s = .next { s with marks := s.marks ++ [⟨.wfPayloadLen, .op (.transmit n buf)⟩] } ∧
      exec (.receive n buf) s = .next { s with marks := s.marks ++ [⟨.wfPayloadLen, .op (.receive n buf)⟩] }) ∧
    (s.initialized = true → 1 ≤ n → n ≤ s.cfg.addrWidth → buf.len < n →
      exec (.writeRegMulti a n buf) s = .next { s with marks := s.marks ++ [⟨.wfBuf, .op (.writeRegMulti a n buf)⟩] }) ∧
    (s.initialized = true → n = s.cfg.payloadLen → buf.len < n →
      exec (.transmit n buf) s = .next { s with marks := s.marks ++ [⟨.wfBuf, .op (.transmit n buf)⟩] } ∧
      exec (.receive n buf) s = .next { s with marks := s.marks ++ [⟨.wfBuf, .op (.receive n buf)⟩] }) ∧
    (s.initialized = true → a &&& s.cfg.addrMask = s.cfg.reg.config &&& s.cfg.addrMask →
      exec (.writeReg a v) s = .next { s with marks := s.marks ++ [⟨.wfNoConfigWrite, .op (.writeReg a v)⟩] } ∧
      (1 ≤ n → n ≤ s.cfg.addrWidth → n ≤ buf.len →
        exec (.writeRegMulti a n buf) s =
          .next { s with marks := s.marks ++ [⟨.wfNoConfigWrite, .op (.writeRegMulti a n buf)⟩] }))

/-- R229, I3: with an operation in progress the host has no move; every host operation is stuck, by name. The stop is the
model's rendering of the spec's "undefined" (log 10). -/
def Obligations.OverlappingRequestIsStuck : Prop :=
  ∀ (s : State) (op : HostOp) (a v : Byte) (n : Nat) (buf : Buf), s.busy = some op →
    exec .init s = .fault .overlap ∧ exec (.readReg a) s = .fault .overlap ∧ exec (.writeReg a v) s = .fault .overlap ∧
    exec (.readRegMulti a n) s = .fault .overlap ∧ exec (.writeRegMulti a n buf) s = .fault .overlap ∧
    exec (.transmit n buf) s = .fault .overlap ∧ exec (.receive n buf) s = .fault .overlap ∧
    exec .checkDataReady s = .fault .overlap

/-- The conditions on `Cfg` (R11, R12, R103, R153, R221) in the spec's own words, against the check the model makes. -/
def Obligations.CfgCheckSaysTheRules : Prop :=
  ∀ c : Cfg, cfgOk c = true ↔
    (c.rxAddr = c.txAddr ∧
    0 < c.pollBudgetMs ∧ 0 < c.pollQuantumMs ∧ c.pollQuantumMs ∣ c.pollBudgetMs ∧
    c.retrDelay ≤ 15 ∧ c.retrCount ≤ 15 ∧
    c.cmd.rRegister &&& c.addrMask = 0#8 ∧ c.cmd.wRegister &&& c.addrMask = 0#8 ∧
    (∀ a b : Byte, a ≤ c.addrMask → b ≤ c.addrMask → c.cmd.rRegister ||| a ≠ c.cmd.wRegister ||| b) ∧
    (∀ a f : Byte, a ≤ c.addrMask →
      f ∈ [c.cmd.rRxPayload, c.cmd.wTxPayload, c.cmd.flushTx, c.cmd.flushRx, c.cmd.nop] →
      c.cmd.rRegister ||| a ≠ f ∧ c.cmd.wRegister ||| a ≠ f) ∧
    [c.cmd.rRxPayload, c.cmd.wTxPayload, c.cmd.flushTx, c.cmd.flushRx, c.cmd.nop].Nodup)

/-- An ill-formed `Cfg` is refused by `INIT` (R11, R12, R103, R153, R221), with no event. -/
def Obligations.InitRefusesIllFormedCfg : Prop :=
  ∀ s : State, s.busy = none →
    (s.cfg.rxAddr ≠ s.cfg.txAddr ∨ s.cfg.pollBudgetMs = 0 ∨ s.cfg.pollQuantumMs = 0 ∨
      ¬ s.cfg.pollQuantumMs ∣ s.cfg.pollBudgetMs ∨ 15 < s.cfg.retrDelay ∨ 15 < s.cfg.retrCount ∨ cmdOk s.cfg = false) →
    exec .init s = .next { s with marks := s.marks ++ [⟨.wfCfg, .op .init⟩] }

/-- `INIT` completes under every well-formed `Cfg` (R150 to R161, R163): its 56 events in order, chip-enable low,
chip-select deasserted, the shadow as written with PWR_UP, and `initialized`; nothing else changed. Under the default
packing SETUP_RETR is `(RETR_DELAY << 4) | RETR_COUNT` (R153). The MODEL's choices: step index 0 (log 24); under another
packing whose retry fields overlap or pass bit 7 the byte of SETUP_RETR in the trace, and of a PAYLOAD_LEN above 255 the byte
of RX_PW_P0 (log 19). -/
def Obligations.InitCompletes : Prop :=
  ∀ s : State, s.busy = none → s.resetAt = none → cfgOk s.cfg = true →
    (initTrace s.cfg).length = 56 ∧
    (s.cfg.bits = Config.bits → setupRetrVal s.cfg = BitVec.ofNat 8 (16 * s.cfg.retrDelay + s.cfg.retrCount)) ∧
    ∃ r : Radio, exec .init s = .next { s with
      shadow := some (bit s.cfg.bits.enCrc ||| bit s.cfg.bits.crco ||| bit s.cfg.bits.primRx ||| bit s.cfg.bits.pwrUp)
      initialized := true
      ce := some .low
      csn := some .deasserted
      stepIndex := 0
      trace := s.trace ++ initTrace s.cfg
      responses := s.responses ++ [.done]
      radio := r }

/-- R162: `INIT` performs the same events and leaves the same controller state whatever state it finds at rest, and the
reference radio's queues as they are (with no transaction left open by a reset: logs 7 and 22 are the model's). -/
def Obligations.InitIsIdempotent : Prop :=
  ∀ s s' : State, s.cfg = s'.cfg → cfgOk s.cfg = true → atRest s → atRest s' → s.resetAt = none → s'.resetAt = none →
    ∃ (t t' : State) (es : List Event), exec .init s = .next t ∧ exec .init s' = .next t' ∧ es.length = 56 ∧
      t.trace = s.trace ++ es ∧ t'.trace = s'.trace ++ es ∧
      t.shadow = t'.shadow ∧ t.phase = t'.phase ∧ t.busy = t'.busy ∧ t.stepIndex = t'.stepIndex ∧
      t.initialized = t'.initialized ∧ t.status = t'.status ∧ t.budget = t'.budget ∧ t.outcome = t'.outcome ∧
      t.csn = t'.csn ∧ t.ce = t'.ce ∧
      (Quiet s.radio → s.radio.link = .idle → t.radio.txFifo = s.radio.txFifo ∧ t.radio.rxFifo = s.radio.rxFifo)

/-- P1's end state of the radio (R88, R150, R78): on the reference radio, with no transaction left open by a reset (logs 7
and 22 are the model's), `INIT` leaves the nine registers it writes holding what it wrote, the three flags clear, and the
registers it does not write and both queues as they were. MODEL (log 19): the byte of SETUP_RETR under a packing whose retry
fields overlap or pass bit 7, and of RX_PW_P0 for a PAYLOAD_LEN above 255. -/
def Obligations.InitConfiguresReferenceRadio : Prop :=
  ∀ s : State, s.busy = none → s.resetAt = none → cfgOk s.cfg = true → regAddrsOk s.cfg = true → s.cfg.addrWidth = 5 →
    Quiet s.radio → s.radio.link = .idle →
    ∃ t : State, exec .init s = .next t ∧
      t.radio.reg s.cfg (regNum s.cfg s.cfg.reg.config) = [configIdle s.cfg] ∧
      t.radio.reg s.cfg (regNum s.cfg s.cfg.reg.enAa) = [bit s.cfg.bits.enaaP0] ∧
      t.radio.reg s.cfg (regNum s.cfg s.cfg.reg.enRxaddr) = [bit s.cfg.bits.erxP0] ∧
      t.radio.reg s.cfg (regNum s.cfg s.cfg.reg.setupAw) = [s.cfg.bits.aw5Bytes] ∧
      t.radio.reg s.cfg (regNum s.cfg s.cfg.reg.setupRetr) = [setupRetrVal s.cfg] ∧
      t.radio.reg s.cfg (regNum s.cfg s.cfg.reg.rfCh) = [s.cfg.channel] ∧
      t.radio.reg s.cfg (regNum s.cfg s.cfg.reg.rfSetup) = [s.cfg.rfSetupVal] ∧
      t.radio.reg s.cfg (regNum s.cfg s.cfg.reg.rxAddrP0) = s.cfg.rxAddr.bytes ∧
      t.radio.reg s.cfg (regNum s.cfg s.cfg.reg.rxPwP0) = [payloadLenVal s.cfg] ∧
      t.radio.status s.cfg &&& mAll s.cfg = 0#8 ∧
      t.radio.reg s.cfg (regNum s.cfg s.cfg.reg.txAddr) = s.radio.reg s.cfg (regNum s.cfg s.cfg.reg.txAddr) ∧
      t.radio.reg s.cfg (regNum s.cfg s.cfg.reg.rxAddrP1) = s.radio.reg s.cfg (regNum s.cfg s.cfg.reg.rxAddrP1) ∧
      t.radio.txFifo = s.radio.txFifo ∧ t.radio.rxFifo = s.radio.rxFifo

/-- `TRANSMIT` completes (R170 to R189): for some status bytes that the radio answers to the polls, the events, the
outcome those bytes decide, and the cleaned-up state; the buffer is only read, nothing else changed. Step index 0: the
model's (log 24). -/
def Obligations.TransmitCompletes : Prop :=
  ∀ (s : State) (n : Nat) (buf : Buf) (v : Byte), s.busy = none → s.initialized = true → s.resetAt = none →
    n = s.cfg.payloadLen → n ≤ buf.len → s.shadow = some v →
    0 < s.cfg.pollBudgetMs → 0 < s.cfg.pollQuantumMs → s.cfg.pollQuantumMs ∣ s.cfg.pollBudgetMs →
    ∃ (sts : List Byte) (o : TxOutcome) (r : Radio), pollsEndIn s.cfg sts o ∧
      exec (.transmit n buf) s = .next { s with
        shadow := some ((v &&& ~~~(bit s.cfg.bits.primRx)) ||| bit s.cfg.bits.primRx)
        phase := .idle
        stepIndex := 0
        status := none
        budget := none
        outcome := none
        csn := some .deasserted
        ce := some .low
        trace := s.trace ++ transmitTrace s.cfg (bufRead s.mem buf n) v sts
        responses := s.responses ++ [.outcome o]
        radio := r }

/-- The lengths R170 gives for the events of a `TRANSMIT`: `39 + n` before polling, 5 more where `DEFENSIVE` (52 for
`n = 8`), 6 for each poll that finds no flag, 10 for the one that does, and 6 of cleanup. So with `DEFENSIVE` and `n = 8`,
`Success` or `Failed` at poll `k` takes `68 + 6(k-1)` events, and `TimedOut` 358 under the default budget of 50 polls. -/
def Obligations.TransmitTraceLengths : Prop :=
  ∀ (s : State) (n : Nat) (buf : Buf) (v : Byte), s.busy = none → s.initialized = true → s.resetAt = none →
    n = s.cfg.payloadLen → n ≤ buf.len → s.shadow = some v →
    0 < s.cfg.pollBudgetMs → 0 < s.cfg.pollQuantumMs → s.cfg.pollQuantumMs ∣ s.cfg.pollBudgetMs →
    ∃ (t : State) (es : List Event) (sts : List Byte) (o : TxOutcome), exec (.transmit n buf) s = .next t ∧
      t.trace = s.trace ++ es ∧ t.responses = s.responses ++ [.outcome o] ∧
      es = transmitTrace s.cfg (bufRead s.mem buf n) v sts ∧ pollsEndIn s.cfg sts o ∧
      (o = .timedOut → es.length = 39 + n + (if s.cfg.defensive then 5 else 0) + 6 * maxPolls s.cfg + 6) ∧
      (o ≠ .timedOut → 1 ≤ sts.length ∧ sts.length ≤ maxPolls s.cfg ∧
        es.length = 39 + n + (if s.cfg.defensive then 5 else 0) + 6 * (sts.length - 1) + 10 + 6)

/-- Flushing (R171 to R174): the phase, then both flushes, the clear of TX_DS and MAX_RT, and, where `DEFENSIVE`, EN_AA. -/
def Obligations.FlushingStage : Prop :=
  ∀ s : State, s.resetAt = none → ∃ r : Radio, txFlushing s = .on () { s with
    phase := .flushing
    csn := some .deasserted
    stepIndex := s.stepIndex + (if s.cfg.defensive then 16 else 11)
    trace := s.trace ++ ([.csn .asserted, .x s.cfg.cmd.flushTx none, .csn .deasserted,
      .csn .asserted, .x s.cfg.cmd.flushRx none, .csn .deasserted,
      .csn .asserted, .x (regCmd s.cfg s.cfg.cmd.wRegister s.cfg.reg.status) none, .settle,
      .x (bit s.cfg.bits.txDs ||| bit s.cfg.bits.maxRt) none, .csn .deasserted]
      ++ (if s.cfg.defensive then [.csn .asserted, .x (regCmd s.cfg s.cfg.cmd.wRegister s.cfg.reg.enAa) none, .settle,
        .x (bit s.cfg.bits.enaaP0) none, .csn .deasserted] else []))
    radio := r }

/-- Transmitting (R177, R178, R34): the shadow is read and loses PRIM_RX, then CONFIG is written with it, then chip-enable
goes high. With the shadow unwritten the read faults (R34(1), R222). -/
def Obligations.TransmittingStage : Prop :=
  ∀ s : State, s.resetAt = none →
    (s.shadow = none → txStarting s = .fault (.unwritten .shadow)) ∧
    (∀ v, s.shadow = some v → ∃ r : Radio, txStarting s = .on () { s with
      phase := .transmitting
      shadow := some (v &&& ~~~(bit s.cfg.bits.primRx))
      csn := some .deasserted
      ce := some .high
      stepIndex := s.stepIndex + 6
      trace := s.trace ++ [.csn .asserted, .x (regCmd s.cfg s.cfg.cmd.wRegister s.cfg.reg.config) none, .settle,
        .x (v &&& ~~~(bit s.cfg.bits.primRx)) none, .csn .deasserted, .ce .high]
      radio := r })

/-- One poll iteration (R181 to R185, R226): a fresh status byte, MAX_RT tested first, then TX_DS, each cleared alone;
with neither, a sleep, the budget lowered, and TimedOut exactly where it is used up. -/
def Obligations.PollIterationDecides : Prop :=
  ∀ (s : State) (b : Int), s.resetAt = none → s.budget = some b → ∃ (st : Byte) (r : Radio),
    (st &&& bit s.cfg.bits.maxRt ≠ 0#8 → pollOnce s = .on true { s with
      status := some st
      outcome := some .failed
      csn := some .deasserted
      stepIndex := s.stepIndex + 10
      trace := s.trace ++ (regReadTrace s.cfg s.cfg.reg.status [st]
        ++ regWriteTrace s.cfg s.cfg.reg.status [bit s.cfg.bits.maxRt])
      radio := r }) ∧
    (st &&& bit s.cfg.bits.maxRt = 0#8 → st &&& bit s.cfg.bits.txDs ≠ 0#8 → pollOnce s = .on true { s with
      status := some st
      outcome := some .success
      csn := some .deasserted
      stepIndex := s.stepIndex + 10
      trace := s.trace ++ (regReadTrace s.cfg s.cfg.reg.status [st]
        ++ regWriteTrace s.cfg s.cfg.reg.status [bit s.cfg.bits.txDs])
      radio := r }) ∧
    (st &&& bit s.cfg.bits.maxRt = 0#8 → st &&& bit s.cfg.bits.txDs = 0#8 →
      pollOnce s = .on (decide (b - s.cfg.pollQuantumMs ≤ 0)) { s with
        status := some st
        budget := some (b - s.cfg.pollQuantumMs)
        outcome := if b - s.cfg.pollQuantumMs ≤ 0 then some .timedOut else s.outcome
        csn := some .deasserted
        stepIndex := s.stepIndex + 6
        trace := s.trace ++ (regReadTrace s.cfg s.cfg.reg.status [st] ++ [.sleep s.cfg.pollQuantumMs])
        radio := r })

/-- Cleanup (R186, R180), the same on every outcome: chip-enable low, then PRIM_RX on through the shadow. Outside `Polling`
the budget is `⊥` (R39). -/
def Obligations.CleanupStage : Prop :=
  ∀ (s : State) (o : TxOutcome) (v : Byte), s.resetAt = none → s.outcome = some o → s.shadow = some v →
    ∃ r : Radio, txCleanup s = .on () { s with
      phase := .done o
      budget := none
      shadow := some (v ||| bit s.cfg.bits.primRx)
      csn := some .deasserted
      ce := some .low
      stepIndex := s.stepIndex + 6
      trace := s.trace ++ [.ce .low, .csn .asserted, .x (regCmd s.cfg s.cfg.cmd.wRegister s.cfg.reg.config) none, .settle,
        .x (v ||| bit s.cfg.bits.primRx) none, .csn .deasserted]
      radio := r }

/-- R237: every value `TRANSMIT` computes for CONFIG keeps PWR_UP, and every other bit but PRIM_RX, as the shadow has it. -/
def Obligations.ConfigWritesKeepPowerUp : Prop :=
  ∀ (c : Cfg) (v : Byte) (i : Fin 8), i ≠ c.bits.primRx →
    flagSet (primRxOff c v) i = flagSet v i ∧ flagSet (primRxOn c v) i = flagSet v i ∧
    flagSet (primRxOff c v) c.bits.primRx = false ∧ flagSet (primRxOn c v) c.bits.primRx = true

/-- R222: a `TRANSMIT` that is accepted with the shadow unwritten faults, naming it. -/
def Obligations.TransmitFaultsOnUnwrittenShadow : Prop :=
  ∀ (s : State) (n : Nat) (buf : Buf), s.busy = none → s.initialized = true → s.resetAt = none →
    n = s.cfg.payloadLen → n ≤ buf.len → s.shadow = none →
    exec (.transmit n buf) s = .fault (.unwritten .shadow)

/-- W5 and R259 on the reference radio, which never sets a flag: `TRANSMIT` times out after every poll the budget allows,
with the payload alone in the TX FIFO, the RX FIFO empty, both addresses paired, and CONFIG restored. A transaction left
open before it, in no run after `INIT`, is dropped: the model's (log 22). -/
def Obligations.TransmitOnReferenceRadioTimesOut : Prop :=
  ∀ (s : State) (n : Nat) (buf : Buf) (v : Byte), s.busy = none → s.initialized = true → s.resetAt = none →
    n = s.cfg.payloadLen → 0 < n → n ≤ buf.len → s.shadow = some v → cfgOk s.cfg = true → regAddrsOk s.cfg = true →
    s.cfg.addrWidth = 5 → Quiet s.radio →
    ∃ t : State, exec (.transmit n buf) s = .next t ∧
      t.responses = s.responses ++ [.outcome .timedOut] ∧
      (∃ sts : List Byte, sts.length = maxPolls s.cfg ∧
        t.trace = s.trace ++ transmitTrace s.cfg (bufRead s.mem buf n) v sts) ∧
      t.radio.txFifo = [bufRead s.mem buf n] ∧ t.radio.rxFifo = [] ∧
      t.radio.reg s.cfg (regNum s.cfg s.cfg.reg.txAddr) = s.cfg.txAddr.bytes ∧
      t.radio.reg s.cfg (regNum s.cfg s.cfg.reg.rxAddrP0) = s.cfg.txAddr.bytes ∧
      t.radio.reg s.cfg (regNum s.cfg s.cfg.reg.config) = [primRxOn s.cfg v]

/-- `RECEIVE` completes (R200 to R202, R205): some `n` bytes of the radio are stored, RX_DR is cleared, and, where
`DEFENSIVE`, TX is flushed; nothing else changed. Step index 0: the model's (log 24). -/
def Obligations.ReceiveCompletes : Prop :=
  ∀ (s : State) (n : Nat) (buf : Buf), s.busy = none → s.initialized = true → s.resetAt = none →
    n = s.cfg.payloadLen → n ≤ buf.len →
    ∃ (d : List Byte) (r : Radio), d.length = n ∧ exec (.receive n buf) s = .next { s with
      mem := bufWrite s.mem buf d
      csn := some .deasserted
      stepIndex := 0
      trace := s.trace ++ ([.csn .asserted, .x s.cfg.cmd.rRxPayload none, .settle]
        ++ d.map (fun b => .x s.cfg.cmd.nop (some b))
        ++ [.csn .deasserted, .csn .asserted, .x (regCmd s.cfg s.cfg.cmd.wRegister s.cfg.reg.status) none, .settle,
          .x (bit s.cfg.bits.rxDr) none, .csn .deasserted]
        ++ (if s.cfg.defensive then [.csn .asserted, .x s.cfg.cmd.flushTx none, .csn .deasserted] else []))
      responses := s.responses ++ [.done]
      radio := r }

/-- The bytes `RECEIVE` stores (R200): byte `i` the radio returned at index `i` of the buffer; every byte outside the
buffer's first `n` reads as before. The canonical form of memory is the model's (log 8). -/
def Obligations.ReceiveStoresOnlyItsBuffer : Prop :=
  ∀ (s t : State) (n : Nat) (buf : Buf), memWf s.mem = true → s.resetAt = none → s.initialized = true →
    n = s.cfg.payloadLen → n ≤ buf.len → exec (.receive n buf) s = .next t →
    ∃ d : List Byte, d.length = n ∧
      (∃ es, t.trace = s.trace ++ readTrace s.cfg s.cfg.cmd.rRxPayload d ++ es) ∧
      (∀ a, a < buf.base ∨ buf.base + n ≤ a → memRead t.mem a = memRead s.mem a) ∧
      (∀ i (h : i < d.length), memRead t.mem (buf.base + i) = d[i])

/-- W6 (R88, R200, R205): from the reference radio `RECEIVE` takes the payload at the head of the RX FIFO into the buffer,
removes it alone, clears RX_DR, and, where `DEFENSIVE`, empties the TX FIFO. The MODEL's: the canonical form of memory
(log 8), and that a transaction left open before it, in no run after `INIT`, is dropped (log 22). -/
def Obligations.ReceiveDrainsReferenceRadio : Prop :=
  ∀ (s : State) (n : Nat) (buf : Buf) (p : List Byte) (rest : List (List Byte)), memWf s.mem = true → s.busy = none →
    s.initialized = true → s.resetAt = none → n = s.cfg.payloadLen → 0 < n → n ≤ buf.len → cfgOk s.cfg = true →
    Quiet s.radio → s.radio.rxFifo = p :: rest → p.length = n →
    ∃ t : State, exec (.receive n buf) s = .next t ∧
      bufRead t.mem buf n = p ∧ t.radio.rxFifo = rest ∧
      t.radio.txFifo = (if s.cfg.defensive then [] else s.radio.txFifo) ∧
      t.radio.status s.cfg = s.radio.status s.cfg &&& ~~~(mRxDr s.cfg)

/-- `CHECK_DATA_READY` completes by the interrupt line (R203): one event, true exactly where the line is low. Step index 0:
the model's (log 24). -/
def Obligations.CheckByInterruptLineCompletes : Prop :=
  ∀ s : State, s.busy = none → s.initialized = true → s.resetAt = none → s.cfg.drMethod = .irqLine →
    ∃ (l : Level) (r : Radio), exec .checkDataReady s = .next { s with
      stepIndex := 0
      trace := s.trace ++ [.irq l]
      responses := s.responses ++ [.ready (decide (l = .low))]
      radio := r }

/-- `CHECK_DATA_READY` completes by a status poll (R203): five events, true exactly where RX_DR is 1. On the reference radio
the byte read is its STATUS, and the check clears nothing (V36, V37, R78(a)). Step index 0: the model's (log 24). A
transaction left open before it, in no run after `INIT`, is dropped: the model's (log 22). -/
def Obligations.CheckByStatusPollCompletes : Prop :=
  ∀ s : State, s.busy = none → s.initialized = true → s.resetAt = none → s.cfg.drMethod = .statusPoll →
    ∃ (st : Byte) (r : Radio), exec .checkDataReady s = .next { s with
      csn := some .deasserted
      stepIndex := 0
      trace := s.trace ++ [.csn .asserted, .x (regCmd s.cfg s.cfg.cmd.rRegister s.cfg.reg.status) none, .settle,
        .x s.cfg.cmd.nop (some st), .csn .deasserted]
      responses := s.responses ++ [.ready (decide (st &&& bit s.cfg.bits.rxDr ≠ 0#8))]
      radio := r } ∧
      (Quiet s.radio → cmdOk s.cfg = true → Untouched s.radio r ∧
        ∀ v, s.radio.reg s.cfg (statusNum s.cfg) = [v] → st = v)

/-- I9: the interrupt line is not tied to RX_DR. Under `IrqLine` the answer of `CHECK_DATA_READY` is the same whatever the
radio's registers and queues hold, on a radio of either kind and whatever it does of its own. That the two answers are
equal, where I9 says only that each is any value, is the MODEL's choice: a level is a free value applied to a counter of
draws alone (log 2), on either kind of radio (log 18). -/
def Obligations.InterruptLineNotTiedToFlags : Prop :=
  ∀ (s : State) (regs : List (Nat × List Byte)) (tx rx : List (List Byte)) (t t' : State),
    s.cfg.drMethod = .irqLine →
    exec .checkDataReady s = .next t →
    exec .checkDataReady { s with radio := { s.radio with regs := regs, txFifo := tx, rxFifo := rx } } = .next t' →
    t.responses = t'.responses ∧ t.trace = t'.trace

/-- The wire commands that receive (R130, R132, R205) complete, with at least one byte to receive: the bracket with its
settling delay, `NOP` out for every byte kept, the bytes as result. A register read leaves the reference radio's registers
and queues alone, and a payload read takes the head of its RX FIFO alone (R78(a), (e)). MODEL: that a wire command runs by
itself, answers a result and leaves the step index is the bench's choice (log 5), and that `NOP` by itself is one exchange
outside a bracket is the model's (log 15; R132: no operation emits a lone `NOP`). MODEL too: a transaction that a reset left
open is dropped, with no effect, where chip-select is asserted again (log 22), and a head payload that is not PAYLOAD_LEN
bytes long is removed whole (log 27). Nothing else changed. -/
def Obligations.WireReadsComplete : Prop :=
  ∀ s : State, s.resetAt = none →
    (∀ (addr : Byte) (n : Nat), 1 ≤ n →
      ∃ (d : List Byte) (r : Radio), d.length = n ∧ exec (.rRegister addr n) s = .next { s with
        csn := some .deasserted
        trace := s.trace ++ ([.csn .asserted, .x (s.cfg.cmd.rRegister ||| (addr &&& s.cfg.addrMask)) none, .settle]
          ++ d.map (fun b => .x s.cfg.cmd.nop (some b)) ++ [.csn .deasserted])
        responses := s.responses ++ [.bytes d]
        radio := r } ∧
        (Quiet s.radio → cmdOk s.cfg = true → Untouched s.radio r)) ∧
    (1 ≤ s.cfg.payloadLen →
      ∃ (d : List Byte) (r : Radio), d.length = s.cfg.payloadLen ∧ exec .rRxPayload s = .next { s with
        csn := some .deasserted
        trace := s.trace ++ ([.csn .asserted, .x s.cfg.cmd.rRxPayload none, .settle]
          ++ d.map (fun b => .x s.cfg.cmd.nop (some b)) ++ [.csn .deasserted])
        responses := s.responses ++ [.bytes d]
        radio := r } ∧
        (Quiet s.radio → cmdOk s.cfg = true →
          r.regs = s.radio.regs ∧ r.txFifo = s.radio.txFifo ∧ r.rxFifo = s.radio.rxFifo.drop 1)) ∧
    (∃ (b : Byte) (r : Radio), exec .nop s = .next { s with
      trace := s.trace ++ [.x s.cfg.cmd.nop (some b)]
      responses := s.responses ++ [.byte b]
      radio := r } ∧
      (Quiet s.radio → Untouched s.radio r))

/-- The wire commands that send (R131, R189) complete, with a data phase of the length R131 and R189 give: the bracket with
its settling delay and the data bytes in order; the payload is appended to the reference radio's TX FIFO, and nothing else
of it changes (R78(d)). MODEL: that a wire command runs by itself, with a result and the step index left, is the bench's
choice (log 5); that a queue has room is the model's (log 23), and so is that a transaction which a reset left open is
dropped, with no effect, where chip-select is asserted again (log 22). Nothing else changed. -/
def Obligations.WireWritesComplete : Prop :=
  ∀ (s : State) (d : List Byte), s.resetAt = none →
    (∀ addr : Byte, 1 ≤ d.length → ∃ r : Radio, exec (.wRegister addr d) s = .next { s with
      csn := some .deasserted
      trace := s.trace ++ ([.csn .asserted, .x (s.cfg.cmd.wRegister ||| (addr &&& s.cfg.addrMask)) none, .settle]
        ++ d.map (fun b => .x b none) ++ [.csn .deasserted])
      responses := s.responses ++ [.done]
      radio := r } ∧
      (Quiet s.radio → cmdOk s.cfg = true → r.txFifo = s.radio.txFifo ∧ r.rxFifo = s.radio.rxFifo)) ∧
    (1 ≤ d.length → d.length = s.cfg.payloadLen → ∃ r : Radio, exec (.wTxPayload d) s = .next { s with
      csn := some .deasserted
      trace := s.trace ++ ([.csn .asserted, .x s.cfg.cmd.wTxPayload none, .settle]
        ++ d.map (fun b => .x b none) ++ [.csn .deasserted])
      responses := s.responses ++ [.done]
      radio := r } ∧
      (Quiet s.radio → cmdOk s.cfg = true →
        r.txFifo = s.radio.txFifo ++ [d] ∧ r.rxFifo = s.radio.rxFifo ∧ r.regs = s.radio.regs))

/-- The flushes (R187, R188) complete: three events, with no settling delay and no data phase; the reference radio's queue
is emptied and nothing else of the radio's registers and queues changed. MODEL: that a flush runs by itself, with a result
and the step index left, is the bench's choice (log 5); that a transaction which a reset left open is dropped, with no
effect, where chip-select is asserted again, is the model's (log 22). -/
def Obligations.FlushesComplete : Prop :=
  ∀ s : State, s.resetAt = none →
    (∃ r : Radio, exec .flushTx s = .next { s with
      csn := some .deasserted
      trace := s.trace ++ [.csn .asserted, .x s.cfg.cmd.flushTx none, .csn .deasserted]
      responses := s.responses ++ [.done]
      radio := r } ∧
      (Quiet s.radio → cmdOk s.cfg = true → r.txFifo = [] ∧ r.rxFifo = s.radio.rxFifo ∧ r.regs = s.radio.regs)) ∧
    (∃ r : Radio, exec .flushRx s = .next { s with
      csn := some .deasserted
      trace := s.trace ++ [.csn .asserted, .x s.cfg.cmd.flushRx none, .csn .deasserted]
      responses := s.responses ++ [.done]
      radio := r } ∧
      (Quiet s.radio → cmdOk s.cfg = true → r.rxFifo = [] ∧ r.txFifo = s.radio.txFifo ∧ r.regs = s.radio.regs))

/-- R77: a write of `v` to STATUS clears each latched flag whose bit is 1 in `v` and changes no other bit of it: so at the
end of the transaction in any radio, and so by `WRITE_REG` on the reference radio with no transaction left open, whose other
registers and queues are unchanged. -/
def Obligations.StatusWriteClearsOnes : Prop :=
  (∀ (c : Cfg) (r : Radio) (cmd v : Byte) (i : Fin 8),
    decodeCommand c cmd = .wRegister (c.reg.status &&& c.addrMask) →
    flagSet ((r.finish c cmd [v]).status c) i = (flagSet (r.status c) i && !(flagSet v i &&
      decide (i = c.bits.rxDr ∨ i = c.bits.txDs ∨ i = c.bits.maxRt)))) ∧
  (∀ (s : State) (a v : Byte), s.busy = none → s.initialized = true → s.resetAt = none → cfgOk s.cfg = true →
    regAddrsOk s.cfg = true → Quiet s.radio → s.radio.link = .idle →
    a &&& s.cfg.addrMask = s.cfg.reg.status &&& s.cfg.addrMask →
    ∃ t : State, exec (.writeReg a v) s = .next t ∧
      (∀ i : Fin 8, flagSet (t.radio.status s.cfg) i =
        (flagSet (s.radio.status s.cfg) i && !(flagSet v i &&
          decide (i = s.cfg.bits.rxDr ∨ i = s.cfg.bits.txDs ∨ i = s.cfg.bits.maxRt)))) ∧
      (∀ b, b ≠ s.cfg.reg.status &&& s.cfg.addrMask → t.radio.reg s.cfg b = s.radio.reg s.cfg b) ∧
      t.radio.txFifo = s.radio.txFifo ∧ t.radio.rxFifo = s.radio.rxFifo)

/-- W1 (R78(b), R88): on the reference radio a byte written to any register other than STATUS and CONFIG, a one-byte or an
address register, is what the next read of it returns. On a radio of either kind, a register of R44 other than STATUS
answers, after the end of a write of its own width, the bytes written in index order to a read of its own width, and its
byte first to a longer read of a one-byte register (R136), until it is changed (R78(b), D25). The MODEL's choices: that the
effect comes at the end of the transaction (log 7), and that the free radio answers such a read from what it holds (log 2).
Writes and reads of another width are not spoken of on the free radio (logs 2 and 12). In the first clause a byte written
to an address register goes to its index 0 (log 12), and a transaction left open, in no run after `INIT`, is dropped
(log 22). -/
def Obligations.RegisterRoundTrip : Prop :=
  (∀ (s : State) (a v : Byte), s.busy = none → s.initialized = true → s.resetAt = none → cfgOk s.cfg = true →
    Quiet s.radio → a &&& s.cfg.addrMask ≠ s.cfg.reg.status &&& s.cfg.addrMask →
    a &&& s.cfg.addrMask ≠ s.cfg.reg.config &&& s.cfg.addrMask → 1 ≤ regWidth s.cfg (a &&& s.cfg.addrMask) →
    ∃ t u : State, exec (.writeReg a v) s = .next t ∧ exec (.readReg a) t = .next u ∧
      u.responses = s.responses ++ [.done, .byte v]) ∧
  (∀ (c : Cfg) (r : Radio) (a wcmd rcmd : Byte) (d sent : List Byte), decodeCommand c wcmd = .wRegister a →
    decodeCommand c rcmd = .rRegister a → a ∈ regNums c → a ≠ c.reg.status &&& c.addrMask →
    d.length = regWidth c a → r.answers = [] → ∀ (n : Nat) (h : sent.length < d.length),
    (n = regWidth c a ∨ regWidth c a = 1) →
    (({ r.finish c wcmd d with link := .frame rcmd sent } : Radio).answer c n).1 = d[sent.length])

/-- W7 (R72, R88): on the reference radio an address written is read back byte for byte in index order. A transaction left
open before it, in no run after `INIT`, is dropped: the model's (log 22). -/
def Obligations.AddressRoundTrip : Prop :=
  ∀ (s : State) (buf : Buf), s.busy = none → s.initialized = true → s.resetAt = none → cfgOk s.cfg = true →
    regAddrsOk s.cfg = true → Quiet s.radio → 1 ≤ s.cfg.addrWidth → s.cfg.addrWidth ≤ buf.len →
    ∃ t u : State, exec (.writeRegMulti s.cfg.reg.txAddr s.cfg.addrWidth buf) s = .next t ∧
      exec (.readRegMulti s.cfg.reg.txAddr s.cfg.addrWidth) t = .next u ∧
      u.responses = s.responses ++ [.done, .bytes (bufRead s.mem buf s.cfg.addrWidth)]

/-- A step runs the decoded instruction: a request at the head of the host's port is taken out and executed (R48, R110). The
rest is the MODEL's choice: the port as a list that is fetched from (log 14), a frame in the bench slot (log 5), and
`withFetchWord`, which places a word of the opcode table so that the very next step runs it (logs 4 and 14). -/
def Obligations.StepRunsDecoded : Prop :=
  (∀ (s : State) (r : Request) (rest : List Request) (i : Instr), s.resetAt ≠ some 0 → s.bench = none →
    s.port = r :: rest → decode s.cfg (.request r) = .ok i → step s = exec i { s with port := rest }) ∧
  (∀ (s : State) (f : Frame) (i : Instr), s.resetAt ≠ some 0 → s.bench = some f →
    decode s.cfg (.frame f) = .ok i → step s = exec i { s with bench := none }) ∧
  (∀ (s : State) (nbits w : Nat) (i : Instr), decode s.cfg (tableWords s.cfg nbits w) = .ok i →
    step (s.withFetchWord nbits w) = exec i { s with bench := none, resetAt := none })

/-- R207: with nothing to run the controller starts nothing; that the step then answers the very same state, the radio
included, is the MODEL's choice (log 21), and so is the port as a list (log 14). A request that fails `WF_OP` is refused with
a mark and nothing else (R111, R221), and the next request is taken after it (R228). -/
def Obligations.StepWaitsOrRefuses : Prop :=
  ∀ s : State, s.resetAt ≠ some 0 → s.bench = none →
    (s.port = [] → step s = .next s) ∧
    (∀ r rest, s.port = r :: rest → s.busy = none → decode s.cfg (.request r) = .rejected .wfOp →
      step s = .next { s with port := rest, marks := s.marks ++ [⟨.wfOp, .raw r⟩] })

/-- R250, R251: a reset of the system gives every field of the controller its reset value and does not touch the radio. The
MODEL's choices: that it comes when the count `resetAt` is 0 (log 6), and that the host's memory and the refusal marks
survive it (log 17). -/
def Obligations.SystemResetRestoresController : Prop :=
  ∀ s : State, s.resetAt = some 0 → ∃ t : State, step s = .next t ∧
    t.shadow = none ∧ t.phase = .idle ∧ t.busy = none ∧ t.initialized = false ∧ t.status = none ∧ t.budget = none ∧
    t.outcome = none ∧ t.csn = none ∧ t.ce = none ∧ t.cfg = s.cfg ∧ t.radio = s.radio ∧ t.mem = s.mem ∧
    t.marks = s.marks ∧ t.resetAt = none

/-- R238: a reset ends whatever instruction is in progress and leaves the controller reset. With a reset to arrive after `k`
events, the instruction either performed at most `k` events and was not cut, or performed exactly `k` and was cut. The
MODEL's choices: the count of events, the traces put by in `sessions` and the new trace (log 6), and that results and marks
are kept (log 17). -/
def Obligations.SystemResetCutsOperation : Prop :=
  ∀ (s t : State) (i : Instr) (k : Nat), s.resetAt = some k → exec i s = .next t →
    (∃ es : List Event, es.length ≤ k ∧ t.resetAt = some (k - es.length) ∧ t.trace = s.trace ++ es ∧
      t.sessions = s.sessions) ∨
    (∃ es : List Event, es.length = k ∧ t.sessions = s.sessions ++ [s.trace ++ es] ∧ t.trace = [] ∧ t.resetAt = none ∧
      t.shadow = none ∧ t.phase = .idle ∧ t.busy = none ∧ t.initialized = false ∧ t.status = none ∧ t.budget = none ∧
      t.outcome = none ∧ t.csn = none ∧ t.ce = none ∧ t.marks = s.marks ∧ t.responses = s.responses)

/-- R250, V38: the state after reset, under any parameters: every controller field, and a radio whose registers hold free
bytes (D26, log 3). That a trace begins at a reset is the model's (log 6). -/
def Obligations.ResetState : Prop :=
  ∀ c : Cfg,
    let s := State.resetWith c
    s.cfg = c ∧ s.shadow = none ∧ s.phase = .idle ∧ s.busy = none ∧ s.initialized = false ∧ s.status = none ∧
    s.budget = none ∧ s.outcome = none ∧ s.csn = none ∧ s.ce = none ∧ s.trace = [] ∧
    (∀ a, s.radio.reg c a = (List.range (regWidth c a)).map (Config.radioReg a))

/-- R10: no step changes the parameters. -/
def Obligations.StepKeepsCfg : Prop :=
  ∀ s t : State, step s = .next t → t.cfg = s.cfg

/-- R221: a refusal mark is kept for the rest of the run. The MODEL's choices: that results are kept too, and that both are
kept over a reset of the system (log 17). -/
def Obligations.StepKeepsMarks : Prop :=
  ∀ s t : State, step s = .next t → s.marks <+: t.marks ∧ s.responses <+: t.responses

/-- Only `INIT` and `TRANSMIT` write the shadow (R31), only `TRANSMIT` leaves its transient fields to change (R35, R38 to
R40), no instruction but those two adds an event that drives chip-enable (R164), only `INIT` sets `initialized` and nothing clears
it (R37), and only `RECEIVE` writes the host's memory (R176, R200). -/
def Obligations.OnlyNamedInstructionsWriteFields : Prop :=
  ∀ (s t : State) (i : Instr), s.resetAt = none → exec i s = .next t →
    (i ≠ .init → (∀ n buf, i ≠ .transmit n buf) →
      t.shadow = s.shadow ∧ t.ce = s.ce ∧ ∃ es : List Event, t.trace = s.trace ++ es ∧ ∀ v, Event.ce v ∉ es) ∧
    ((∀ n buf, i ≠ .transmit n buf) →
      t.phase = s.phase ∧ t.status = s.status ∧ t.budget = s.budget ∧ t.outcome = s.outcome) ∧
    (i ≠ .init → t.initialized = s.initialized) ∧ (s.initialized = true → t.initialized = true) ∧
    ((∀ n buf, i ≠ .receive n buf) → t.mem = s.mem)

/-- The host's memory keeps its canonical form at every step. The form, and the byte 0 that an unlisted address reads as, are
the MODEL's choice (log 8): R18 and 20_memory.md section 1 give the buffers and no form. -/
def Obligations.StepKeepsMemoryForm : Prop :=
  ∀ s t : State, memWf s.mem = true → step s = .next t → memWf t.mem = true

/-- The invariant of the controller (R30, R31 to R36, R42, R80, R106, R107, R254, R255, R260), under register addresses
that the address field tells apart (D2) and a payload that is not empty (R10): between operations nothing transient is
left, the shadow and the pins hold their idle values once `INIT` has completed, the trace passes the checker, and the shadow
is the value last sent to CONFIG. The MODEL's choices: an empty bench slot (log 5), a trace that begins at a reset (log 6)
and a step index of 0 at rest (log 24). -/
def Obligations.StepKeepsInv : Prop :=
  ∀ s t : State, regAddrsOk s.cfg = true → 0 < s.cfg.payloadLen → Inv s → step s = .next t → Inv t

/-- The invariants hold in the state after reset, under any parameters (R250; the memory's form is the model's, log 8). -/
def Obligations.InvAtReset : Prop :=
  ∀ c : Cfg, Inv (State.resetWith c) ∧ memWf (State.resetWith c).mem = true

/-- R222: under the invariant no fault and no refusal of the machine is reachable: every step answers a next state. That the
machine's stops are these is the model's (logs 5, 10 and 11). -/
def Obligations.InvMakesEveryStepRun : Prop :=
  ∀ s : State, Inv s → ∃ t : State, step s = .next t
end

