-- ==== Sys2Proof/Laws/State.lean ====
section
/-! SUPPORT. The small lemmas of State: what each named update does to each field. -/

namespace Sys2Proof.Laws

open Sys2Proof.Machine

section
variable (r : Radio) (e : Event) (s : State)

@[simp] theorem logEvent_cfg : (logEvent r e s).cfg = s.cfg := rfl
@[simp] theorem logEvent_shadow : (logEvent r e s).shadow = s.shadow := rfl
@[simp] theorem logEvent_phase : (logEvent r e s).phase = s.phase := rfl
@[simp] theorem logEvent_busy : (logEvent r e s).busy = s.busy := rfl
@[simp] theorem logEvent_stepIndex : (logEvent r e s).stepIndex = s.stepIndex + 1 := rfl
@[simp] theorem logEvent_initialized : (logEvent r e s).initialized = s.initialized := rfl
@[simp] theorem logEvent_status : (logEvent r e s).status = s.status := rfl
@[simp] theorem logEvent_budget : (logEvent r e s).budget = s.budget := rfl
@[simp] theorem logEvent_outcome : (logEvent r e s).outcome = s.outcome := rfl
@[simp] theorem logEvent_csn : (logEvent r e s).csn = csnAfter e s.csn := rfl
@[simp] theorem logEvent_ce : (logEvent r e s).ce = ceAfter e s.ce := rfl
@[simp] theorem logEvent_mem : (logEvent r e s).mem = s.mem := rfl
@[simp] theorem logEvent_port : (logEvent r e s).port = s.port := rfl
@[simp] theorem logEvent_bench : (logEvent r e s).bench = s.bench := rfl
@[simp] theorem logEvent_responses : (logEvent r e s).responses = s.responses := rfl
@[simp] theorem logEvent_marks : (logEvent r e s).marks = s.marks := rfl
@[simp] theorem logEvent_trace : (logEvent r e s).trace = s.trace ++ [e] := rfl
@[simp] theorem logEvent_sessions : (logEvent r e s).sessions = s.sessions := rfl
@[simp] theorem logEvent_radio : (logEvent r e s).radio = r.hear s.cfg e := rfl
@[simp] theorem logEvent_resetAt : (logEvent r e s).resetAt = s.resetAt.map (· - 1) := rfl
end

section
variable (k : Check) (q : Asked) (s : State)

@[simp] theorem refuse_marks : (refuse k q s).marks = s.marks ++ [⟨k, q⟩] := rfl
@[simp] theorem refuse_cfg : (refuse k q s).cfg = s.cfg := rfl
@[simp] theorem refuse_shadow : (refuse k q s).shadow = s.shadow := rfl
@[simp] theorem refuse_phase : (refuse k q s).phase = s.phase := rfl
@[simp] theorem refuse_busy : (refuse k q s).busy = s.busy := rfl
@[simp] theorem refuse_stepIndex : (refuse k q s).stepIndex = s.stepIndex := rfl
@[simp] theorem refuse_initialized : (refuse k q s).initialized = s.initialized := rfl
@[simp] theorem refuse_status : (refuse k q s).status = s.status := rfl
@[simp] theorem refuse_budget : (refuse k q s).budget = s.budget := rfl
@[simp] theorem refuse_outcome : (refuse k q s).outcome = s.outcome := rfl
@[simp] theorem refuse_csn : (refuse k q s).csn = s.csn := rfl
@[simp] theorem refuse_ce : (refuse k q s).ce = s.ce := rfl
@[simp] theorem refuse_mem : (refuse k q s).mem = s.mem := rfl
@[simp] theorem refuse_port : (refuse k q s).port = s.port := rfl
@[simp] theorem refuse_bench : (refuse k q s).bench = s.bench := rfl
@[simp] theorem refuse_responses : (refuse k q s).responses = s.responses := rfl
@[simp] theorem refuse_trace : (refuse k q s).trace = s.trace := rfl
@[simp] theorem refuse_sessions : (refuse k q s).sessions = s.sessions := rfl
@[simp] theorem refuse_radio : (refuse k q s).radio = s.radio := rfl
@[simp] theorem refuse_resetAt : (refuse k q s).resetAt = s.resetAt := rfl
end

section
variable (s : State)

@[simp] theorem systemReset_cfg : (systemReset s).cfg = s.cfg := rfl
@[simp] theorem systemReset_shadow : (systemReset s).shadow = none := rfl
@[simp] theorem systemReset_phase : (systemReset s).phase = .idle := rfl
@[simp] theorem systemReset_busy : (systemReset s).busy = none := rfl
@[simp] theorem systemReset_stepIndex : (systemReset s).stepIndex = 0 := rfl
@[simp] theorem systemReset_initialized : (systemReset s).initialized = false := rfl
@[simp] theorem systemReset_status : (systemReset s).status = none := rfl
@[simp] theorem systemReset_budget : (systemReset s).budget = none := rfl
@[simp] theorem systemReset_outcome : (systemReset s).outcome = none := rfl
@[simp] theorem systemReset_csn : (systemReset s).csn = none := rfl
@[simp] theorem systemReset_ce : (systemReset s).ce = none := rfl
@[simp] theorem systemReset_mem : (systemReset s).mem = s.mem := rfl
@[simp] theorem systemReset_port : (systemReset s).port = s.port := rfl
@[simp] theorem systemReset_bench : (systemReset s).bench = none := rfl
@[simp] theorem systemReset_responses : (systemReset s).responses = s.responses := rfl
@[simp] theorem systemReset_marks : (systemReset s).marks = s.marks := rfl
@[simp] theorem systemReset_trace : (systemReset s).trace = [] := rfl
@[simp] theorem systemReset_sessions : (systemReset s).sessions = s.sessions ++ [s.trace] := rfl
@[simp] theorem systemReset_radio : (systemReset s).radio = s.radio := rfl
@[simp] theorem systemReset_resetAt : (systemReset s).resetAt = none := rfl
end

section
variable (op : HostOp) (p : Response) (s : State)

@[simp] theorem accept_busy : (accept op s).busy = some op := rfl
@[simp] theorem accept_cfg : (accept op s).cfg = s.cfg := rfl
@[simp] theorem accept_mem : (accept op s).mem = s.mem := rfl
@[simp] theorem accept_shadow : (accept op s).shadow = s.shadow := rfl
@[simp] theorem accept_trace : (accept op s).trace = s.trace := rfl
@[simp] theorem accept_radio : (accept op s).radio = s.radio := rfl
@[simp] theorem accept_resetAt : (accept op s).resetAt = s.resetAt := rfl
@[simp] theorem release_busy : (release s).busy = none := rfl
@[simp] theorem release_stepIndex : (release s).stepIndex = 0 := rfl
@[simp] theorem release_accept (r : Radio) : release { accept op s with radio := r } = release { s with radio := r } := rfl
@[simp] theorem respond_responses : (respond p s).responses = s.responses ++ [p] := rfl
end

end Sys2Proof.Laws
end

