-- ==== Sys2Proof/Laws/Memory.lean ====
section
/-! SUPPORT. The laws of the host's memory: a read after a write, and that every operation keeps the canonical form. -/

namespace Sys2Proof.Laws

open Sys2Proof.Machine

/-- `k` is above the bound `lo`. -/
def Above (lo : Option Nat) (k : Nat) : Prop := ∀ l, lo = some l → l < k

theorem memWfAbove_cons {lo : Option Nat} {k : Nat} {v : Byte} {m : List Host.Cell} :
    memWfAbove lo ((k, v) :: m) = true ↔ Above lo k ∧ v ≠ memDefault ∧ memWfAbove (some k) m = true := by
  cases lo <;> simp [memWfAbove, Above, and_assoc]

theorem memWfAbove_mono {lo lo' : Option Nat} (h : ∀ k, Above lo k → Above lo' k) :
    ∀ {m : List Host.Cell}, memWfAbove lo m = true → memWfAbove lo' m = true
  | [], _ => rfl
  | (k, v) :: m, hm => by
    rw [memWfAbove_cons] at hm ⊢
    exact ⟨h k hm.1, hm.2⟩

theorem memErase_wf {lo : Option Nat} :
    ∀ {m : List Host.Cell} (a : Nat), memWfAbove lo m = true → memWfAbove lo (memErase m a) = true
  | [], _, _ => rfl
  | (k, v) :: m, a, hm => by
    rw [memWfAbove_cons] at hm
    by_cases hk : k = a
    · simp only [memErase, hk, if_true]
      exact memWfAbove_mono (fun j hj l hl => by
        have := hm.1 l hl
        have := hj k rfl
        omega) hm.2.2
    · simp only [memErase, hk, if_false]
      rw [memWfAbove_cons]
      exact ⟨hm.1, hm.2.1, memErase_wf a hm.2.2⟩

theorem memInsert_wf {v : Byte} (hv : v ≠ memDefault) :
    ∀ {lo : Option Nat} {m : List Host.Cell} {a : Nat}, Above lo a → memWfAbove lo m = true →
      memWfAbove lo (memInsert m a v) = true
  | _, [], a, ha, _ => by
    simp only [memInsert]
    rw [memWfAbove_cons]
    exact ⟨ha, hv, rfl⟩
  | lo, (k, w) :: m, a, ha, hm => by
    have hm' := memWfAbove_cons.mp hm
    simp only [memInsert]
    split
    next hlt =>
      rw [memWfAbove_cons, memWfAbove_cons]
      exact ⟨ha, hv, fun l hl => by cases hl; exact hlt, hm'.2⟩
    next hge =>
      split
      next heq =>
        subst heq
        rw [memWfAbove_cons]
        exact ⟨ha, hv, hm'.2.2⟩
      next hne =>
        rw [memWfAbove_cons]
        refine ⟨hm'.1, hm'.2.1, memInsert_wf hv (fun l hl => ?_) hm'.2.2⟩
        cases hl
        omega

/-- A write keeps the canonical form. -/
theorem memWrite_wf {m : List Host.Cell} (a : Nat) (v : Byte) (h : memWf m = true) : memWf (memWrite m a v) = true := by
  unfold memWrite
  split
  · exact memErase_wf a h
  · exact memInsert_wf ‹_› (fun l hl => by cases hl) h

theorem memWriteList_wf : ∀ (d : List Byte) {m : List Host.Cell} (a : Nat), memWf m = true → memWf (memWriteList m a d) = true
  | [], _, _, h => h
  | v :: d, _, a, h => memWriteList_wf d (a + 1) (memWrite_wf a v h)

/-- A buffer write keeps the canonical form. -/
theorem bufWrite_wf {m : List Host.Cell} (b : Buf) (d : List Byte) (h : memWf m = true) : memWf (bufWrite m b d) = true :=
  memWriteList_wf d b.base h

theorem memRead_above {lo : Nat} : ∀ {m : List Host.Cell} {a : Nat}, memWfAbove (some lo) m = true → a ≤ lo →
    memRead m a = memDefault
  | [], _, _, _ => rfl
  | (k, v) :: m, a, hm, ha => by
    rw [memWfAbove_cons] at hm
    have hk := hm.1 lo rfl
    have : k ≠ a := by omega
    simp only [memRead, this, if_false]
    exact memRead_above hm.2.2 (by omega)

theorem memRead_erase {lo : Option Nat} : ∀ {m : List Host.Cell} (a b : Nat), memWfAbove lo m = true →
    memRead (memErase m a) b = if b = a then memDefault else memRead m b
  | [], a, b, _ => by simp [memErase, memRead]
  | (k, v) :: m, a, b, hm => by
    rw [memWfAbove_cons] at hm
    by_cases hk : k = a
    · subst hk
      by_cases hb : b = k
      · subst hb
        simp [memErase, memRead_above hm.2.2 (Nat.le_refl _)]
      · simp [memErase, memRead, hb, Ne.symm hb]
    · have ih := memRead_erase (m := m) a b hm.2.2
      simp only [memErase, hk, if_false, memRead, ih]
      by_cases hb : b = a
      · subst hb
        simp [hk]
      · simp [hb]

theorem memRead_insert (v : Byte) : ∀ (m : List Host.Cell) (a b : Nat),
    memRead (memInsert m a v) b = if b = a then v else memRead m b
  | [], a, b => by simp [memInsert, memRead, eq_comm]
  | (k, w) :: m, a, b => by
    simp only [memInsert]
    split
    next hlt => simp [memRead, eq_comm]
    next hge =>
      split
      next heq =>
        subst heq
        by_cases hb : b = a
        · simp [memRead, hb]
        · simp [memRead, hb, Ne.symm hb]
      next hne =>
        simp only [memRead, memRead_insert v m a b]
        by_cases hb : b = a
        · subst hb
          simp [Ne.symm hne]
        · simp [hb]

/-- A read after a write: the byte written at its address, every other byte as before. -/
theorem memRead_write {m : List Host.Cell} (a b : Nat) (v : Byte) (h : memWf m = true) :
    memRead (memWrite m a v) b = if b = a then v else memRead m b := by
  unfold memWrite
  split
  next hv => rw [memRead_erase a b h, hv]
  next hv => exact memRead_insert v m a b

/-- A read after a write of consecutive bytes. -/
theorem memRead_writeList : ∀ (d : List Byte) {m : List Host.Cell} (a b : Nat), memWf m = true →
    memRead (memWriteList m a d) b = if h : a ≤ b ∧ b < a + d.length then d[b - a]'(by omega) else memRead m b
  | [], m, a, b, _ => by
    simp [memWriteList]
  | v :: d, m, a, b, h => by
    rw [memWriteList, memRead_writeList d (a + 1) b (memWrite_wf a v h)]
    by_cases hb : b = a
    · subst hb
      simp [memRead_write _ _ _ h]
    · rw [memRead_write _ _ _ h]
      by_cases hin : a + 1 ≤ b ∧ b < a + 1 + d.length
      · have h2 : a ≤ b ∧ b < a + (v :: d).length := by simp; omega
        rw [dif_pos hin, dif_pos h2]
        have : b - a = (b - (a + 1)) + 1 := by omega
        simp [this]
      · have h2 : ¬(a ≤ b ∧ b < a + (v :: d).length) := by simp; omega
        rw [dif_neg hin, dif_neg h2, if_neg hb]

/-- A buffer write changes no byte outside the bytes written. -/
theorem memRead_bufWrite_outside {m : List Host.Cell} (b : Buf) (d : List Byte) (a : Nat) (h : memWf m = true)
    (ha : a < b.base ∨ b.base + d.length ≤ a) : memRead (bufWrite m b d) a = memRead m a := by
  rw [bufWrite, memRead_writeList d _ _ h, dif_neg (by omega)]

/-- A buffer write stores byte `i` at index `i`. -/
theorem memRead_bufWrite_inside {m : List Host.Cell} (b : Buf) (d : List Byte) (i : Nat) (h : memWf m = true)
    (hi : i < d.length) : memRead (bufWrite m b d) (b.base + i) = d[i] := by
  rw [bufWrite, memRead_writeList d _ _ h, dif_pos (by omega)]
  simp

@[simp] theorem bufRead_length (m : List Host.Cell) (b : Buf) (n : Nat) : (bufRead m b n).length = n := by simp [bufRead]

/-- A buffer reads back what was written to it. -/
theorem bufRead_bufWrite {m : List Host.Cell} (b : Buf) (d : List Byte) (h : memWf m = true) :
    bufRead (bufWrite m b d) b d.length = d := by
  apply List.ext_getElem (by simp)
  intro i h1 h2
  simp [bufRead, memRead_bufWrite_inside b d i h h2]

end Sys2Proof.Laws
end

