-- ==== Sys2Proof/Laws/Ops.lean ====
section
/-! SUPPORT. What the primitives and the transactions do, one lemma each: `f_does` on every path, `f_eq` where no reset of
the system arrives. The state after the events `es` is written `ran es r s`, `r` being the radio then. -/

namespace Sys2Proof.Laws

open Sys2Proof.Machine Sys2Proof.Safety

/-- The state after the events `es`, the radio being `r`: nothing else has changed. -/
def ran (es : List Event) (r : Radio) (s : State) : State :=
  { s with
    csn       := es.foldl (fun v e => csnAfter e v) s.csn
    ce        := es.foldl (fun v e => ceAfter e v) s.ce
    stepIndex := s.stepIndex + es.length
    trace     := s.trace ++ es
    radio     := r
    resetAt   := s.resetAt.map (· - es.length) }

section
variable (es : List Event) (r : Radio) (s : State)

@[simp] theorem ran_cfg : (ran es r s).cfg = s.cfg := rfl
@[simp] theorem ran_shadow : (ran es r s).shadow = s.shadow := rfl
@[simp] theorem ran_phase : (ran es r s).phase = s.phase := rfl
@[simp] theorem ran_busy : (ran es r s).busy = s.busy := rfl
@[simp] theorem ran_stepIndex : (ran es r s).stepIndex = s.stepIndex + es.length := rfl
@[simp] theorem ran_initialized : (ran es r s).initialized = s.initialized := rfl
@[simp] theorem ran_status : (ran es r s).status = s.status := rfl
@[simp] theorem ran_budget : (ran es r s).budget = s.budget := rfl
@[simp] theorem ran_outcome : (ran es r s).outcome = s.outcome := rfl
@[simp] theorem ran_csn : (ran es r s).csn = es.foldl (fun v e => csnAfter e v) s.csn := rfl
@[simp] theorem ran_ce : (ran es r s).ce = es.foldl (fun v e => ceAfter e v) s.ce := rfl
@[simp] theorem ran_mem : (ran es r s).mem = s.mem := rfl
@[simp] theorem ran_port : (ran es r s).port = s.port := rfl
@[simp] theorem ran_bench : (ran es r s).bench = s.bench := rfl
@[simp] theorem ran_responses : (ran es r s).responses = s.responses := rfl
@[simp] theorem ran_marks : (ran es r s).marks = s.marks := rfl
@[simp] theorem ran_trace : (ran es r s).trace = s.trace ++ es := rfl
@[simp] theorem ran_sessions : (ran es r s).sessions = s.sessions := rfl
@[simp] theorem ran_radio : (ran es r s).radio = r := rfl
@[simp] theorem ran_resetAt : (ran es r s).resetAt = s.resetAt.map (· - es.length) := rfl

@[simp] theorem ran_nil : ran [] s.radio s = s := by simp [ran]

@[simp] theorem ran_ran (es' : List Event) (r' : Radio) : ran es' r' (ran es r s) = ran (es ++ es') r' s := by
  simp [ran, Nat.add_assoc, Option.map_map, Function.comp_def, Nat.sub_sub]
end

/-- The radio after events whose answers are not kept. -/
def hearAll (c : Cfg) (es : List Event) (r : Radio) : Radio := es.foldl (fun r e => (r.stir c).hear c e) r

theorem hearAll_append (c : Cfg) (es es' : List Event) (r : Radio) :
    hearAll c (es ++ es') r = hearAll c es' (hearAll c es r) := by simp [hearAll]

@[simp] theorem bind_on {α β : Type} (a : α) (s : State) (k : α → State → Flow β) : (Flow.on a s).bind k = k a s := rfl
@[simp] theorem bind_stop {α β : Type} (s : State) (k : α → State → Flow β) : (Flow.stop s).bind k = .stop s := rfl
@[simp] theorem bind_fault {α β : Type} (f : Fault) (k : α → State → Flow β) : (Flow.fault f).bind k = .fault f := rfl

theorem unlessReset_none {α : Type} {s : State} (h : s.resetAt = none) (k : Flow α) : unlessReset s k = k := by
  simp [unlessReset, h]

theorem logEvent_eq_ran (s : State) (r : Radio) (e : Event) : logEvent r e s = ran [e] (r.hear s.cfg e) s := rfl

/-- A piece of an operation started in `s` goes on to a state of which `P` holds, unless a reset of the system
arrives and ends it. -/
def Does {α : Type} (s : State) (x : Flow α) (P : α → State → Prop) : Prop :=
  (∃ a t, x = .on a t ∧ t.resetAt.isSome = s.resetAt.isSome ∧ P a t) ∨
    (s.resetAt.isSome = true ∧ ∃ u, x = .stop (systemReset u))

theorem Does.of_none {α : Type} {s : State} {x : Flow α} {P : α → State → Prop} (h : Does s x P)
    (hn : s.resetAt = none) : ∃ a t, x = .on a t ∧ P a t := by
  rcases h with ⟨a, t, hx, -, hp⟩ | ⟨hs, -⟩
  · exact ⟨a, t, hx, hp⟩
  · simp [hn] at hs

theorem Does.eq {α : Type} {s : State} {x : Flow α} {a : α} {t : State} (h : Does s x fun b u => b = a ∧ u = t)
    (hn : s.resetAt = none) : x = .on a t := by
  obtain ⟨_, _, hx, rfl, rfl⟩ := h.of_none hn
  exact hx

theorem Does.bind {α β : Type} {s : State} {x : Flow α} {k : α → State → Flow β} {P : α → State → Prop}
    {Q : β → State → Prop} (hx : Does s x P) (hk : ∀ a t, P a t → Does t (k a t) Q) : Does s (x.bind k) Q := by
  rcases hx with ⟨a, t, rfl, hr, hp⟩ | ⟨hs, u, rfl⟩
  · rcases hk a t hp with ⟨b, v, hb, hr', hq⟩ | ⟨ht, u, hu⟩
    · exact .inl ⟨b, v, hb, hr'.trans hr, hq⟩
    · exact .inr ⟨by rw [← hr, ht], u, hu⟩
  · exact .inr ⟨hs, u, rfl⟩

theorem Does.mono {α : Type} {s : State} {x : Flow α} {P Q : α → State → Prop} (h : Does s x P)
    (hpq : ∀ a t, P a t → Q a t) : Does s x Q := by
  rcases h with ⟨a, t, hx, hr, hp⟩ | h
  · exact .inl ⟨a, t, hx, hr, hpq a t hp⟩
  · exact .inr h

/-- A piece that starts from a state with some plain fields changed. -/
theorem Does.of_eq {α : Type} {s s' : State} {x : Flow α} {P : α → State → Prop} (h : Does s' x P)
    (hr : s'.resetAt = s.resetAt) : Does s x P := by simpa [Does, hr] using h

theorem does_on {α : Type} {a : α} {s t : State} {P : α → State → Prop} (hr : t.resetAt.isSome = s.resetAt.isSome)
    (hp : P a t) : Does s (.on a t) P := .inl ⟨a, t, rfl, hr, hp⟩

theorem unlessReset_does {α : Type} {s : State} {a : α} {t : State} (hr : t.resetAt.isSome = s.resetAt.isSome) :
    Does s (unlessReset s (.on a t)) fun b u => b = a ∧ u = t := by
  unfold unlessReset
  split
  next h => exact .inr ⟨by simp [h], _, rfl⟩
  next => exact does_on hr ⟨rfl, rfl⟩

/-- An event with no answer. -/
theorem emit_does (e : Event) (s : State) :
    Does s (emit e s) fun _ t => t = ran [e] (hearAll s.cfg [e] s.radio) s :=
  (unlessReset_does (by simp)).mono fun _ _ h => h.2

/-- An exchange whose answer is kept: the radio's byte is the result and stands in the trace. -/
theorem xferKeep_does (o : Byte) (n : Nat) (s : State) :
    Does s (xferKeep o n s) fun b t => ∃ r, t = ran [.x o (some b)] r s :=
  (unlessReset_does (by simp)).mono fun _ _ h => by
    obtain ⟨rfl, rfl⟩ := h
    exact ⟨_, rfl⟩

/-- A sample of the interrupt line: the radio's level is the result and stands in the trace. -/
theorem readIrq_does (s : State) : Does s (readIrq s) fun l t => ∃ r, t = ran [.irq l] r s :=
  (unlessReset_does (by simp)).mono fun _ _ h => by
    obtain ⟨rfl, rfl⟩ := h
    exact ⟨_, rfl⟩

/-- Successive exchanges with the answers discarded. -/
theorem xferN_does : ∀ (d : List Byte) (s : State), Does s (xferN d s) fun _ t =>
    t = ran (d.map fun b => .x b none) (hearAll s.cfg (d.map fun b => .x b none) s.radio) s
  | [], s => does_on rfl (by simp [hearAll])
  | o :: d, s => (emit_does _ s).bind fun _ t ht => (xferN_does d t).mono fun _ u hu => by
      subst ht; rw [hu]; simp [hearAll]

/-- Successive exchanges with the answers kept: as many bytes as were sent, each in the trace. -/
theorem xferKeepN_does (n : Nat) : ∀ (o : List Byte) (s : State), Does s (xferKeepN n o s) fun d t =>
    d.length = o.length ∧ ∃ r, t = ran ((o.zip d).map fun p => .x p.1 (some p.2)) r s
  | [], s => does_on rfl ⟨rfl, s.radio, by simp⟩
  | a :: o, s => (xferKeep_does a n s).bind fun b t ht => (xferKeepN_does n o t).bind fun d u hu => does_on rfl (by
      obtain ⟨r, rfl⟩ := ht
      obtain ⟨hl, r', rfl⟩ := hu
      exact ⟨by simp [hl], r', by simp⟩)

theorem zip_fillers (c : Cfg) (d : List Byte) : (fillers c d.length).zip d = d.map fun b => (c.cmd.nop, b) := by
  induction d with
  | nil => rfl
  | cons b d ih => simpa [fillers, List.replicate_succ] using ih

/-- A transaction that sends `d` (R131, R189): its events. -/
theorem writeFrame_does (cmd : Byte) (d : List Byte) (s : State) : Does s (writeFrame cmd d s) fun _ t =>
    t = ran (writeTrace cmd d) (hearAll s.cfg (writeTrace cmd d) s.radio) s :=
  (emit_does _ s).bind fun _ _ h1 => (emit_does _ _).bind fun _ _ h2 => (emit_does _ _).bind fun _ _ h3 =>
    (xferN_does d _).bind fun _ _ h4 => (emit_does _ _).mono fun _ _ h5 => by
      subst h1 h2 h3 h4 h5; simp [writeTrace, hearAll]

/-- A transaction with no data phase (R113). -/
theorem command_does (cmd : Byte) (s : State) : Does s (command cmd s) fun _ t =>
    t = ran (commandTrace cmd) (hearAll s.cfg (commandTrace cmd) s.radio) s :=
  (emit_does _ s).bind fun _ _ h1 => (emit_does _ _).bind fun _ _ h2 => (emit_does _ _).mono fun _ _ h3 => by
    subst h1 h2 h3; simp [commandTrace, hearAll]

/-- A transaction that receives `n` bytes (R130, R205): some `n` bytes, which stand in its events. -/
theorem readFrame_does (cmd : Byte) (n : Nat) (s : State) : Does s (readFrame cmd n s) fun d t =>
    d.length = n ∧ ∃ r, t = ran (readTrace s.cfg cmd d) r s :=
  (emit_does _ s).bind fun _ _ h1 => (emit_does _ _).bind fun _ _ h2 => (emit_does _ _).bind fun _ _ h3 =>
    (xferKeepN_does _ _ _).bind fun d _ h4 => (emit_does _ _).bind fun _ _ h5 => does_on rfl (by
      subst h1 h2 h3
      obtain ⟨hl, r, rfl⟩ := h4
      have hn : d.length = n := by simpa [fillers] using hl
      subst hn
      refine ⟨rfl, (r.stir s.cfg).hear s.cfg (.csn .deasserted), ?_⟩
      rw [h5]
      simp only [ran_cfg, zip_fillers]
      simp [readTrace, hearAll, Function.comp_def])

/-- `RegRead` (R113): the one byte received. -/
theorem regRead_does (a : Byte) (s : State) : Does s (regRead a s) fun b t =>
    ∃ r, t = ran (regReadTrace s.cfg a [b]) r s :=
  (emit_does _ s).bind fun _ _ h1 => (emit_does _ _).bind fun _ _ h2 => (emit_does _ _).bind fun _ _ h3 =>
    (xferKeep_does _ _ _).bind fun b _ h4 => (emit_does _ _).bind fun _ _ h5 => does_on rfl (by
      subst h1 h2 h3
      obtain ⟨r, rfl⟩ := h4
      refine ⟨(r.stir s.cfg).hear s.cfg (.csn .deasserted), ?_⟩
      rw [h5]
      simp [regReadTrace, readTrace, hearAll])

/-- `RegWrite` (R113). -/
theorem regWrite_does (a v : Byte) (s : State) : Does s (regWrite a v s) fun _ t =>
    t = ran (regWriteTrace s.cfg a [v]) (hearAll s.cfg (regWriteTrace s.cfg a [v]) s.radio) s := writeFrame_does _ _ s

/-- `RegWriteN` (R113). -/
theorem regWriteN_does (a : Byte) (d : List Byte) (s : State) : Does s (regWriteN a d s) fun _ t =>
    t = ran (regWriteTrace s.cfg a d) (hearAll s.cfg (regWriteTrace s.cfg a d) s.radio) s := writeFrame_does _ _ s

/-- `WriteConfig` (R34): the shadow holds the value sent. -/
theorem writeConfig_does (v : Byte) (s : State) : Does s (writeConfig v s) fun _ t =>
    t = ran (regWriteTrace s.cfg s.cfg.reg.config [v])
      (hearAll s.cfg (regWriteTrace s.cfg s.cfg.reg.config [v]) s.radio) { s with shadow := some v } :=
  (regWrite_does _ v { s with shadow := some v }).of_eq rfl

/-- A read of a field that is written. -/
@[simp] theorem readField_some {α : Type} (f : Field) (a : α) (s : State) : readField f (some a) s = .on a s := rfl
@[simp] theorem readField_none {α : Type} (f : Field) (s : State) :
    readField f (none : Option α) s = .fault (.unwritten f) := rfl

section
variable {s : State} (h : s.resetAt = none)
include h

theorem emit_eq (e : Event) : emit e s = .on () (ran [e] (hearAll s.cfg [e] s.radio) s) :=
  ((emit_does e s).mono fun _ _ ht => ⟨rfl, ht⟩).eq h

theorem writeFrame_eq (cmd : Byte) (d : List Byte) :
    writeFrame cmd d s = .on () (ran (writeTrace cmd d) (hearAll s.cfg (writeTrace cmd d) s.radio) s) :=
  ((writeFrame_does cmd d s).mono fun _ _ ht => ⟨rfl, ht⟩).eq h

theorem command_eq (cmd : Byte) :
    command cmd s = .on () (ran (commandTrace cmd) (hearAll s.cfg (commandTrace cmd) s.radio) s) :=
  ((command_does cmd s).mono fun _ _ ht => ⟨rfl, ht⟩).eq h

theorem readFrame_eq (cmd : Byte) (n : Nat) :
    ∃ d r, d.length = n ∧ readFrame cmd n s = .on d (ran (readTrace s.cfg cmd d) r s) := by
  obtain ⟨d, t, hx, hl, r, rfl⟩ := (readFrame_does cmd n s).of_none h
  exact ⟨d, r, hl, hx⟩

theorem regRead_eq (a : Byte) : ∃ b r, regRead a s = .on b (ran (regReadTrace s.cfg a [b]) r s) := by
  obtain ⟨b, t, hx, r, rfl⟩ := (regRead_does a s).of_none h
  exact ⟨b, r, hx⟩

theorem xferKeep_eq (o : Byte) (n : Nat) : ∃ b r, xferKeep o n s = .on b (ran [.x o (some b)] r s) := by
  obtain ⟨b, t, hx, r, rfl⟩ := (xferKeep_does o n s).of_none h
  exact ⟨b, r, hx⟩

theorem readIrq_eq : ∃ l r, readIrq s = .on l (ran [.irq l] r s) := by
  obtain ⟨l, t, hx, r, rfl⟩ := (readIrq_does s).of_none h
  exact ⟨l, r, hx⟩

theorem regWrite_eq (a v : Byte) : regWrite a v s =
    .on () (ran (regWriteTrace s.cfg a [v]) (hearAll s.cfg (regWriteTrace s.cfg a [v]) s.radio) s) := writeFrame_eq h _ _

theorem regWriteN_eq (a : Byte) (d : List Byte) : regWriteN a d s =
    .on () (ran (regWriteTrace s.cfg a d) (hearAll s.cfg (regWriteTrace s.cfg a d) s.radio) s) := writeFrame_eq h _ _

theorem writeConfig_eq (v : Byte) : writeConfig v s = .on () (ran (regWriteTrace s.cfg s.cfg.reg.config [v])
    (hearAll s.cfg (regWriteTrace s.cfg s.cfg.reg.config [v]) s.radio) { s with shadow := some v }) :=
  regWrite_eq (s := { s with shadow := some v }) h _ _
end

section
variable (c : Cfg) (cmd : Byte) (d : List Byte)

theorem pins_x_csn (f : Byte → Event) (hf : ∀ b, ∃ o k, f b = .x o k) (v : Option Select) :
    (d.map f).foldl (fun v e => csnAfter e v) v = v := by
  induction d with
  | nil => rfl
  | cons b d ih => obtain ⟨o, k, hb⟩ := hf b; simpa [hb, csnAfter] using ih

theorem pins_x_ce (f : Byte → Event) (hf : ∀ b, ∃ o k, f b = .x o k) (v : Option Level) :
    (d.map f).foldl (fun v e => ceAfter e v) v = v := by
  induction d with
  | nil => rfl
  | cons b d ih => obtain ⟨o, k, hb⟩ := hf b; simpa [hb, ceAfter] using ih

/-- A transaction leaves chip-select deasserted (R80). -/
@[simp] theorem writeTrace_csn (v : Option Select) :
    (writeTrace cmd d).foldl (fun v e => csnAfter e v) v = some .deasserted := by simp [writeTrace, csnAfter]
@[simp] theorem readTrace_csn (v : Option Select) :
    (readTrace c cmd d).foldl (fun v e => csnAfter e v) v = some .deasserted := by simp [readTrace, csnAfter]
@[simp] theorem commandTrace_csn (v : Option Select) :
    (commandTrace cmd).foldl (fun v e => csnAfter e v) v = some .deasserted := by simp [commandTrace, csnAfter]

/-- A transaction leaves chip-enable alone. -/
@[simp] theorem writeTrace_ce (v : Option Level) : (writeTrace cmd d).foldl (fun v e => ceAfter e v) v = v := by
  simp only [writeTrace, List.foldl_append, pins_x_ce d _ (fun b => ⟨b, none, rfl⟩)]; rfl
@[simp] theorem readTrace_ce (v : Option Level) : (readTrace c cmd d).foldl (fun v e => ceAfter e v) v = v := by
  simp only [readTrace, List.foldl_append, pins_x_ce d _ (fun b => ⟨c.cmd.nop, some b, rfl⟩)]; rfl
@[simp] theorem commandTrace_ce (v : Option Level) : (commandTrace cmd).foldl (fun v e => ceAfter e v) v = v := rfl

@[simp] theorem writeTrace_length : (writeTrace cmd d).length = d.length + 4 := by simp [writeTrace]
@[simp] theorem readTrace_length : (readTrace c cmd d).length = d.length + 4 := by simp [readTrace]
@[simp] theorem commandTrace_length : (commandTrace cmd).length = 3 := rfl
end

/-- An accepted host operation whose body goes on: it is released and answers its result (R36, R48). -/
theorem hostOp_next {op : HostOp} {i : Instr} {s : State} {body : State → Flow Response} {p : Response} {t : State}
    (hb : s.busy = none) (hc : failedCheck i s = none) (h : body (accept op s) = .on p t) :
    hostOp op i s body = .next (respond p (release t)) := by simp [hostOp, hb, hc, h, conclude]

/-- A refused host operation (R221). -/
theorem hostOp_refused {op : HostOp} {i : Instr} {s : State} {body : State → Flow Response} {k : Check}
    (hb : s.busy = none) (hc : failedCheck i s = some k) :
    hostOp op i s body = .next (refuse k (.op i) s) := by simp [hostOp, hb, hc]

/-- An accepted host operation, whatever resets arrive: what its body does, released and answered, or a reset. -/
theorem hostOp_does {op : HostOp} {i : Instr} {s : State} {body : State → Flow Response} {P : Response → State → Prop}
    (hb : s.busy = none) (hc : failedCheck i s = none) (h : Does (accept op s) (body (accept op s)) P) :
    (∃ p t, hostOp op i s body = .next (respond p (release t)) ∧ P p t) ∨
    (s.resetAt.isSome = true ∧ ∃ u, hostOp op i s body = .next (systemReset u)) := by
  rcases h with ⟨p, t, hx, -, hp⟩ | ⟨hs, u, hx⟩
  · exact .inl ⟨p, t, hostOp_next hb hc hx, hp⟩
  · exact .inr ⟨hs, u, by simp [hostOp, hb, hc, hx, conclude]⟩

/-- A wire command whose transaction goes on. -/
theorem wireOp_next {s : State} {body : State → Flow Response} {p : Response} {t : State} (h : body s = .on p t) :
    wireOp s body = .next (respond p { t with stepIndex := s.stepIndex }) := by simp [wireOp, h, conclude]

end Sys2Proof.Laws
end

