-- ==== Sys2Proof/Laws/Radio.lean ====
section
/-! SUPPORT. The radio's laws: its registers (a read after a write), and what a whole transaction does to the reference
radio (R88) while it does nothing of its own. -/

namespace Sys2Proof.Laws

open Sys2Proof.Machine Sys2Proof.Safety

theorem lookupReg_insertReg (d : List Byte) : ∀ (m : List (Nat × List Byte)) (a b : Nat),
    lookupReg b (insertReg a d m) = if b = a then some d else lookupReg b m
  | [], a, b => by simp [insertReg, lookupReg, eq_comm]
  | (k, e) :: m, a, b => by
    simp only [insertReg]
    split
    next => simp [lookupReg, eq_comm]
    next =>
      split
      next heq =>
        subst heq
        by_cases hb : b = a
        · simp [lookupReg, hb]
        · simp [lookupReg, hb, Ne.symm hb]
      next hne =>
        simp only [lookupReg, lookupReg_insertReg d m a b]
        by_cases hb : b = a
        · subst hb
          simp [Ne.symm hne]
        · simp [hb]

/-- A register reads back what it was set to, and every other register is as before. -/
theorem reg_setReg (c : Cfg) (r : Radio) (a b : Byte) (d : List Byte) :
    (r.setReg a d).reg c b = if b = a then d else r.reg c b := by
  by_cases h : b = a
  · subst h; simp [Radio.setReg, Radio.reg, lookupReg_insertReg]
  · have : b.toNat ≠ a.toNat := fun e => h (BitVec.eq_of_toNat_eq e)
    simp [Radio.setReg, Radio.reg, lookupReg_insertReg, h, this]

@[simp] theorem status_setStatus (c : Cfg) (r : Radio) (v : Byte) : (r.setStatus c v).status c = v := by
  simp [Radio.setStatus, Radio.status, reg_setReg]

theorem quiet_stir {r : Radio} (h : Quiet r) (c : Cfg) : r.stir c = r := by simp [Radio.stir, h.1, h.2.1]

theorem quiet_link {r : Radio} (h : Quiet r) (l : Link) : Quiet { r with link := l } := h

/-- The reference radio after the data bytes of a bracket. -/
theorem hearAll_data (c : Cfg) (cmd : Byte) : ∀ (d e : List Byte) (r : Radio), Quiet r →
    hearAll c (d.map fun b => .x b none) { r with link := .frame cmd e } = { r with link := .frame cmd (e ++ d) }
  | [], e, r, _ => by simp [hearAll]
  | b :: d, e, r, h => by
    have := hearAll_data c cmd d (e ++ [b]) r h
    simp only [hearAll, List.map_cons, List.foldl_cons, quiet_stir (quiet_link h _), Radio.hear] at this ⊢
    rw [this]; simp

/-- The reference radio after a transaction that sends `d`: its effect is that of the command (R78). -/
theorem hearAll_writeTrace {c : Cfg} {r : Radio} (h : Quiet r) (cmd : Byte) (d : List Byte) :
    hearAll c (writeTrace cmd d) r =
      { Radio.finish c { r with link := .frame cmd d } cmd d with link := .idle } := by
  rw [writeTrace, hearAll_append, hearAll_append]
  have h0 : hearAll c [.csn .asserted, .x cmd none, .settle] r = { r with link := .frame cmd [] } := by
    simp [hearAll, quiet_stir h, Radio.hear, quiet_stir (quiet_link h _)]
  rw [h0, hearAll_data c cmd d [] r h]
  simp [hearAll, quiet_stir (quiet_link h _), Radio.hear]

/-- The reference radio after a transaction with no data phase (R187, R188). -/
theorem hearAll_commandTrace {c : Cfg} {r : Radio} (h : Quiet r) (cmd : Byte) :
    hearAll c (commandTrace cmd) r =
      { Radio.finish c { r with link := .frame cmd [] } cmd [] with link := .idle } := by
  simp [hearAll, commandTrace, quiet_stir h, Radio.hear, quiet_stir (quiet_link h _)]

/-- The reference radio's answers to the rest of a transaction that receives `data`, the bytes `got` sent so far. -/
theorem xferKeepN_stored {s : State} (h : s.resetAt = none) (hq : Quiet s.radio) {cmd : Byte} {n : Nat} {data : List Byte}
    (hs : ∀ e, e.length < data.length →
      Radio.stored s.cfg { s.radio with link := .frame cmd e } n = data[e.length]?) : ∀ (o got rest : List Byte),
    s.radio.link = .frame cmd got → o.length = rest.length → data.drop got.length = rest →
    xferKeepN n o s = .on rest
      (ran ((o.zip rest).map fun p => .x p.1 (some p.2)) { s.radio with link := .frame cmd (got ++ o) } s)
  | [], got, rest, hl, hlen, hd => by
    have : rest = [] := List.length_eq_zero_iff.mp hlen.symm
    subst this
    have hr : { s.radio with link := Link.frame cmd got } = s.radio := by rw [← hl]
    simp only [xferKeepN, List.append_nil, List.zip_nil_left, List.map_nil]
    rw [hr, ran_nil]
  | b :: o, got, [], hl, hlen, hd => by simp at hlen
  | b :: o, got, v :: rest, hl, hlen, hd => by
    have hv : data[got.length]? = some v := by
      have := congrArg (fun l => l[0]?) hd
      simpa using this
    have hr : { s.radio with link := Link.frame cmd got } = s.radio := by rw [← hl]
    have hst : s.radio.stored s.cfg n = some v := by rw [← hr, hs got (List.getElem?_eq_some_iff.mp hv).1, hv]
    have ha : s.radio.answer s.cfg n = (v, s.radio) := by simp [Radio.answer, hq.2.2, hst, Radio.orDraw]
    have hx : xferKeep b n s = .on v (ran [.x b (some v)] { s.radio with link := .frame cmd (got ++ [b]) } s) := by
      simp only [xferKeep, quiet_stir hq, ha]
      rw [unlessReset_none h, logEvent_eq_ran]
      simp [Radio.hear, hl]
    rw [xferKeepN, hx, bind_on]
    have ih := xferKeepN_stored (s := ran [.x b (some v)] { s.radio with link := .frame cmd (got ++ [b]) } s)
      (by simpa using h) (by simpa using quiet_link hq _) (cmd := cmd) (data := data) hs o (got ++ [b]) rest
      (by simp) (by simpa using hlen) (by
        have : data.drop (got.length + 1) = rest := by
          rw [← List.drop_drop, hd]; rfl
        simpa using this)
    rw [ih]
    simp

/-- A transaction that receives from the reference radio the bytes `data` it holds for it (R88), or the first of
those it holds: those bytes in index order (R72), and the command's effect. -/
theorem readFrame_stored {s : State} (h : s.resetAt = none) (hq : Quiet s.radio) {cmd : Byte} {data : List Byte}
    (hs : ∀ e, e.length < data.length →
      Radio.stored s.cfg { s.radio with link := .frame cmd e } data.length = data[e.length]?) :
    readFrame cmd data.length s = .on data (ran (readTrace s.cfg cmd data)
      { Radio.finish s.cfg { s.radio with link := .frame cmd (fillers s.cfg data.length) } cmd
        (fillers s.cfg data.length) with link := .idle } s) := by
  have h0 : hearAll s.cfg [.csn .asserted, .x cmd none, .settle] s.radio = { s.radio with link := .frame cmd [] } := by
    simp [hearAll, quiet_stir hq, Radio.hear, quiet_stir (quiet_link hq _)]
  have hx := xferKeepN_stored
    (s := ran [.csn .asserted, .x cmd none, .settle] { s.radio with link := .frame cmd [] } s)
    (by simpa using h) (by simpa using quiet_link hq _) (cmd := cmd) (data := data) hs
    (fillers s.cfg data.length) [] data rfl (by simp [fillers]) (by simp)
  rw [zip_fillers] at hx
  simp [hearAll] at h0
  simp [readFrame, setCsn, xfer, settle, emit_eq, h, hearAll, h0] at hx ⊢
  rw [hx]
  simp [emit_eq, h, hearAll, readTrace, quiet_stir (quiet_link hq _), Radio.hear]
  rfl

end Sys2Proof.Laws
end

