-- ==== Sys2Proof/Laws/Decode.lean ====
section
/-! SUPPORT. What a well-formed `CMD` table (R103) says of its command bytes. -/

namespace Sys2Proof.Laws

open Sys2Proof.Machine Sys2Proof.Safety

theorem disjointBytes_iff {xs ys : List Byte} : disjointBytes xs ys = true ↔ ∀ x ∈ xs, ∀ y ∈ ys, x ≠ y := by
  simp [disjointBytes]

/-- A register command byte lies in the range of its class (R103). -/
theorem regCmd_mem_range (c : Cfg) (op a : Byte) : regCmd c op a ∈ cmdRange c op := by
  have h : (a &&& c.addrMask).toNat ≤ c.addrMask.toNat := by
    rw [BitVec.toNat_and]; exact Nat.and_le_right
  exact List.mem_map.mpr ⟨(regNum c a).toNat, List.mem_range.mpr (Nat.lt_succ_of_le h), by simp [regCmd]⟩

theorem regNum_regNum (c : Cfg) (a : Byte) : regNum c (regNum c a) = regNum c a := by
  simp [regNum, BitVec.and_assoc]

theorem regCmd_regNum (c : Cfg) (op a : Byte) : regCmd c op (regNum c a) = regCmd c op a := by
  simp [regCmd, regNum_regNum]

/-- The address field of a register command byte (R101, R102). -/
theorem regCmd_field {c : Cfg} {op : Byte} (h : op &&& c.addrMask = 0#8) (a : Byte) :
    regCmd c op a &&& c.addrMask = regNum c a := by
  rw [regCmd, BitVec.and_or_distrib_right, h, BitVec.zero_or]
  exact regNum_regNum c a

/-- The class field of a register command byte (R101, R102). -/
theorem regCmd_class {c : Cfg} {op : Byte} (h : op &&& c.addrMask = 0#8) (a : Byte) :
    regCmd c op a &&& ~~~c.addrMask = op := by
  apply BitVec.eq_of_getLsbD_eq
  intro i hi
  have hb := congrArg (fun v => v.getLsbD i) h
  simp [regCmd, regNum, hi] at hb ⊢
  cases ho : op.getLsbD i <;> cases hm : c.addrMask.getLsbD i <;> simp_all

theorem cmdOk_fields {c : Cfg} (h : cmdOk c = true) :
    c.cmd.rRegister &&& c.addrMask = 0#8 ∧ c.cmd.wRegister &&& c.addrMask = 0#8 := by
  simp [cmdOk, cmdFieldsOk] at h; exact h.1.1.1.1

theorem cmdOk_classes {c : Cfg} (h : cmdOk c = true) : c.cmd.rRegister ≠ c.cmd.wRegister := by
  have hd : disjointBytes (cmdRange c c.cmd.rRegister) (cmdRange c c.cmd.wRegister) = true := by
    simp [cmdOk] at h; exact h.1.1.1.2
  have := disjointBytes_iff.mp hd _ (regCmd_mem_range c c.cmd.rRegister 0#8) _ (regCmd_mem_range c c.cmd.wRegister 0#8)
  simpa [regCmd, regNum] using this

theorem cmdOk_read_fix {c : Cfg} (h : cmdOk c = true) (a : Byte) :
    ∀ b ∈ fixBytes c, regCmd c c.cmd.rRegister a ≠ b := by
  have hd : disjointBytes (cmdRange c c.cmd.rRegister) (fixBytes c) = true := by simp [cmdOk] at h; exact h.1.1.2
  exact disjointBytes_iff.mp hd _ (regCmd_mem_range c _ a)

theorem cmdOk_write_fix {c : Cfg} (h : cmdOk c = true) (a : Byte) :
    ∀ b ∈ fixBytes c, regCmd c c.cmd.wRegister a ≠ b := by
  have hd : disjointBytes (cmdRange c c.cmd.wRegister) (fixBytes c) = true := by simp [cmdOk] at h; exact h.1.2
  exact disjointBytes_iff.mp hd _ (regCmd_mem_range c _ a)

/-- A read-register byte decodes to its register's number. -/
theorem decodeCommand_read {c : Cfg} (h : cmdOk c = true) (a : Byte) :
    decodeCommand c (regCmd c c.cmd.rRegister a) = .rRegister (regNum c a) := by
  have hf := cmdOk_read_fix h a
  simp only [fixBytes, List.forall_mem_cons] at hf
  simp [decodeCommand, hf, regCmd_class (cmdOk_fields h).1, regCmd_field (cmdOk_fields h).1]

/-- A write-register byte decodes to its register's number. -/
theorem decodeCommand_write {c : Cfg} (h : cmdOk c = true) (a : Byte) :
    decodeCommand c (regCmd c c.cmd.wRegister a) = .wRegister (regNum c a) := by
  have hf := cmdOk_write_fix h a
  simp only [fixBytes, List.forall_mem_cons] at hf
  simp [decodeCommand, hf, regCmd_class (cmdOk_fields h).2, regCmd_field (cmdOk_fields h).2, (cmdOk_classes h).symm]

/-- Each FIX byte decodes to its command. -/
theorem decodeCommand_fix {c : Cfg} (h : cmdOk c = true) :
    decodeCommand c c.cmd.rRxPayload = .rRxPayload ∧ decodeCommand c c.cmd.wTxPayload = .wTxPayload ∧
    decodeCommand c c.cmd.flushTx = .flushTx ∧ decodeCommand c c.cmd.flushRx = .flushRx ∧
    decodeCommand c c.cmd.nop = .nop := by
  have hd : distinctBytes (fixBytes c) = true := by simp [cmdOk] at h; exact h.2
  simp [distinctBytes, fixBytes] at hd
  obtain ⟨⟨h1, h2, h3, h4⟩, ⟨h5, h6, h7⟩, ⟨h8, h9⟩, h10⟩ := hd
  simp [decodeCommand, Ne.symm h1, Ne.symm h2, Ne.symm h3, Ne.symm h4, Ne.symm h5, Ne.symm h6, Ne.symm h7, Ne.symm h8,
    Ne.symm h9, Ne.symm h10]

theorem cfgOk_cmdOk {c : Cfg} (h : cfgOk c = true) : cmdOk c = true := by simp [cfgOk] at h; exact h.2

/-- R12 of a well-formed `Cfg`. -/
theorem cfgOk_poll {c : Cfg} (h : cfgOk c = true) :
    0 < c.pollBudgetMs ∧ 0 < c.pollQuantumMs ∧ c.pollQuantumMs ∣ c.pollBudgetMs := by
  simp [cfgOk, pollOk] at h
  exact ⟨h.1.1.2.1.1, h.1.1.2.1.2, Nat.dvd_of_mod_eq_zero h.1.1.2.2⟩

end Sys2Proof.Laws
end

