-- ==== Sys2Proof/Laws/Reset.lean ====
section
/-! SUPPORT. What every operation can do, a reset of the system included: it runs some events and goes on, or exactly as
many events as the reset allows and is reset. -/

namespace Sys2Proof.Laws

open Sys2Proof.Machine Sys2Proof.Safety

/-- What no part of an operation touches, and the canonical form of memory. -/
structure Kept (s t : State) : Prop where
  cfg       : t.cfg = s.cfg
  sessions  : t.sessions = s.sessions
  marks     : t.marks = s.marks
  responses : t.responses = s.responses
  port      : t.port = s.port
  bench     : t.bench = s.bench
  memWf     : memWf s.mem = true → memWf t.mem = true

theorem Kept.refl (s : State) : Kept s s := ⟨rfl, rfl, rfl, rfl, rfl, rfl, id⟩

theorem Kept.trans {s t u : State} (h : Kept s t) (h' : Kept t u) : Kept s u :=
  ⟨h'.cfg.trans h.cfg, h'.sessions.trans h.sessions, h'.marks.trans h.marks, h'.responses.trans h.responses,
    h'.port.trans h.port, h'.bench.trans h.bench, fun m => h'.memWf (h.memWf m)⟩

/-- From `s` to `t` the events `es` ran, within what the coming reset allows. -/
structure Runs (s : State) (es : List Event) (t : State) : Prop where
  kept  : Kept s t
  trace : t.trace = s.trace ++ es
  none  : s.resetAt = none → t.resetAt = none
  some  : ∀ k, s.resetAt = some k → es.length ≤ k ∧ t.resetAt = some (k - es.length)

theorem Runs.refl {s t : State} (h : Kept s t) (ht : t.trace = s.trace) (hr : t.resetAt = s.resetAt) : Runs s [] t :=
  ⟨h, by simp [ht], fun h => by rw [hr, h], fun k h => by simp [hr, h]⟩

theorem Runs.trans {s t u : State} {es fs : List Event} (h : Runs s es t) (h' : Runs t fs u) : Runs s (es ++ fs) u where
  kept  := h.kept.trans h'.kept
  trace := by rw [h'.trace, h.trace, List.append_assoc]
  none  := fun hn => h'.none (h.none hn)
  some  := fun k hk => by
    obtain ⟨h1, h2⟩ := h.some k hk
    obtain ⟨h3, h4⟩ := h'.some _ h2
    exact ⟨by simp; omega, by rw [h4]; simp; omega⟩

/-- What a piece of an operation started in `s` can come to. -/
def Counted {α : Type} (s : State) : Flow α → Prop
  | .on _ t  => ∃ es, Runs s es t
  | .stop t  => ∃ es u, Runs s es u ∧ s.resetAt = some es.length ∧ t = systemReset u
  | .fault _ => True

theorem Counted.bind {α β : Type} {s : State} {x : Flow α} {k : α → State → Flow β} (hx : Counted s x)
    (hk : ∀ a t, Counted t (k a t)) : Counted s (x.bind k) := by
  cases x with
  | fault f => trivial
  | stop t => exact hx
  | on a t =>
    obtain ⟨es, he⟩ := hx
    have := hk a t
    rw [bind_on]
    cases hy : k a t with
    | fault f => trivial
    | on b u =>
      rw [hy] at this
      obtain ⟨fs, hf⟩ := this
      exact ⟨_, he.trans hf⟩
    | stop v =>
      rw [hy] at this
      obtain ⟨fs, u, hf, hr, rfl⟩ := this
      refine ⟨_, u, he.trans hf, ?_, rfl⟩
      cases hs : s.resetAt with
      | none => rw [he.none hs] at hr; cases hr
      | some k =>
        obtain ⟨h1, h2⟩ := he.some k hs
        rw [h2] at hr
        have : k - es.length = fs.length := Option.some.inj hr
        simp; omega

/-- A piece that starts from a state with some plain fields changed. -/
theorem Counted.of_eq {α : Type} {s s' : State} {x : Flow α} (h : Counted s' x) (hk : Kept s s')
    (ht : s'.trace = s.trace) (hr : s'.resetAt = s.resetAt) : Counted s x := by
  have h0 := Runs.refl hk ht hr
  cases x with
  | fault f => trivial
  | on a t => obtain ⟨es, he⟩ := h; exact ⟨_, h0.trans he⟩
  | stop t =>
    obtain ⟨es, u, he, hre, rfl⟩ := h
    exact ⟨es, u, by simpa using h0.trans he, by rw [← hr, hre], rfl⟩

theorem counted_on {α : Type} (a : α) {s t : State} (h : Kept s t) (ht : t.trace = s.trace) (hr : t.resetAt = s.resetAt) :
    Counted s (.on a t) := ⟨[], Runs.refl h ht hr⟩

theorem counted_same {α : Type} (a : α) (s : State) : Counted s (.on a s) := counted_on a (Kept.refl s) rfl rfl

theorem counted_event {α : Type} (a : α) (r : Radio) (e : Event) (s : State) :
    Counted s (unlessReset s (.on a (logEvent r e s))) := by
  unfold unlessReset
  split
  next h => exact ⟨[], s, Runs.refl (Kept.refl s) rfl rfl, h, rfl⟩
  next h =>
    refine ⟨[e], ⟨rfl, rfl, rfl, rfl, rfl, rfl, id⟩, rfl, fun hn => by simp [hn], fun k hk => ?_⟩
    have : k ≠ 0 := fun h0 => h (by rw [hk, h0])
    exact ⟨by simp; omega, by simp [hk]⟩

theorem counted_emit (e : Event) (s : State) : Counted s (emit e s) := counted_event () _ e s

theorem counted_xferKeep (o : Byte) (n : Nat) (s : State) : Counted s (xferKeep o n s) := counted_event _ _ _ s

theorem counted_readIrq (s : State) : Counted s (readIrq s) := counted_event _ _ _ s

theorem counted_xferN : ∀ (d : List Byte) (s : State), Counted s (xferN d s)
  | [], s => counted_same () s
  | _ :: d, s => (counted_emit _ s).bind fun _ t => counted_xferN d t

theorem counted_xferKeepN (n : Nat) : ∀ (d : List Byte) (s : State), Counted s (xferKeepN n d s)
  | [], s => counted_same [] s
  | _ :: d, s => (counted_xferKeep _ n s).bind fun _ t => (counted_xferKeepN n d t).bind fun _ t => counted_same _ t

theorem counted_readField {α : Type} (f : Field) (v : Option α) (s : State) : Counted s (readField f v s) := by
  cases v with
  | none => trivial
  | some a => exact counted_same a s

theorem counted_readFrame (cmd : Byte) (n : Nat) (s : State) : Counted s (readFrame cmd n s) :=
  (counted_emit _ s).bind fun _ t => (counted_emit _ t).bind fun _ t => (counted_emit _ t).bind fun _ t =>
    (counted_xferKeepN _ _ t).bind fun _ t => (counted_emit _ t).bind fun _ t => counted_same _ t

theorem counted_writeFrame (cmd : Byte) (d : List Byte) (s : State) : Counted s (writeFrame cmd d s) :=
  (counted_emit _ s).bind fun _ t => (counted_emit _ t).bind fun _ t => (counted_emit _ t).bind fun _ t =>
    (counted_xferN _ t).bind fun _ t => counted_emit _ t

theorem counted_command (cmd : Byte) (s : State) : Counted s (command cmd s) :=
  (counted_emit _ s).bind fun _ t => (counted_emit _ t).bind fun _ t => counted_emit _ t

theorem counted_regRead (a : Byte) (s : State) : Counted s (regRead a s) :=
  (counted_emit _ s).bind fun _ t => (counted_emit _ t).bind fun _ t => (counted_emit _ t).bind fun _ t =>
    (counted_xferKeep _ _ t).bind fun _ t => (counted_emit _ t).bind fun _ t => counted_same _ t

theorem counted_regWrite (a v : Byte) (s : State) : Counted s (regWrite a v s) := counted_writeFrame _ _ s

theorem counted_regWriteN (a : Byte) (d : List Byte) (s : State) : Counted s (regWriteN a d s) := counted_writeFrame _ _ s

theorem counted_clearStatus (m : Byte) (s : State) : Counted s (clearStatus m s) := counted_regWrite _ _ s

theorem counted_readStatus (s : State) : Counted s (readStatus s) := counted_regRead _ s

theorem counted_writeConfig (v : Byte) (s : State) : Counted s (writeConfig v s) :=
  (counted_regWrite _ v { s with shadow := some v }).of_eq ⟨rfl, rfl, rfl, rfl, rfl, rfl, id⟩ rfl rfl

theorem counted_initBody (s : State) : Counted s (
    (initPins s).bind fun _ s => (initRegisters s).bind fun _ s => (initFinish s).bind fun _ s =>
      Flow.on Response.done { s with initialized := true }) := by
  refine Counted.bind ((counted_emit _ s).bind fun _ t => counted_emit _ t) fun _ t => ?_
  refine Counted.bind ?_ fun _ t => Counted.bind ?_ fun _ t => counted_on _ ⟨rfl, rfl, rfl, rfl, rfl, rfl, id⟩ rfl rfl
  · exact (counted_regWrite _ _ t).bind fun _ t => (counted_regWrite _ _ t).bind fun _ t =>
      (counted_regWrite _ _ t).bind fun _ t => (counted_regWrite _ _ t).bind fun _ t =>
      (counted_regWrite _ _ t).bind fun _ t => (counted_regWrite _ _ t).bind fun _ t =>
      (counted_regWriteN _ _ t).bind fun _ t => counted_regWrite _ _ t
  · exact (counted_clearStatus _ t).bind fun _ t => counted_writeConfig _ t

theorem counted_txFlushing (s : State) : Counted s (txFlushing s) := by
  refine Counted.bind ((counted_command _ { s with phase := .flushing }).of_eq ⟨rfl, rfl, rfl, rfl, rfl, rfl, id⟩ rfl rfl)
    fun _ t => (counted_command _ t).bind fun _ t => (counted_clearStatus _ t).bind fun _ t => ?_
  split
  · exact counted_regWrite _ _ t
  · exact counted_same _ t

theorem counted_txLoading (n : Nat) (b : Buf) (s : State) : Counted s (txLoading n b s) :=
  Counted.bind
    ((counted_regWriteN _ _ { s with phase := .addressingAndLoading }).of_eq ⟨rfl, rfl, rfl, rfl, rfl, rfl, id⟩ rfl rfl)
    fun _ t => (counted_regWriteN _ _ t).bind fun _ t => counted_writeFrame _ _ t

theorem counted_txStarting (s : State) : Counted s (txStarting s) :=
  Counted.bind
    ((counted_readField .shadow s.shadow { s with phase := .transmitting }).of_eq ⟨rfl, rfl, rfl, rfl, rfl, rfl, id⟩ rfl rfl)
    fun _ t => (counted_writeConfig _ t).bind fun _ t => counted_emit _ t

theorem counted_leavePoll (o : TxOutcome) (s : State) : Counted s (leavePoll o s) :=
  counted_on _ ⟨rfl, rfl, rfl, rfl, rfl, rfl, id⟩ rfl rfl

theorem counted_pollDecide (st : Byte) (s : State) : Counted s (pollDecide st s) := by
  unfold pollDecide
  split
  · exact (counted_clearStatus _ s).bind fun _ t => counted_leavePoll _ t
  · split
    · exact (counted_clearStatus _ s).bind fun _ t => counted_leavePoll _ t
    · refine (counted_emit _ s).bind fun _ t => (counted_readField _ _ t).bind fun b t => ?_
      dsimp only
      split
      · exact (counted_leavePoll _ _).of_eq ⟨rfl, rfl, rfl, rfl, rfl, rfl, id⟩ rfl rfl
      · exact counted_on _ ⟨rfl, rfl, rfl, rfl, rfl, rfl, id⟩ rfl rfl

theorem counted_pollOnce (s : State) : Counted s (pollOnce s) := by
  refine (counted_readStatus s).bind fun b t => ?_
  refine Counted.of_eq (s' := { t with status := some b }) ?_ ⟨rfl, rfl, rfl, rfl, rfl, rfl, id⟩ rfl rfl
  exact (counted_readField _ _ _).bind fun st u => counted_pollDecide st u

theorem counted_pollLoop : ∀ (fuel : Nat) (s : State), Counted s (pollLoop fuel s)
  | 0, _ => trivial
  | fuel + 1, s => (counted_pollOnce s).bind fun left t => by
      cases left
      · exact counted_pollLoop fuel t
      · exact counted_same _ t

theorem counted_txPolling (s : State) : Counted s (txPolling s) :=
  (counted_pollLoop _ { s with phase := .polling, budget := some (s.cfg.pollBudgetMs : Int) }).of_eq
    ⟨rfl, rfl, rfl, rfl, rfl, rfl, id⟩ rfl rfl

theorem counted_txCleanup (s : State) : Counted s (txCleanup s) :=
  (counted_readField _ _ s).bind fun o t =>
    Counted.bind ((counted_emit _ { t with phase := .done o, budget := none }).of_eq ⟨rfl, rfl, rfl, rfl, rfl, rfl, id⟩ rfl rfl)
      fun _ t => (counted_readField _ _ t).bind fun _ t => counted_writeConfig _ t

theorem counted_txReturn (s : State) : Counted s (txReturn s) :=
  (counted_readField _ _ s).bind fun _ _ => counted_on _ ⟨rfl, rfl, rfl, rfl, rfl, rfl, id⟩ rfl rfl

/-- What a concluded operation is: its fault, a state after some events with the result answered, or a reset after
exactly as many events as the coming reset allowed. -/
theorem conclude_cases {s t : State} {x : Flow Response} (hx : Counted s x) (h : conclude x = .next t) :
    (∃ es u p, Runs s es u ∧ t = respond p u) ∨
    (∃ es u, Runs s es u ∧ s.resetAt = some es.length ∧ t = systemReset u) := by
  cases x with
  | fault f => simp [conclude] at h
  | on p u => obtain ⟨es, he⟩ := hx; exact .inl ⟨es, u, p, he, by simpa [conclude] using h.symm⟩
  | stop u =>
    obtain ⟨es, v, hv, hr, rfl⟩ := hx
    exact .inr ⟨es, v, hv, hr, by simpa [conclude] using h.symm⟩

/-- What an executed instruction is, when it answers a next state: refused with one mark, answered after some events, or
reset. -/
def Executed (i : Instr) (s t : State) : Prop :=
  (∃ k, failedCheck i s = some k ∧ t = refuse k (.op i) s) ∨
  (∃ es u p, Runs s es u ∧ t = respond p u) ∨
  (∃ es u, Runs s es u ∧ s.resetAt = some es.length ∧ t = systemReset u)

theorem hostOp_executed {op : HostOp} {i : Instr} {s t : State} {body : State → Flow Response}
    (hc : ∀ s, Counted s (body s)) (h : hostOp op i s body = .next t) : Executed i s t := by
  unfold hostOp at h
  split at h
  · cases h
  · split at h
    next k hk => cases h; exact .inl ⟨k, hk, rfl⟩
    next =>
      refine .inr (conclude_cases ?_ h)
      refine Counted.of_eq (s' := accept op s) ?_ ⟨rfl, rfl, rfl, rfl, rfl, rfl, id⟩ rfl rfl
      exact (hc _).bind fun _ _ => counted_on _ ⟨rfl, rfl, rfl, rfl, rfl, rfl, id⟩ rfl rfl

theorem wireOp_executed {i : Instr} {s t : State} {body : State → Flow Response}
    (hc : ∀ s, Counted s (body s)) (h : wireOp s body = .next t) : Executed i s t :=
  .inr (conclude_cases (x := (body s).bind fun r t => .on r { t with stepIndex := s.stepIndex })
    ((hc s).bind fun _ _ => counted_on _ ⟨rfl, rfl, rfl, rfl, rfl, rfl, id⟩ rfl rfl) h)

/-- Every instruction that answers a next state is refused, answered or reset. -/
theorem exec_executed {i : Instr} {s t : State} (h : exec i s = .next t) : Executed i s t := by
  cases i with
  | rRegister addr n =>
    simp only [exec, execRRegister] at h
    refine wireOp_executed (fun s => ?_) h
    exact (counted_readFrame _ _ s).bind fun _ t => counted_same _ t
  | wRegister addr d =>
    simp only [exec, execWRegister] at h
    refine wireOp_executed (fun s => ?_) h
    exact (counted_writeFrame _ _ s).bind fun _ t => counted_same _ t
  | rRxPayload =>
    simp only [exec, execRRxPayload] at h
    refine wireOp_executed (fun s => ?_) h
    exact (counted_readFrame _ _ s).bind fun _ t => counted_same _ t
  | wTxPayload d =>
    simp only [exec, execWTxPayload] at h
    refine wireOp_executed (fun s => ?_) h
    exact (counted_writeFrame _ _ s).bind fun _ t => counted_same _ t
  | flushTx =>
    simp only [exec, execFlushTx] at h
    refine wireOp_executed (fun s => ?_) h
    exact (counted_command _ s).bind fun _ t => counted_same _ t
  | flushRx =>
    simp only [exec, execFlushRx] at h
    refine wireOp_executed (fun s => ?_) h
    exact (counted_command _ s).bind fun _ t => counted_same _ t
  | nop =>
    simp only [exec, execNop] at h
    refine wireOp_executed (fun s => ?_) h
    exact (counted_xferKeep _ _ s).bind fun _ t => counted_same _ t
  | init =>
    simp only [exec, execInit] at h
    exact hostOp_executed counted_initBody h
  | readReg a =>
    simp only [exec, execReadReg] at h
    refine hostOp_executed (fun s => ?_) h
    exact (counted_regRead _ s).bind fun _ t => counted_same _ t
  | writeReg a v =>
    simp only [exec, execWriteReg] at h
    refine hostOp_executed (fun s => ?_) h
    exact (counted_regWrite _ _ s).bind fun _ t => counted_same _ t
  | readRegMulti a n =>
    simp only [exec, execReadRegMulti] at h
    refine hostOp_executed (fun s => ?_) h
    exact (counted_readFrame _ _ s).bind fun _ t => counted_same _ t
  | writeRegMulti a n b =>
    simp only [exec, execWriteRegMulti] at h
    refine hostOp_executed (fun s => ?_) h
    exact (counted_regWriteN _ _ s).bind fun _ t => counted_same _ t
  | transmit n b =>
    simp only [exec, execTransmit] at h
    refine hostOp_executed (fun s => ?_) h
    exact (counted_txFlushing s).bind fun _ t => (counted_txLoading _ _ t).bind fun _ t =>
      (counted_txStarting t).bind fun _ t => (counted_txPolling t).bind fun _ t => (counted_txCleanup t).bind fun _ t =>
      counted_txReturn t
  | receive n b =>
    simp only [exec, execReceive] at h
    refine hostOp_executed (fun s => ?_) h
    refine (counted_readFrame _ _ s).bind fun d t => ?_
    refine Counted.bind ((counted_clearStatus _ { t with mem := bufWrite t.mem b d }).of_eq
      ⟨rfl, rfl, rfl, rfl, rfl, rfl, bufWrite_wf b d⟩ rfl rfl) fun _ t => ?_
    refine Counted.bind ?_ fun _ t => counted_same _ t
    split
    · exact counted_command _ t
    · exact counted_same _ t
  | checkDataReady =>
    simp only [exec, execCheckDataReady] at h
    refine hostOp_executed (fun s => ?_) h
    split
    · exact (counted_readIrq s).bind fun _ t => counted_same _ t
    · exact (counted_readStatus s).bind fun _ t => counted_same _ t

end Sys2Proof.Laws
end

