-- ==== Sys2Proof/Laws/Stages.lean ====
section
/-! SUPPORT. What the stages of `INIT`, `TRANSMIT` and `RECEIVE` do, one lemma each, a coming reset of the system included:
the state each leaves is written `ran es r s` of Laws/Ops.lean, with the plain fields it writes. -/

namespace Sys2Proof.Laws

open Sys2Proof.Machine Sys2Proof.Safety

/-- The state after events whose answers are not kept. -/
def after (es : List Event) (s : State) : State := ran es (hearAll s.cfg es s.radio) s

section
variable (es fs : List Event) (s : State)

@[simp] theorem after_cfg : (after es s).cfg = s.cfg := rfl
@[simp] theorem after_mem : (after es s).mem = s.mem := rfl
@[simp] theorem after_shadow : (after es s).shadow = s.shadow := rfl
@[simp] theorem after_budget : (after es s).budget = s.budget := rfl
@[simp] theorem after_outcome : (after es s).outcome = s.outcome := rfl
@[simp] theorem after_radio : (after es s).radio = hearAll s.cfg es s.radio := rfl
@[simp] theorem after_resetAt : (after es s).resetAt = s.resetAt.map (· - es.length) := rfl

@[simp] theorem after_after : after fs (after es s) = after (es ++ fs) s := by
  simp only [after, ran_cfg, ran_radio, ran_ran, hearAll_append]
end

/-- A plain field written after some events, or before them. -/
theorem after_setShadow (es : List Event) (s : State) (v : Option Byte) :
    { after es s with shadow := v } = after es { s with shadow := v } := rfl
theorem after_setInitialized (es : List Event) (s : State) (v : Bool) :
    { after es s with initialized := v } = after es { s with initialized := v } := rfl

theorem does_after {s t u : State} (h : u = t) (hr : t.resetAt.isSome = s.resetAt.isSome := by simp) :
    Does s (.on () u) fun _ v => v = t := does_on (by rw [h, hr]) h

theorem regWrite_after (a v : Byte) (s : State) :
    Does s (regWrite a v s) fun _ t => t = after (regWriteTrace s.cfg a [v]) s := regWrite_does a v s

theorem regWriteN_after (a : Byte) (d : List Byte) (s : State) :
    Does s (regWriteN a d s) fun _ t => t = after (regWriteTrace s.cfg a d) s := regWriteN_does a d s

theorem emit_after (e : Event) (s : State) : Does s (emit e s) fun _ t => t = after [e] s := emit_does e s

theorem command_after (cmd : Byte) (s : State) : Does s (command cmd s) fun _ t => t = after (commandTrace cmd) s :=
  command_does cmd s

theorem writeFrame_after (cmd : Byte) (d : List Byte) (s : State) :
    Does s (writeFrame cmd d s) fun _ t => t = after (writeTrace cmd d) s := writeFrame_does cmd d s

theorem writeConfig_after (v : Byte) (s : State) : Does s (writeConfig v s) fun _ t =>
    t = after (regWriteTrace s.cfg s.cfg.reg.config [v]) { s with shadow := some v } := writeConfig_does v s

/-- The events of steps 2 to 8 of `INIT` (R152 to R158). -/
def initRegistersTrace (c : Cfg) : List Event :=
  regWriteTrace c c.reg.enAa [bit c.bits.enaaP0] ++ regWriteTrace c c.reg.setupRetr [setupRetrVal c]
    ++ regWriteTrace c c.reg.enRxaddr [bit c.bits.erxP0] ++ regWriteTrace c c.reg.setupAw [c.bits.aw5Bytes]
    ++ regWriteTrace c c.reg.rfCh [c.channel] ++ regWriteTrace c c.reg.rfSetup [c.rfSetupVal]
    ++ regWriteTrace c c.reg.rxAddrP0 c.rxAddr.bytes ++ regWriteTrace c c.reg.rxPwP0 [payloadLenVal c]

/-- The events of steps 9 and 10 of `INIT` (R159, R160). -/
def initFinishTrace (c : Cfg) : List Event :=
  regWriteTrace c c.reg.status [mAll c] ++ regWriteTrace c c.reg.config [configIdle c]

theorem initTrace_eq (c : Cfg) :
    initTrace c = [.ce .low, .csn .deasserted] ++ initRegistersTrace c ++ initFinishTrace c := by
  simp only [initTrace, initRegistersTrace, initFinishTrace, List.append_assoc]

/-- Step 1 of `INIT` (R151). -/
theorem initPins_does (s : State) : Does s (initPins s) fun _ t => t = after [.ce .low, .csn .deasserted] s :=
  (emit_after _ s).bind fun _ _ h1 => (emit_after _ _).mono fun _ _ h2 => by
    subst h1 h2
    simp

/-- Steps 2 to 8 of `INIT` (R152 to R158). -/
theorem initRegisters_does (s : State) : Does s (initRegisters s) fun _ t => t = after (initRegistersTrace s.cfg) s :=
  (regWrite_after _ _ _).bind fun _ _ h1 => (regWrite_after _ _ _).bind fun _ _ h2 =>
  (regWrite_after _ _ _).bind fun _ _ h3 => (regWrite_after _ _ _).bind fun _ _ h4 =>
  (regWrite_after _ _ _).bind fun _ _ h5 => (regWrite_after _ _ _).bind fun _ _ h6 =>
  (regWriteN_after _ _ _).bind fun _ _ h7 => (regWrite_after _ _ _).mono fun _ _ h8 => by
    subst h1 h2 h3 h4 h5 h6 h7 h8
    simp only [after_cfg, after_after, initRegistersTrace]

/-- Steps 9 and 10 of `INIT` (R159, R160). -/
theorem initFinish_does (s : State) : Does s (initFinish s) fun _ t =>
    t = after (initFinishTrace s.cfg) { s with shadow := some (configIdle s.cfg) } :=
  (regWrite_after _ _ _).bind fun _ _ h1 => (writeConfig_after _ _).mono fun _ _ h2 => by
    subst h1 h2
    exact after_after _ _ { s with shadow := some (configIdle s.cfg) }

/-- The body of `INIT` (R150): its events, the shadow, and `initialized`. -/
theorem initBody_does (s : State) : Does s
    ((initPins s).bind fun _ s => (initRegisters s).bind fun _ s => (initFinish s).bind fun _ s =>
      Flow.on Response.done { s with initialized := true }) fun p t =>
    p = .done ∧ t = after (initTrace s.cfg) { s with shadow := some (configIdle s.cfg), initialized := true } :=
  (initPins_does s).bind fun _ _ h1 => (initRegisters_does _).bind fun _ _ h2 => (initFinish_does _).bind fun _ _ h3 =>
    does_on rfl ⟨rfl, by
      subst h1 h2 h3
      rw [after_setInitialized, after_after, after_setShadow, after_setInitialized, after_after, initTrace_eq]
      simp only [after_cfg]⟩

/-- Flushing (R171 to R174). -/
theorem txFlushing_does (s : State) : Does s (txFlushing s) fun _ t =>
    t = after (flushingTrace s.cfg) { s with phase := .flushing } := by
  refine Does.bind ((command_after _ { s with phase := .flushing }).of_eq rfl) fun _ _ h1 =>
    (command_after _ _).bind fun _ _ h2 => (regWrite_after _ _ _).bind fun _ _ h3 => ?_
  have hc : ∀ t, t = after (commandTrace s.cfg.cmd.flushTx ++ commandTrace s.cfg.cmd.flushRx
      ++ regWriteTrace s.cfg s.cfg.reg.status [mTxDs s.cfg ||| mMaxRt s.cfg]) { s with phase := .flushing } →
      Does t (if t.cfg.defensive then regWrite t.cfg.reg.enAa (bit t.cfg.bits.enaaP0) t else .on () t) fun _ t =>
        t = after (flushingTrace s.cfg) { s with phase := .flushing } := by
    rintro t rfl
    unfold flushingTrace
    split
    next hd =>
      rw [if_pos (by exact hd)]
      refine (regWrite_after _ _ _).mono fun _ _ h4 => ?_
      subst h4
      exact after_after _ _ _
    next hd =>
      rw [if_neg (by exact hd), List.append_nil]
      exact does_after rfl rfl
  exact hc _ (by subst h1 h2 h3; simp only [after_cfg, after_after])

/-- AddressingAndLoading (R175, R176). -/
theorem txLoading_does (n : Nat) (b : Buf) (s : State) : Does s (txLoading n b s) fun _ t =>
    t = after (loadingTrace s.cfg (bufRead s.mem b n)) { s with phase := .addressingAndLoading } := by
  refine Does.bind ((regWriteN_after _ _ { s with phase := .addressingAndLoading }).of_eq rfl) fun _ _ h1 =>
    (regWriteN_after _ _ _).bind fun _ _ h2 => (writeFrame_after _ _ _).mono fun _ _ h3 => ?_
  subst h1 h2 h3
  simp only [after_cfg, after_after, after_mem, loadingTrace]

/-- Transmitting (R177, R178), the shadow being written. -/
theorem txStarting_does {s : State} {v : Byte} (hv : s.shadow = some v) : Does s (txStarting s) fun _ t =>
    t = after (startingTrace s.cfg v) { s with phase := .transmitting, shadow := some (primRxOff s.cfg v) } := by
  rw [txStarting, hv, readField_some, bind_on]
  refine Does.bind ((writeConfig_after _ { s with phase := .transmitting }).of_eq rfl) fun _ _ h1 =>
    (emit_after _ _).mono fun _ _ h2 => ?_
  subst h1 h2
  exact after_after _ _ _

/-- Cleanup (R186, R180), the outcome and the shadow being written. -/
theorem txCleanup_does {s : State} {o : TxOutcome} {v : Byte} (ho : s.outcome = some o) (hv : s.shadow = some v) :
    Does s (txCleanup s) fun _ t =>
      t = after (cleanupTrace s.cfg v) { s with phase := .done o, shadow := some (primRxOn s.cfg v), budget := none } := by
  rw [txCleanup, ho, readField_some, bind_on]
  refine Does.bind ((emit_after _ { s with phase := .done o, budget := none }).of_eq rfl) fun _ t h1 => ?_
  have hv' : t.shadow = some v := by rw [h1]; exact hv
  rw [hv', readField_some, bind_on]
  refine (writeConfig_after _ _).mono fun _ _ h2 => ?_
  subst h1 h2
  rw [after_setShadow, after_after]
  simp only [after_cfg, cleanupTrace, ho]

/-- The outcome a poll iteration leaves the loop with (R181, R226), `left` being what it leaves of the budget. -/
def turnOutcome (c : Cfg) (st : Byte) (left : Int) : Option TxOutcome :=
  if maxRtSet c st then some .failed
  else if txDsSet c st then some .success
  else if left ≤ 0 then some .timedOut else none

/-- The budget after a poll iteration: lowered where neither flag was shown (R184). -/
def turnBudget (c : Cfg) (st : Byte) (b : Int) : Int :=
  if maxRtSet c st then b else if txDsSet c st then b else b - c.pollQuantumMs

/-- The decision of one poll iteration (R181 to R185). -/
theorem pollDecide_does {s : State} {b : Int} (st : Byte) (hb : s.budget = some b) :
    Does s (pollDecide st s) fun left t =>
      left = (turnOutcome s.cfg st (b - s.cfg.pollQuantumMs)).isSome ∧
      t = after ((pollOnceTrace s.cfg st).drop 5) { s with
        budget := some (turnBudget s.cfg st b)
        outcome := (turnOutcome s.cfg st (b - s.cfg.pollQuantumMs)).or s.outcome } := by
  have hl : ∀ es, (regReadTrace s.cfg s.cfg.reg.status [st] ++ es).drop 5 = es := fun es => rfl
  unfold pollDecide pollOnceTrace turnOutcome turnBudget
  rw [hl]
  by_cases hm : maxRtSet s.cfg st = true
  · simp only [hm, if_true]
    refine (regWrite_after _ _ _).bind fun _ _ h => does_on (by rw [h]) ⟨rfl, ?_⟩
    rw [h, ← hb]
    rfl
  · by_cases ht : txDsSet s.cfg st = true
    · simp only [hm, ht, if_true, Bool.false_eq_true, if_false]
      refine (regWrite_after _ _ _).bind fun _ _ h => does_on (by rw [h]) ⟨rfl, ?_⟩
      rw [h, ← hb]
      rfl
    · simp only [hm, ht, Bool.false_eq_true, if_false]
      refine (emit_after _ _).bind fun _ t h => ?_
      have hb' : t.budget = some b := by rw [h]; exact hb
      have hc : t.cfg = s.cfg := by rw [h]; rfl
      rw [hb', readField_some, bind_on, hc]
      split
      next hz => exact does_on rfl ⟨by simp, by rw [h]; rfl⟩
      next hz => exact does_on rfl ⟨by simp, by rw [h]; rfl⟩

/-- One poll iteration (R181). -/
theorem pollOnce_does {s : State} {b : Int} (hb : s.budget = some b) : Does s (pollOnce s) fun left t => ∃ st r,
    left = (turnOutcome s.cfg st (b - s.cfg.pollQuantumMs)).isSome ∧
    t = ran (pollOnceTrace s.cfg st) r { s with
      status := some st
      budget := some (turnBudget s.cfg st b)
      outcome := (turnOutcome s.cfg st (b - s.cfg.pollQuantumMs)).or s.outcome } := by
  refine (regRead_does _ s).bind fun st t h1 => ?_
  obtain ⟨r, h1⟩ := h1
  dsimp only
  rw [readField_some, bind_on]
  have hb' : t.budget = some b := by rw [h1]; exact hb
  have hc : t.cfg = s.cfg := by rw [h1]; rfl
  refine Does.of_eq ((pollDecide_does (s := { t with status := some st }) st hb').mono fun left u h => ?_) rfl
  simp only [hc] at h
  obtain ⟨hl, hu⟩ := h
  have hs : regReadTrace s.cfg s.cfg.reg.status [st] ++ (pollOnceTrace s.cfg st).drop 5 = pollOnceTrace s.cfg st := rfl
  subst h1
  refine ⟨st, hearAll s.cfg ((pollOnceTrace s.cfg st).drop 5) r, hl, ?_⟩
  rw [hu, ← hs]
  exact ran_ran (regReadTrace s.cfg s.cfg.reg.status [st]) r { s with
      status := some st
      budget := some (turnBudget s.cfg st b)
      outcome := (turnOutcome s.cfg st (b - s.cfg.pollQuantumMs)).or s.outcome } _ _

/-- `pollsEndIn` with `k` polls left. -/
def endsWithin (c : Cfg) (k : Nat) (sts : List Byte) : TxOutcome → Prop
  | .failed   => ∃ qs st, sts = qs ++ [st] ∧ (∀ q ∈ qs, noFlag c q) ∧ qs.length < k ∧ maxRtSet c st = true
  | .success  => ∃ qs st, sts = qs ++ [st] ∧ (∀ q ∈ qs, noFlag c q) ∧ qs.length < k ∧
      maxRtSet c st = false ∧ txDsSet c st = true
  | .timedOut => (∀ q ∈ sts, noFlag c q) ∧ sts.length = k

theorem pollsEndIn_iff (c : Cfg) (sts : List Byte) (o : TxOutcome) :
    pollsEndIn c sts o ↔ endsWithin c (maxPolls c) sts o := by cases o <;> rfl

/-- A poll that shows neither flag, before the others. -/
theorem endsWithin_cons {c : Cfg} {k : Nat} {sts : List Byte} {o : TxOutcome} {q : Byte} (hq : noFlag c q)
    (h : endsWithin c k sts o) : endsWithin c (k + 1) (q :: sts) o := by
  cases o with
  | success =>
    obtain ⟨qs, st, rfl, hn, hl, hf⟩ := h
    exact ⟨q :: qs, st, rfl, List.forall_mem_cons.mpr ⟨hq, hn⟩, by simp; omega, hf⟩
  | failed =>
    obtain ⟨qs, st, rfl, hn, hl, hf⟩ := h
    exact ⟨q :: qs, st, rfl, List.forall_mem_cons.mpr ⟨hq, hn⟩, by simp; omega, hf⟩
  | timedOut => exact ⟨List.forall_mem_cons.mpr ⟨hq, h.1⟩, by simp [h.2]⟩

/-- The poll loop with `k + 1` polls left in the budget (R12, R182). -/
theorem pollLoop_does : ∀ (k fuel : Nat) (s : State), 0 < s.cfg.pollQuantumMs → k + 1 ≤ fuel →
    s.budget = some (((k + 1) * s.cfg.pollQuantumMs : Nat) : Int) → Does s (pollLoop fuel s) fun _ t =>
      ∃ sts o r st b, endsWithin s.cfg (k + 1) sts o ∧ t = ran (pollTrace s.cfg sts) r
        { s with status := some st, budget := some b, outcome := some o }
  | k, 0, s, _, hf, _ => by omega
  | k, fuel + 1, s, hq, hf, hb => by
    rw [pollLoop]
    refine (pollOnce_does hb).bind fun left t h => ?_
    obtain ⟨st, r, hl, h⟩ := h
    have hone : pollTrace s.cfg [st] = pollOnceTrace s.cfg st := by simp [pollTrace]
    by_cases hm : maxRtSet s.cfg st = true
    · have ho : ∀ x, turnOutcome s.cfg st x = some .failed := fun x => by simp [turnOutcome, hm]
      simp only [ho, Option.some_or] at h
      rw [hl, ho]
      exact does_on rfl ⟨[st], .failed, r, _, _, ⟨[], st, rfl, by simp, by simp, hm⟩, by rw [hone]; exact h⟩
    by_cases ht : txDsSet s.cfg st = true
    · have ho : ∀ x, turnOutcome s.cfg st x = some .success := fun x => by simp [turnOutcome, hm, ht]
      simp only [ho, Option.some_or] at h
      rw [hl, ho]
      exact does_on rfl ⟨[st], .success, r, _, _, ⟨[], st, rfl, by simp, by simp, by simpa using hm, ht⟩,
        by rw [hone]; exact h⟩
    have hn : noFlag s.cfg st := ⟨by simpa using hm, by simpa using ht⟩
    have hbud : turnBudget s.cfg st (((k + 1) * s.cfg.pollQuantumMs : Nat) : Int) =
        ((k * s.cfg.pollQuantumMs : Nat) : Int) := by
      simp only [turnBudget, hm, ht, Bool.false_eq_true, if_false]
      push_cast
      ring
    have hdif : (((k + 1) * s.cfg.pollQuantumMs : Nat) : Int) - s.cfg.pollQuantumMs =
        ((k * s.cfg.pollQuantumMs : Nat) : Int) := by
      push_cast; ring
    rw [hbud, hdif] at h
    rw [hdif] at hl
    cases k with
    | zero =>
      have ho : turnOutcome s.cfg st ((0 * s.cfg.pollQuantumMs : Nat) : Int) = some .timedOut := by
        simp [turnOutcome, hm, ht]
      rw [ho] at h hl
      rw [hl]
      exact does_on rfl ⟨[st], .timedOut, r, _, _, ⟨by simpa using hn, rfl⟩, by rw [hone]; exact h⟩
    | succ k =>
      have ho : turnOutcome s.cfg st (((k + 1) * s.cfg.pollQuantumMs : Nat) : Int) = none := by
        have : 0 < (((k + 1) * s.cfg.pollQuantumMs : Nat) : Int) := by positivity
        simp only [turnOutcome, hm, ht]
        simp only [Bool.false_eq_true, if_false, if_neg (not_le.mpr this)]
      rw [ho, Option.none_or] at h
      rw [ho] at hl
      rw [hl]
      have hc : t.cfg = s.cfg := by rw [h]; rfl
      refine (pollLoop_does k fuel t (by rw [hc]; exact hq) (by omega) (by rw [h]; rfl)).mono fun _ u hu => ?_
      obtain ⟨sts, o, r', st', b', he, hu⟩ := hu
      rw [hc] at he hu
      refine ⟨st :: sts, o, r', st', b', endsWithin_cons hn he, ?_⟩
      have hcons : pollTrace s.cfg (st :: sts) = pollOnceTrace s.cfg st ++ pollTrace s.cfg sts := by simp [pollTrace]
      rw [hu, h, hcons]
      exact ran_ran (pollOnceTrace s.cfg st) r { s with status := some st', budget := some b', outcome := some o } _ _

/-- Polling (R179, R182), under a budget that is a positive multiple of the quantum (R12). -/
theorem txPolling_does {s : State} (hb : 0 < s.cfg.pollBudgetMs) (hq : 0 < s.cfg.pollQuantumMs)
    (hd : s.cfg.pollQuantumMs ∣ s.cfg.pollBudgetMs) : Does s (txPolling s) fun _ t =>
      ∃ sts o r st b, pollsEndIn s.cfg sts o ∧ t = ran (pollTrace s.cfg sts) r
        { s with phase := .polling, status := some st, budget := some b, outcome := some o } := by
  obtain ⟨m, hm⟩ := hd
  have hmp : maxPolls s.cfg = m := by simp [maxPolls, hm, hq]
  obtain ⟨k, rfl⟩ : ∃ k, m = k + 1 := ⟨m - 1, by rcases m with _ | m <;> simp_all⟩
  refine Does.of_eq ((pollLoop_does k (s.cfg.pollBudgetMs + 1)
    { s with phase := .polling, budget := some (s.cfg.pollBudgetMs : Int) } hq (by
      have := Nat.le_mul_of_pos_left (k + 1) hq
      omega) (by simp only; rw [hm, Nat.mul_comm])).mono fun _ t h => ?_) rfl
  obtain ⟨sts, o, r, st, b, he, h⟩ := h
  exact ⟨sts, o, r, st, b, (pollsEndIn_iff _ _ _).mpr (by rw [hmp]; exact he), h⟩

/-- The body of `TRANSMIT` (R170, R171). -/
theorem transmitBody_does {s : State} {v : Byte} (n : Nat) (buf : Buf) (hv : s.shadow = some v)
    (hb : 0 < s.cfg.pollBudgetMs) (hq : 0 < s.cfg.pollQuantumMs) (hd : s.cfg.pollQuantumMs ∣ s.cfg.pollBudgetMs) :
    Does s ((txFlushing s).bind fun _ s => (txLoading n buf s).bind fun _ s => (txStarting s).bind fun _ s =>
      (txPolling s).bind fun _ s => (txCleanup s).bind fun _ s => txReturn s) fun p t =>
    ∃ sts o r, pollsEndIn s.cfg sts o ∧ p = .outcome o ∧
      t = ran (transmitTrace s.cfg (bufRead s.mem buf n) v sts) r { s with
        shadow := some (primRxOn s.cfg (primRxOff s.cfg v))
        phase := .idle
        status := none
        budget := none
        outcome := none } := by
  refine (txFlushing_does s).bind fun _ t1 h1 => (txLoading_does n buf t1).bind fun _ t2 h2 => ?_
  have hv2 : t2.shadow = some v := by rw [h2, h1]; exact hv
  refine (txStarting_does hv2).bind fun _ t3 h3 => ?_
  have hc3 : t3.cfg = s.cfg := by rw [h3, h2, h1]; rfl
  refine (txPolling_does (by rw [hc3]; exact hb) (by rw [hc3]; exact hq) (by rw [hc3]; exact hd)).bind fun _ t4 h4 => ?_
  obtain ⟨sts, o, r, st, b, he, h4⟩ := h4
  have hv4 : t4.shadow = some (primRxOff t2.cfg v) := by rw [h4, h3]; rfl
  refine (txCleanup_does (s := t4) (o := o) (by rw [h4]; rfl) hv4).bind fun _ t5 h5 => ?_
  have ho5 : t5.outcome = some o := by rw [h5, h4]; rfl
  rw [txReturn, ho5, readField_some, bind_on]
  rw [hc3] at he h4
  refine does_on rfl ⟨sts, o, hearAll s.cfg (cleanupTrace s.cfg (primRxOff s.cfg v)) r, he, rfl, ?_⟩
  subst h1
  have h2' : t2 = after (flushingTrace s.cfg ++ loadingTrace s.cfg (bufRead s.mem buf n))
      { s with phase := .addressingAndLoading } := by
    rw [h2]; exact after_after _ _ { s with phase := .addressingAndLoading }
  clear h2
  subst h2'
  have h3' : t3 = after (flushingTrace s.cfg ++ loadingTrace s.cfg (bufRead s.mem buf n) ++ startingTrace s.cfg v)
      { s with phase := .transmitting, shadow := some (primRxOff s.cfg v) } := by
    rw [h3]; exact after_after _ _ { s with phase := .transmitting, shadow := some (primRxOff s.cfg v) }
  clear h3
  subst h3'
  have h4' : t4 = ran (flushingTrace s.cfg ++ loadingTrace s.cfg (bufRead s.mem buf n) ++ startingTrace s.cfg v
      ++ pollTrace s.cfg sts) r { s with
        phase := .polling
        shadow := some (primRxOff s.cfg v)
        status := some st
        budget := some b
        outcome := some o } := by
    rw [h4]
    exact ran_ran _ _ { s with
        phase := .polling
        shadow := some (primRxOff s.cfg v)
        status := some st
        budget := some b
        outcome := some o } _ _
  clear h4
  subst h4'
  rw [h5]
  exact ran_ran (flushingTrace s.cfg ++ loadingTrace s.cfg (bufRead s.mem buf n) ++ startingTrace s.cfg v
      ++ pollTrace s.cfg sts) r { s with
        shadow := some (primRxOn s.cfg (primRxOff s.cfg v))
        phase := .idle
        status := none
        budget := none
        outcome := none } _ _

@[simp] theorem ceAfter_ce (v : Level) (w : Option Level) : ceAfter (.ce v) w = some v := rfl
@[simp] theorem csnAfter_ce (v : Level) (w : Option Select) : csnAfter (.ce v) w = w := rfl

section
variable (c : Cfg)

theorem initTrace_length : (initTrace c).length = 56 := by simp [initTrace, regWriteTrace, Addr.bytes]

/-- `INIT` leaves the pins at their idle levels (R151). -/
theorem initTrace_csn (v : Option Select) : (initTrace c).foldl (fun v e => csnAfter e v) v = some .deasserted := by
  simp [initTrace, regWriteTrace]
theorem initTrace_ce (v : Option Level) : (initTrace c).foldl (fun v e => ceAfter e v) v = some .low := by
  simp only [initTrace, regWriteTrace, List.foldl_append, writeTrace_ce]
  rfl

/-- `TRANSMIT` leaves chip-select deasserted and chip-enable low (R186). -/
theorem transmitTrace_csn (p : List Byte) (b : Byte) (sts : List Byte) (v : Option Select) :
    (transmitTrace c p b sts).foldl (fun v e => csnAfter e v) v = some .deasserted := by
  simp [transmitTrace, cleanupTrace, regWriteTrace]
theorem transmitTrace_ce (p : List Byte) (b : Byte) (sts : List Byte) (v : Option Level) :
    (transmitTrace c p b sts).foldl (fun v e => ceAfter e v) v = some .low := by
  simp only [transmitTrace, cleanupTrace, regWriteTrace, List.foldl_append, writeTrace_ce]
  rfl

/-- `RECEIVE` leaves chip-select deasserted and chip-enable alone. -/
theorem receiveTrace_csn (d : List Byte) (v : Option Select) :
    (receiveTrace c d).foldl (fun v e => csnAfter e v) v = some .deasserted := by
  unfold receiveTrace
  split <;> simp [regWriteTrace]
theorem receiveTrace_ce (d : List Byte) (v : Option Level) : (receiveTrace c d).foldl (fun v e => ceAfter e v) v = v := by
  unfold receiveTrace
  split <;> simp [regWriteTrace]
end

/-- The body of `RECEIVE` (R200 to R202). -/
theorem receiveBody_does (n : Nat) (buf : Buf) (s : State) : Does s
    ((readFrame s.cfg.cmd.rRxPayload n s).bind fun d s =>
      (clearStatus (mRxDr s.cfg) { s with mem := bufWrite s.mem buf d }).bind fun _ s =>
      (if s.cfg.defensive then command s.cfg.cmd.flushTx s else .on () s).bind fun _ s => .on .done s) fun p t =>
    ∃ d r, d.length = n ∧ p = Response.done ∧
      t = ran (receiveTrace s.cfg d) r { s with mem := bufWrite s.mem buf d } := by
  refine (readFrame_does _ _ s).bind fun d t1 h1 => ?_
  obtain ⟨hn, r, rfl⟩ := h1
  refine Does.bind (Does.of_eq (regWrite_after _ _ _) rfl) fun _ t2 h2 => ?_
  have h2' : t2 = ran (readTrace s.cfg s.cfg.cmd.rRxPayload d ++ regWriteTrace s.cfg s.cfg.reg.status [mRxDr s.cfg])
      (hearAll s.cfg (regWriteTrace s.cfg s.cfg.reg.status [mRxDr s.cfg]) r)
      { s with mem := bufWrite s.mem buf d } := by
    rw [h2]; exact ran_ran _ _ { s with mem := bufWrite s.mem buf d } _ _
  clear h2
  have hc : t2.cfg = s.cfg := by rw [h2']; rfl
  rw [hc]
  by_cases hd : s.cfg.defensive = true
  · rw [if_pos hd]
    refine (command_after _ _).bind fun _ t3 h3 => does_on rfl ⟨d, hearAll s.cfg (commandTrace s.cfg.cmd.flushTx)
      (hearAll s.cfg (regWriteTrace s.cfg s.cfg.reg.status [mRxDr s.cfg]) r), hn, rfl, ?_⟩
    rw [h3, h2', receiveTrace, if_pos hd]
    exact ran_ran _ _ { s with mem := bufWrite s.mem buf d } _ _
  · rw [if_neg hd]
    refine does_on rfl ⟨d, hearAll s.cfg (regWriteTrace s.cfg s.cfg.reg.status [mRxDr s.cfg]) r, hn, rfl, ?_⟩
    rw [h2', receiveTrace, if_neg hd, List.append_nil]

end Sys2Proof.Laws
end

