-- ==== Sys2Proof/Laws/Monitor.lean ====
section
/-! SUPPORT. The trace checker over the traces of the transactions and of the stages. -/

namespace Sys2Proof.Laws

open Sys2Proof.Machine Sys2Proof.Safety

/-- The checker after more events. -/
def checked (c : Cfg) (m : Monitor) (es : List Event) : Monitor := es.foldl (Monitor.next c) m

theorem checks_append (c : Cfg) (m : Monitor) (es fs : List Event) : checked c m (es ++ fs) = checked c (checked c m es) fs := by
  simp [checked]

theorem check_append (c : Cfg) (es fs : List Event) : check c (es ++ fs) = checked c (check c es) fs := by
  simp [check, checked]

/-- The checker outside every bracket. -/
def idleAt (ce : Option Level) (v : Option Byte) (ok : Bool) : Monitor := ⟨.outside, ce, v, ok⟩

section
variable {c : Cfg}

theorem checks_received {cmd : Byte} (hr : isRead (decodeCommand c cmd) = true)
    (hw : ∀ a, decodeCommand c cmd ≠ .wRegister a) (ce : Option Level) (v : Option Byte) (ok : Bool) :
    ∀ (d : List Byte) (n : Nat), checked c ⟨.settled cmd n, ce, v, ok⟩ (d.map fun b => .x c.cmd.nop (some b)) =
      ⟨.settled cmd (n + d.length), ce, v, ok⟩
  | [], n => rfl
  | b :: d, n => by
    have h1 : Monitor.next c ⟨.settled cmd n, ce, v, ok⟩ (.x c.cmd.nop (some b)) = ⟨.settled cmd (n + 1), ce, v, ok⟩ := by
      simp [Monitor.next, hr, hw]
    simp only [checked, List.map_cons, List.foldl_cons, h1]
    have := checks_received hr hw ce v ok d (n + 1)
    simp only [checked] at this
    rw [this]
    simp only [List.length_cons]
    congr 2
    omega

theorem checks_sent {cmd : Byte} (hr : isRead (decodeCommand c cmd) = false)
    (hw : decodeCommand c cmd ≠ .wRegister (regNum c c.reg.config)) (ce : Option Level) (v : Option Byte) (ok : Bool) :
    ∀ (d : List Byte) (n : Nat), checked c ⟨.settled cmd n, ce, v, ok⟩ (d.map fun b => .x b none) =
      ⟨.settled cmd (n + d.length), ce, v, ok⟩
  | [], n => rfl
  | b :: d, n => by
    have h1 : Monitor.next c ⟨.settled cmd n, ce, v, ok⟩ (.x b none) = ⟨.settled cmd (n + 1), ce, v, ok⟩ := by
      simp [Monitor.next, hr, hw]
    simp only [checked, List.map_cons, List.foldl_cons, h1]
    have := checks_sent hr hw ce v ok d (n + 1)
    simp only [checked] at this
    rw [this]
    simp only [List.length_cons]
    congr 2
    omega

/-- A transaction that receives passes the checker. -/
theorem checks_readTrace {cmd : Byte} (hr : isRead (decodeCommand c cmd) = true) {d : List Byte} (hd : d ≠ [])
    (ce : Option Level) (v : Option Byte) (ok : Bool) :
    checked c (idleAt ce v ok) (readTrace c cmd d) = idleAt ce v ok := by
  have h3 : checked c (idleAt ce v ok) [.csn .asserted, .x cmd none, .settle] = ⟨.settled cmd 0, ce, v, ok⟩ := by
    cases hc : decodeCommand c cmd <;> simp_all [checked, idleAt, Monitor.next, isRead, isSent, hasData]
  have hw : ∀ a, decodeCommand c cmd ≠ .wRegister a := fun a h => by rw [h] at hr; cases hr
  have hl : d.length ≠ 0 := by simpa using hd
  rw [readTrace, checks_append, checks_append, h3, checks_received hr hw]
  simp [checked, Monitor.next, idleAt, hl]

/-- A transaction that sends, and does not write CONFIG, passes the checker. -/
theorem checks_writeTrace {cmd : Byte} (hs : hasData (decodeCommand c cmd) = true)
    (hr : isRead (decodeCommand c cmd) = false) (hw : decodeCommand c cmd ≠ .wRegister (regNum c c.reg.config))
    {d : List Byte} (hd : d ≠ []) (ce : Option Level) (v : Option Byte) (ok : Bool) :
    checked c (idleAt ce v ok) (writeTrace cmd d) = idleAt ce v ok := by
  have h3 : checked c (idleAt ce v ok) [.csn .asserted, .x cmd none, .settle] = ⟨.settled cmd 0, ce, v, ok⟩ := by
    cases hc : decodeCommand c cmd <;> simp_all [checked, idleAt, Monitor.next, isRead, isSent, hasData]
  rw [writeTrace, checks_append, checks_append, h3, checks_sent hr hw]
  simp [checked, Monitor.next, idleAt, hd]

variable (h : cmdOk c = true) (ce : Option Level) (v : Option Byte) (ok : Bool)
include h

/-- A register read passes the checker. -/
theorem checks_regReadTrace (a : Byte) {d : List Byte} (hd : d ≠ []) :
    checked c (idleAt ce v ok) (regReadTrace c a d) = idleAt ce v ok :=
  checks_readTrace (by rw [decodeCommand_read h]; rfl) hd ce v ok

/-- A write of a register other than CONFIG passes the checker. -/
theorem checks_regWriteTrace {a : Byte} (ha : regNum c a ≠ regNum c c.reg.config) {d : List Byte} (hd : d ≠ []) :
    checked c (idleAt ce v ok) (regWriteTrace c a d) = idleAt ce v ok :=
  checks_writeTrace (by rw [decodeCommand_write h]; rfl) (by rw [decodeCommand_write h]; rfl)
    (by rw [decodeCommand_write h]; simpa using ha) hd ce v ok

/-- A write of CONFIG while chip-enable is not high is noted by the checker. -/
theorem checks_configTrace (hce : ce ≠ some .high) (b : Byte) :
    checked c (idleAt ce v ok) (regWriteTrace c c.reg.config [b]) = idleAt ce (some b) ok := by
  have hd := decodeCommand_write h c.reg.config
  have hce' : (ce == some Level.high) = false := by simpa using hce
  simp [checked, idleAt, regWriteTrace, writeTrace, Monitor.next, hd, isSent, hasData, isRead, hce']

/-- A payload read passes the checker. -/
theorem checks_payloadReadTrace {d : List Byte} (hd : d ≠ []) :
    checked c (idleAt ce v ok) (readTrace c c.cmd.rRxPayload d) = idleAt ce v ok :=
  checks_readTrace (by rw [(decodeCommand_fix h).1]; rfl) hd ce v ok

/-- A payload write passes the checker. -/
theorem checks_payloadWriteTrace {d : List Byte} (hd : d ≠ []) :
    checked c (idleAt ce v ok) (writeTrace c.cmd.wTxPayload d) = idleAt ce v ok := by
  have hw := (decodeCommand_fix h).2.1
  exact checks_writeTrace (by rw [hw]; rfl) (by rw [hw]; rfl) (by rw [hw]; simp) hd ce v ok

/-- A flush passes the checker. -/
theorem checks_flushTrace {cmd : Byte} (hf : cmd = c.cmd.flushTx ∨ cmd = c.cmd.flushRx) :
    checked c (idleAt ce v ok) (commandTrace cmd) = idleAt ce v ok := by
  have hd := decodeCommand_fix h
  rcases hf with rfl | rfl <;> simp [checked, commandTrace, idleAt, Monitor.next, hd, isSent, hasData]

end

/-- Register addresses told apart: no other register of the twelve is CONFIG (D2). -/
theorem regAddrsOk_config {c : Cfg} (h : regAddrsOk c = true) :
    regNum c c.reg.enAa ≠ regNum c c.reg.config ∧ regNum c c.reg.enRxaddr ≠ regNum c c.reg.config ∧
    regNum c c.reg.setupAw ≠ regNum c c.reg.config ∧ regNum c c.reg.setupRetr ≠ regNum c c.reg.config ∧
    regNum c c.reg.rfCh ≠ regNum c c.reg.config ∧ regNum c c.reg.rfSetup ≠ regNum c c.reg.config ∧
    regNum c c.reg.status ≠ regNum c c.reg.config ∧ regNum c c.reg.rxAddrP0 ≠ regNum c c.reg.config ∧
    regNum c c.reg.rxAddrP1 ≠ regNum c c.reg.config ∧ regNum c c.reg.txAddr ≠ regNum c c.reg.config ∧
    regNum c c.reg.rxPwP0 ≠ regNum c c.reg.config := by
  simp [regAddrsOk, regNums, distinctBytes] at h
  obtain ⟨⟨h1, h2, h3, h4, h5, h6, h7, h8, h9, h10, h11⟩, -⟩ := h
  exact ⟨Ne.symm h1, Ne.symm h2, Ne.symm h3, Ne.symm h4, Ne.symm h5, Ne.symm h6, Ne.symm h7, Ne.symm h8, Ne.symm h9,
    Ne.symm h10, Ne.symm h11⟩

/-- PRIM_RX is off in a value it was taken from. -/
theorem primRxIsOff_primRxOff (c : Cfg) (v : Byte) : primRxIsOff c (some (primRxOff c v)) = true := by
  simp [primRxIsOff, flagSet, primRxOff, BitVec.and_assoc]

section
variable {c : Cfg} (h : cmdOk c = true) (ha : regAddrsOk c = true)
include h ha

/-- The trace of `INIT` passes the checker. -/
theorem checks_initTrace (ce : Option Level) (v : Option Byte) (ok : Bool) :
    checked c (idleAt ce v ok) (initTrace c) = idleAt (some .low) (some (configIdle c)) ok := by
  obtain ⟨h1, h2, h3, h4, h5, h6, h7, h8, -, -, h11⟩ := regAddrsOk_config ha
  have hp : checked c (idleAt ce v ok) [.ce .low, .csn .deasserted] = idleAt (some .low) v ok := by
    simp [checked, idleAt, Monitor.next]
  simp only [initTrace, checks_append, hp]
  rw [checks_regWriteTrace h _ _ _ h1 (by simp), checks_regWriteTrace h _ _ _ h4 (by simp),
    checks_regWriteTrace h _ _ _ h2 (by simp), checks_regWriteTrace h _ _ _ h3 (by simp),
    checks_regWriteTrace h _ _ _ h5 (by simp), checks_regWriteTrace h _ _ _ h6 (by simp),
    checks_regWriteTrace h _ _ _ h8 (by simp [Addr.bytes]), checks_regWriteTrace h _ _ _ h11 (by simp),
    checks_regWriteTrace h _ _ _ h7 (by simp), checks_configTrace h _ _ _ (by simp)]

/-- The events of the poll loop pass the checker while chip-enable is high. -/
theorem checks_pollTrace (v : Option Byte) (ok : Bool) : ∀ sts : List Byte,
    checked c (idleAt (some .high) v ok) (pollTrace c sts) = idleAt (some .high) v ok
  | [] => rfl
  | st :: sts => by
    have hs := (regAddrsOk_config ha).2.2.2.2.2.2.1
    have h1 : checked c (idleAt (some .high) v ok) (pollOnceTrace c st) = idleAt (some .high) v ok := by
      rw [pollOnceTrace, checks_append, checks_regReadTrace h _ _ _ _ (by simp)]
      split
      · exact checks_regWriteTrace h _ _ _ hs (by simp)
      · split
        · exact checks_regWriteTrace h _ _ _ hs (by simp)
        · simp [checked, idleAt, Monitor.next]
    have hc : pollTrace c (st :: sts) = pollOnceTrace c st ++ pollTrace c sts := by simp [pollTrace]
    rw [hc, checks_append, h1, checks_pollTrace v ok sts]

/-- The trace of `TRANSMIT` passes the checker. -/
theorem checks_transmitTrace {payload : List Byte} (hp : payload ≠ []) (b : Byte) (v : Option Byte) (sts : List Byte)
    (ok : Bool) :
    checked c (idleAt (some .low) v ok) (transmitTrace c payload b sts) =
      idleAt (some .low) (some (primRxOn c (primRxOff c b))) ok := by
  obtain ⟨h1, -, -, -, -, -, h7, h8, -, h10, -⟩ := regAddrsOk_config ha
  have hd : ∀ m, checked c m (if c.defensive then regWriteTrace c c.reg.enAa [bit c.bits.enaaP0] else []) =
      if c.defensive then checked c m (regWriteTrace c c.reg.enAa [bit c.bits.enaaP0]) else m := fun m => by
    split <;> rfl
  have hhi : checked c (idleAt (some .low) (some (primRxOff c b)) ok) [.ce .high] =
      idleAt (some .high) (some (primRxOff c b)) ok := by
    simp [checked, idleAt, Monitor.next, primRxIsOff_primRxOff]
  have hlo : checked c (idleAt (some .high) (some (primRxOff c b)) ok) [.ce .low] =
      idleAt (some .low) (some (primRxOff c b)) ok := by
    simp [checked, idleAt, Monitor.next]
  simp only [transmitTrace, flushingTrace, loadingTrace, startingTrace, cleanupTrace, checks_append]
  rw [checks_flushTrace h _ _ _ (.inl rfl), checks_flushTrace h _ _ _ (.inr rfl), checks_regWriteTrace h _ _ _ h7 (by simp), hd,
    checks_regWriteTrace h _ _ _ h1 (by simp), ite_self, checks_regWriteTrace h _ _ _ h10 (by simp [Addr.bytes]),
    checks_regWriteTrace h _ _ _ h8 (by simp [Addr.bytes]), checks_payloadWriteTrace h _ _ _ hp,
    checks_configTrace h _ _ _ (by simp), hhi, checks_pollTrace h ha, hlo, checks_configTrace h _ _ _ (by simp)]

/-- The trace of `RECEIVE` passes the checker. -/
theorem checks_receiveTrace {d : List Byte} (hd : d ≠ []) (ce : Option Level) (v : Option Byte) (ok : Bool) :
    checked c (idleAt ce v ok) (receiveTrace c d) = idleAt ce v ok := by
  have h7 := (regAddrsOk_config ha).2.2.2.2.2.2.1
  rw [receiveTrace, checks_append, checks_append, checks_payloadReadTrace h _ _ _ hd,
    checks_regWriteTrace h _ _ _ h7 (by simp)]
  split
  · exact checks_flushTrace h _ _ _ (.inl rfl)
  · rfl

end

end Sys2Proof.Laws
end

