-- ==== Sys2Proof/Laws/Reference.lean ====
section
/-! SUPPORT. What each transaction of the controller does to the reference radio (R78, R88), and the flag computations bit
by bit (R23, R77). -/

namespace Sys2Proof.Laws

open Sys2Proof.Machine Sys2Proof.Safety

/-- Bit `j` of `bit i`. -/
theorem bit_getLsbD (i j : Fin 8) : (bit i).getLsbD j = decide (i = j) := by
  revert i j
  decide +kernel

/-- A flag test reads one bit. -/
theorem flagSet_eq (v : Byte) (i : Fin 8) : flagSet v i = v.getLsbD i := by
  revert v i
  decide +kernel

/-- Write-1-to-clear bit by bit (R77). -/
theorem flagSet_writeOneToClear (c : Cfg) (st v : Byte) (i : Fin 8) :
    flagSet (writeOneToClear c st v) i = (flagSet st i && !(flagSet v i &&
      decide (i = c.bits.rxDr ∨ i = c.bits.txDs ∨ i = c.bits.maxRt))) := by
  have h := bit_getLsbD
  simp only [flagSet_eq, writeOneToClear, mAll, mRxDr, mTxDs, mMaxRt, BitVec.getLsbD_and, BitVec.getLsbD_not,
    BitVec.getLsbD_or, h]
  simp [eq_comm, Bool.or_assoc]

section
variable {c : Cfg} {r : Radio}

theorem quiet_setReg (h : Quiet r) (a : Byte) (d : List Byte) : Quiet { r.setReg a d with link := .idle } := h

/-- The reference radio answers every read from what it holds (R88). -/
theorem bound_quiet (h : Quiet r) (a : Byte) (n : Nat) : r.bound c a n = true := by simp [Radio.bound, h.1]

@[simp] theorem reg_link (l : Link) (b : Byte) : Radio.reg c { r with link := l } b = r.reg c b := rfl
@[simp] theorem status_link (l : Link) : Radio.status c { r with link := l } = r.status c := rfl
@[simp] theorem reg_txFifo (f : List (List Byte)) (b : Byte) : Radio.reg c { r with txFifo := f } b = r.reg c b := rfl
@[simp] theorem reg_rxFifo (f : List (List Byte)) (b : Byte) : Radio.reg c { r with rxFifo := f } b = r.reg c b := rfl

/-- A register write on the reference radio (R88). -/
theorem store_quiet (hq : Quiet r) (a : Byte) (d : List Byte) :
    r.store c a d = r.setReg a ((d ++ (r.reg c a).drop d.length).take (regWidth c a)) := by
  simp [Radio.store, hq.1]

/-- What the reference radio's registers hold after a write (R88): the bytes written, and behind them those it held. -/
theorem reg_store (hq : Quiet r) (a b : Byte) (d : List Byte) : (r.store c a d).reg c b =
    if b = a then (d ++ (r.reg c a).drop d.length).take (regWidth c a) else r.reg c b := by
  rw [store_quiet hq, reg_setReg]

variable (h : cmdOk c = true) (hq : Quiet r)
include h hq

/-- A register write of any length, on a register other than STATUS (R78(b), R88). -/
theorem hearAll_regStore {a : Byte} {d : List Byte} (ha : regNum c a ≠ statusNum c) (hd : d ≠ []) :
    hearAll c (regWriteTrace c a d) r = { r.setReg (regNum c a)
      ((d ++ (r.reg c (regNum c a)).drop d.length).take (regWidth c (regNum c a))) with link := .idle } := by
  rw [regWriteTrace, hearAll_writeTrace hq]
  simp only [Radio.finish, decodeCommand_write h, hd, ha, if_false]
  rw [store_quiet (quiet_link hq _)]
  rfl

/-- A register write of the right width, on a register other than STATUS (R78(b)). -/
theorem hearAll_regWrite {a : Byte} {d : List Byte} (ha : regNum c a ≠ statusNum c) (hd : d ≠ [])
    (hl : d.length = regWidth c (regNum c a)) :
    hearAll c (regWriteTrace c a d) r = { r.setReg (regNum c a) d with link := .idle } := by
  rw [hearAll_regStore h hq ha hd, List.take_left' hl]

/-- A write of one byte to STATUS (R77, R78(c)). -/
theorem hearAll_statusWrite {a : Byte} (ha : regNum c a = statusNum c) (v : Byte) :
    hearAll c (regWriteTrace c a [v]) r =
      { r.setReg (statusNum c) [writeOneToClear c (r.status c) v] with link := .idle } := by
  rw [regWriteTrace, hearAll_writeTrace hq]
  simp [Radio.finish, decodeCommand_write h, ha, Radio.clearFlags, Radio.setStatus, Radio.setReg]

/-- A payload write (R189). -/
theorem hearAll_payloadWrite {d : List Byte} (hd : d ≠ []) :
    hearAll c (writeTrace c.cmd.wTxPayload d) r = { r with txFifo := r.txFifo ++ [d], link := .idle } := by
  rw [hearAll_writeTrace hq]
  simp [Radio.finish, (decodeCommand_fix h).2.1, hd]

/-- `FLUSH_TX` (R187). -/
theorem hearAll_flushTx : hearAll c (commandTrace c.cmd.flushTx) r = { r with txFifo := [], link := .idle } := by
  rw [hearAll_commandTrace hq]
  simp [Radio.finish, (decodeCommand_fix h).2.2.1]

/-- `FLUSH_RX` (R188). -/
theorem hearAll_flushRx : hearAll c (commandTrace c.cmd.flushRx) r = { r with rxFifo := [], link := .idle } := by
  rw [hearAll_commandTrace hq]
  simp [Radio.finish, (decodeCommand_fix h).2.2.2.1]
end

section
variable {s : State} (h : s.resetAt = none) (hq : Quiet s.radio) (hc : cmdOk s.cfg = true)
include h hq hc

/-- A register read of no more bytes than the register holds: the first of those, and no effect (R78(a), R88). -/
theorem readRegister_first (a : Byte) {n : Nat} (hn : n ≤ (s.radio.reg s.cfg (regNum s.cfg a)).length) :
    readRegister a n s = .on ((s.radio.reg s.cfg (regNum s.cfg a)).take n)
      (ran (regReadTrace s.cfg a ((s.radio.reg s.cfg (regNum s.cfg a)).take n)) { s.radio with link := .idle } s) := by
  have hd := decodeCommand_read hc a
  have hl : ((s.radio.reg s.cfg (regNum s.cfg a)).take n).length = n := by simp [hn]
  have hx := readFrame_stored h hq (cmd := regCmd s.cfg s.cfg.cmd.rRegister a)
    (data := (s.radio.reg s.cfg (regNum s.cfg a)).take n) (fun e he => by
      have : e.length < n := by omega
      simp [Radio.stored, hd, bound_quiet (quiet_link hq _), this])
  rw [hl] at hx
  rw [readRegister, hx]
  simp [Radio.finish, hd, regReadTrace]

/-- A register read of as many bytes as the register holds: those bytes. -/
theorem readRegister_stored (a : Byte) {n : Nat} (hn : (s.radio.reg s.cfg (regNum s.cfg a)).length = n) :
    readRegister a n s = .on (s.radio.reg s.cfg (regNum s.cfg a))
      (ran (regReadTrace s.cfg a (s.radio.reg s.cfg (regNum s.cfg a))) { s.radio with link := .idle } s) := by
  have := readRegister_first h hq hc a (Nat.le_of_eq hn.symm)
  rwa [List.take_of_length_le (Nat.le_of_eq hn)] at this

/-- A payload read from a queue that is not empty: its head, which is removed (R88, R205). -/
theorem readPayload_stored {p : List Byte} {rest : List (List Byte)} (hr : s.radio.rxFifo = p :: rest) (hp : p ≠ []) :
    readFrame s.cfg.cmd.rRxPayload p.length s = .on p
      (ran (readTrace s.cfg s.cfg.cmd.rRxPayload p) { s.radio with rxFifo := rest, link := .idle } s) := by
  have hd := (decodeCommand_fix hc).1
  rw [readFrame_stored h hq (data := p) (fun e _ => by simp [Radio.stored, hd, hr, Radio.gives, hq.1])]
  have hf : fillers s.cfg p.length ≠ [] := by simpa [fillers] using hp
  simp [Radio.finish, hd, hr, hf]

end

/-- The reference radio does nothing of its own still, and its registers and queues are as they were. -/
def Held (r r' : Radio) : Prop := Quiet r' ∧ Untouched r r'

theorem Held.trans {r r' r'' : Radio} (h : Held r r') (h' : Held r' r'') : Held r r'' :=
  ⟨h'.1, h'.2.1.trans h.2.1, h'.2.2.1.trans h.2.2.1, h'.2.2.2.trans h.2.2.2⟩

section
variable {s : State} (h : s.resetAt = none) (hq : Quiet s.radio)
include h hq

/-- An exchange, the byte kept: the reference radio changes nothing, and within a bracket it has one more data byte. -/
theorem xferKeep_held (o : Byte) (n : Nat) : ∃ b r, xferKeep o n s = .on b (ran [.x o (some b)] r s) ∧ Held s.radio r ∧
    ∀ cmd d, s.radio.link = .frame cmd d → r.link = .frame cmd (d ++ [o]) := by
  have ha : ∃ b k, s.radio.answer s.cfg n = (b, { s.radio with drawn := k }) := by
    rw [show s.radio.answer s.cfg n = s.radio.orDraw (s.radio.stored s.cfg n) by simp [Radio.answer, hq.2.2]]
    cases s.radio.stored s.cfg n with
    | some b => exact ⟨b, s.radio.drawn, rfl⟩
    | none => exact ⟨_, s.radio.drawn + 1, rfl⟩
  obtain ⟨b, k, ha⟩ := ha
  refine ⟨b, Radio.hear s.cfg { s.radio with drawn := k } (.x o (some b)), ?_, ?_, ?_⟩
  · simp only [xferKeep, quiet_stir hq, ha]
    rw [unlessReset_none h, logEvent_eq_ran]
  · simp only [Radio.hear]
    cases s.radio.link <;> exact ⟨hq, rfl, rfl, rfl⟩
  · intro cmd d hl
    simp [Radio.hear, hl]

end

/-- Successive exchanges, the bytes kept. -/
theorem xferKeepN_held {cmd : Byte} (n : Nat) : ∀ (o got : List Byte) (s : State), s.resetAt = none → Quiet s.radio →
    s.radio.link = .frame cmd got → ∃ d r, d.length = o.length ∧
      xferKeepN n o s = .on d (ran ((o.zip d).map fun p => .x p.1 (some p.2)) r s) ∧ Held s.radio r ∧
      r.link = .frame cmd (got ++ o)
  | [], got, s, _, hq, hl => ⟨[], s.radio, rfl, by simp [xferKeepN], ⟨hq, rfl, rfl, rfl⟩, by simpa using hl⟩
  | a :: o, got, s, h, hq, hl => by
    obtain ⟨b, r, hx, hr, hk⟩ := xferKeep_held h hq a n
    obtain ⟨d, r', hd, hx', hr', hl'⟩ := xferKeepN_held n o (got ++ [a]) (ran [.x a (some b)] r s) (by simp [h]) hr.1
      (hk _ _ hl)
    exact ⟨b :: d, r', by simp [hd], by simp [xferKeepN, hx, hx'], hr.trans hr', by simpa using hl'⟩

/-- A transaction that receives, on the reference radio: its registers and queues are what the command's effect makes of
them (R78). -/
theorem readFrame_held {s : State} (h : s.resetAt = none) (hq : Quiet s.radio) (cmd : Byte) (n : Nat) :
    ∃ d r, d.length = n ∧ readFrame cmd n s = .on d (ran (readTrace s.cfg cmd d)
      { Radio.finish s.cfg r cmd (fillers s.cfg n) with link := .idle } s) ∧ Held s.radio r := by
  have h0 : hearAll s.cfg [.csn .asserted, .x cmd none, .settle] s.radio = { s.radio with link := .frame cmd [] } := by
    simp [hearAll, quiet_stir hq, Radio.hear, quiet_stir (quiet_link hq _)]
  obtain ⟨d, r, hd, hx, hr, hl⟩ := xferKeepN_held (cmd := cmd) n (fillers s.cfg n) []
    (ran [.csn .asserted, .x cmd none, .settle] { s.radio with link := .frame cmd [] } s) (by simp [h])
    (by simpa using quiet_link hq _) rfl
  have hn : d.length = n := by simpa [fillers] using hd
  subst hn
  refine ⟨d, r, rfl, ?_, hr⟩
  rw [zip_fillers] at hx
  simp [hearAll] at h0
  simp [readFrame, setCsn, xfer, settle, emit_eq, h, hearAll, h0] at hx ⊢
  rw [hx]
  simp [emit_eq, h, hearAll, readTrace, quiet_stir hr.1, Radio.hear, hl]
  rfl

/-- A register read leaves the reference radio's registers and queues alone (R78(a)). -/
theorem readRegister_held {s : State} (h : s.resetAt = none) (hq : Quiet s.radio) (hc : cmdOk s.cfg = true) (a : Byte)
    (n : Nat) : ∃ d r, d.length = n ∧
      readRegister a n s = .on d (ran (regReadTrace s.cfg a d) r s) ∧ Held s.radio r := by
  obtain ⟨d, r, hd, hx, hr⟩ := readFrame_held h hq (regCmd s.cfg s.cfg.cmd.rRegister a) n
  refine ⟨d, _, hd, hx, ?_⟩
  simp only [Radio.finish, decodeCommand_read hc]
  exact hr

theorem bind_assoc {α β γ : Type} (x : Flow α) (k : α → State → Flow β) (l : β → State → Flow γ) :
    (x.bind k).bind l = x.bind fun a s => (k a s).bind l := by cases x <;> rfl

/-- `RegRead` is a register read of one byte. -/
theorem regRead_eq_readRegister {s : State} (h : s.resetAt = none) (a : Byte) :
    regRead a s = (readRegister a 1 s).bind fun d s => .on (d.headD 0#8) s := by
  simp [regRead, readRegister, readFrame, setCsn, xfer, settle, emit_eq, h, fillers, xferKeepN, bind_assoc]

/-- `RegRead` of a register on the reference radio: the first byte it holds. -/
theorem regRead_stored {s : State} (h : s.resetAt = none) (hq : Quiet s.radio) (hc : cmdOk s.cfg = true) {a v : Byte}
    {rest : List Byte} (hv : s.radio.reg s.cfg (regNum s.cfg a) = v :: rest) :
    regRead a s = .on v (ran (regReadTrace s.cfg a [v]) { s.radio with link := .idle } s) := by
  rw [regRead_eq_readRegister h, readRegister_first h hq hc a (by simp [hv]), hv]
  rfl

end Sys2Proof.Laws
end

