-- ==== Sys2Proof/Laws/PerInstr.lean ====
section
/-! SUPPORT. A law for every instruction as syntax: which port its words go to, and under which operation code. -/

namespace Sys2Proof.Laws.RequestOp

/-- The operation code of a host operation (R110); `none` for a wire command (R104). -/
def code : Instr → Option Byte
  | .init => some 0x00#8
  | .readReg _ => some 0x01#8
  | .writeReg _ _ => some 0x02#8
  | .readRegMulti _ _ => some 0x03#8
  | .writeRegMulti _ _ _ => some 0x04#8
  | .transmit _ _ => some 0x05#8
  | .receive _ _ => some 0x06#8
  | .checkDataReady => some 0x07#8
  | .rRegister _ _ | .wRegister _ _ | .rRxPayload | .wTxPayload _ | .flushTx | .flushRx | .nop => none

/-- A host operation is encoded as a request word that carries its code with `w[7:4]` clear; a wire command as a
transaction of the bus. -/
def Statement (i : Instr) : Prop :=
  ∀ c : Cfg, match encode c i with
    | .request r => code i = some (reqOp r.word)
    | .frame _   => code i = none

theorem reqOp_reqWord (op a v : Byte) (n : Nat) : reqOp (reqWord op a v n) = op := by
  apply BitVec.eq_of_getLsbD_eq
  intro i hi
  rw [reqOp, reqWord, BitVec.getLsbD_extractLsb', BitVec.getLsbD_append]
  simp [hi]

theorem rRegister (addr : Byte) (n : Nat) : Statement (.rRegister addr n) := fun _ => rfl
theorem wRegister (addr : Byte) (data : List Byte) : Statement (.wRegister addr data) := fun _ => rfl
theorem rRxPayload : Statement .rRxPayload := fun _ => rfl
theorem wTxPayload (data : List Byte) : Statement (.wTxPayload data) := fun _ => rfl
theorem flushTx : Statement .flushTx := fun _ => rfl
theorem flushRx : Statement .flushRx := fun _ => rfl
theorem nop : Statement .nop := fun _ => rfl
theorem init : Statement .init := fun _ => by simp [encode, code, reqOp_reqWord]
theorem readReg (a : Byte) : Statement (.readReg a) := fun _ => by simp [encode, code, reqOp_reqWord]
theorem writeReg (a v : Byte) : Statement (.writeReg a v) := fun _ => by simp [encode, code, reqOp_reqWord]
theorem readRegMulti (a : Byte) (n : Nat) : Statement (.readRegMulti a n) := fun _ => by
  simp [encode, code, reqOp_reqWord]
theorem writeRegMulti (a : Byte) (n : Nat) (buf : Buf) : Statement (.writeRegMulti a n buf) := fun _ => by
  simp [encode, code, reqOp_reqWord]
theorem transmit (n : Nat) (buf : Buf) : Statement (.transmit n buf) := fun _ => by simp [encode, code, reqOp_reqWord]
theorem receive (n : Nat) (buf : Buf) : Statement (.receive n buf) := fun _ => by simp [encode, code, reqOp_reqWord]
theorem checkDataReady : Statement .checkDataReady := fun _ => by simp [encode, code, reqOp_reqWord]

end Sys2Proof.Laws.RequestOp
end

