-- ==== Sys2Proof/Tests/Slice0.lean ====
section
/-! SUPPORT. Tests: ill-formed terms refused, words of the spec decoded, one step of each instruction against the vectors of
spec/95_test_vectors.md, and a state and operands that meet the hypotheses of each statement. -/

namespace Sys2Proof.Tests

open Sys2Proof.Machine Sys2Proof.Safety

set_option Elab.async false

/-- The reference radio (R88) as `INIT` leaves it, STATUS `0x0E`. -/
def radio : Radio where
  kind    := .reference
  regs    := [(0x00, [0x0F#8]), (0x01, [0x01#8]), (0x02, [0x01#8]), (0x03, [0x03#8]), (0x04, [0x1F#8]), (0x05, [0x4C#8]),
    (0x06, [0x07#8]), (0x07, [0x0E#8]), (0x0A, [0xAA#8, 0xBB#8, 0xCC#8, 0xDD#8, 0xEE#8]), (0x10, [1#8, 2#8, 3#8, 4#8, 5#8]),
    (0x11, [0x08#8])]
  txFifo  := []
  rxFifo  := []
  ce      := some .low
  link    := .idle
  answers := []
  levels  := []
  moves   := []
  drawn   := 0

/-- The controller after `INIT`, its trace put by, with the reference radio and eight bytes at address 64. -/
def ready : State :=
  { State.reset with
    shadow := some 0x0F#8
    initialized := true
    csn := some .deasserted
    ce := some .low
    mem := [(64, 1#8), (65, 2#8), (66, 3#8), (67, 4#8), (68, 5#8), (69, 6#8), (70, 7#8), (71, 8#8)]
    radio := radio }

/-- The same with the trace `INIT` leaves. -/
def afterInit : State := { ready with trace := initTrace Config.session }

/-- The buffer at address 64, of eight bytes. -/
def buf : Buf := ⟨64, 8⟩

/-- A radio whose STATUS is `v`. -/
def withStatus (v : Byte) : State := { ready with radio := ready.radio.setStatus Config.session v }

/-- A radio that answers the polls with `bs`. -/
def answering (bs : List Byte) : State := { ready with radio := { radio with answers := bs } }

/-- The state an outcome leaves. -/
def left : Host.Outcome State Fault Refusal → Option State
  | .next t => some t
  | .fault _ | .refused _ => none

/-- The results and the events of a step. -/
def seen (x : Host.Outcome State Fault Refusal) : Option (List Response × List Event) :=
  (left x).map fun t => (t.responses, t.trace)

/-- The refusal marks of a step that performed no event. -/
def refusals (x : Host.Outcome State Fault Refusal) : Option (List Check) :=
  (left x).bind fun t => if t.trace = [] then some (t.marks.map (·.check)) else none

/-! ## Ill-formed terms and ill-formed parameters -/

theorem test_rRegister_address_too_wide : (Instr.rRegister 0x20#8 1).wellFormed Config.session = false := by decide
theorem test_rRegister_no_byte : (Instr.rRegister 0x07#8 0).wellFormed Config.session = false := by decide
theorem test_wRegister_address_too_wide : (Instr.wRegister 0xE7#8 [0#8]).wellFormed Config.session = false := by decide
theorem test_wRegister_no_byte : (Instr.wRegister 0x07#8 []).wellFormed Config.session = false := by decide
theorem test_wTxPayload_seven_bytes :
    (Instr.wTxPayload [1#8, 2#8, 3#8, 4#8, 5#8, 6#8, 7#8]).wellFormed Config.session = false := by decide
theorem test_readRegMulti_length_too_wide : (Instr.readRegMulti 0x10#8 256).wellFormed Config.session = false := by decide
theorem test_writeRegMulti_length_too_wide :
    (Instr.writeRegMulti 0x10#8 256 buf).wellFormed Config.session = false := by decide
theorem test_transmit_length_too_wide : (Instr.transmit 256 buf).wellFormed Config.session = false := by decide
theorem test_receive_length_too_wide : (Instr.receive 256 buf).wellFormed Config.session = false := by decide

/-- V4: the defaults are accepted, and each of three tables is refused. -/
theorem test_cmd_table_checks :
    cmdOk Config.session = true ∧
    cmdOk { Config.session with cmd := { Config.cmd with flushTx := 0x21#8 } } = false ∧
    cmdOk { Config.session with cmd := { Config.cmd with wRegister := 0x10#8 } } = false ∧
    cmdOk { Config.session with cmd := { Config.cmd with flushRx := 0xE1#8 } } = false := by decide +kernel

/-- V15, V16. -/
theorem test_cfg_checks :
    cfgOk Config.session = true ∧
    cfgOk { Config.session with rxAddr := ⟨0xAA#8, 0xBB#8, 0xCC#8, 0xDD#8, 0xEF#8⟩ } = false ∧
    cfgOk { Config.session with pollBudgetMs := 0 } = false ∧
    cfgOk { Config.session with pollBudgetMs := 15 } = false ∧
    cfgOk { Config.session with pollBudgetMs := 10 } = true ∧
    cfgOk { Config.session with pollQuantumMs := 0 } = false ∧
    cfgOk { Config.session with retrDelay := 16, retrCount := 0 } = false ∧
    cfgOk { Config.session with retrDelay := 0, retrCount := 16 } = false := by decide +kernel

/-- V15, V29, R113 and R160: the byte values computed. -/
theorem test_byte_values :
    setupRetrVal { Config.session with retrDelay := 0, retrCount := 0 } = 0x00#8 ∧
    setupRetrVal Config.session = 0x1F#8 ∧
    setupRetrVal { Config.session with retrDelay := 5, retrCount := 3 } = 0x53#8 ∧
    setupRetrVal { Config.session with retrDelay := 15, retrCount := 15 } = 0xFF#8 ∧
    configIdle Config.session = 0x0F#8 ∧ primRxOff Config.session 0x0F#8 = 0x0E#8 ∧
    primRxOn Config.session 0x0E#8 = 0x0F#8 ∧ mAll Config.session = 0x70#8 := by decide +kernel

/-- W2. -/
theorem test_write_one_to_clear :
    writeOneToClear Config.session 0x7E#8 0x10#8 = 0x6E#8 ∧ writeOneToClear Config.session 0x7E#8 0x00#8 = 0x7E#8 ∧
    writeOneToClear Config.session 0x0E#8 0x70#8 = 0x0E#8 := by decide +kernel

/-! ## Decoding: words written out from R101, R104, R105 and R110 -/

theorem test_decode_rRegister :
    decode Config.session (.frame ⟨0b000_00111#8, [0xFF#8, 0xFF#8]⟩) = .ok (.rRegister 0x07#8 2) := by decide
theorem test_decode_wRegister :
    decode Config.session (.frame ⟨0b001_11111#8, [0x4C#8]⟩) = .ok (.wRegister 0x1F#8 [0x4C#8]) := by decide
theorem test_decode_rRxPayload :
    decode Config.session (.frame ⟨0b0110_0001#8, List.replicate 8 0xFF#8⟩) = .ok .rRxPayload := by decide
theorem test_decode_wTxPayload :
    decode Config.session (.frame ⟨0b1010_0000#8, [1#8, 2#8, 3#8, 4#8, 5#8, 6#8, 7#8, 8#8]⟩) =
      .ok (.wTxPayload [1#8, 2#8, 3#8, 4#8, 5#8, 6#8, 7#8, 8#8]) := by decide
theorem test_decode_flushTx : decode Config.session (.frame ⟨0b1110_0001#8, []⟩) = .ok .flushTx := by decide
theorem test_decode_flushRx : decode Config.session (.frame ⟨0b1110_0010#8, []⟩) = .ok .flushRx := by decide
theorem test_decode_nop : decode Config.session (.frame ⟨0b1111_1111#8, []⟩) = .ok .nop := by decide
theorem test_decode_not_emitted :
    [0x40#8, 0x50#8, 0x60#8, 0xA1#8, 0xE3#8].map (decodeCommand Config.session) = List.replicate 5 .notEmitted := by decide
theorem test_decode_wrong_lengths :
    decode Config.session (.frame ⟨0x07#8, []⟩) = .rejected .dataLength ∧
    decode Config.session (.frame ⟨0x61#8, [0xFF#8]⟩) = .rejected .dataLength ∧
    decode Config.session (.frame ⟨0xE1#8, [0#8]⟩) = .rejected .dataLength ∧
    decode Config.session (.frame ⟨0x07#8, [0x00#8]⟩) = .rejected .filler := by decide
theorem test_decode_init :
    decodeRequest ⟨0b00000000_00000000_00000000_0000_0000#32, noBuf⟩ = .ok .init := by decide
theorem test_decode_readReg :
    decodeRequest ⟨0b00000000_00000000_11100111_0000_0001#32, noBuf⟩ = .ok (.readReg 0xE7#8) := by decide
theorem test_decode_writeReg :
    decodeRequest ⟨0b00000000_01110000_00000111_0000_0010#32, noBuf⟩ = .ok (.writeReg 0x07#8 0x70#8) := by decide
theorem test_decode_readRegMulti :
    decodeRequest ⟨0b00000101_00000000_00010000_0000_0011#32, noBuf⟩ = .ok (.readRegMulti 0x10#8 5) := by decide
theorem test_decode_writeRegMulti :
    decodeRequest ⟨0b11111111_00000000_00010000_0000_0100#32, buf⟩ = .ok (.writeRegMulti 0x10#8 255 buf) := by decide
theorem test_decode_transmit :
    decodeRequest ⟨0b00001000_00000000_00000000_0000_0101#32, buf⟩ = .ok (.transmit 8 buf) := by decide
theorem test_decode_receive :
    decodeRequest ⟨0b00001000_00000000_00000000_0000_0110#32, buf⟩ = .ok (.receive 8 buf) := by decide
theorem test_decode_checkDataReady :
    decodeRequest ⟨0b00000000_00000000_00000000_0000_0111#32, noBuf⟩ = .ok .checkDataReady := by decide
theorem test_decode_reserved :
    decodeRequest ⟨0x00000008#32, noBuf⟩ = .rejected .wfOp ∧ decodeRequest ⟨0x0000000F#32, noBuf⟩ = .rejected .wfOp ∧
    decodeRequest ⟨0x00000011#32, noBuf⟩ = .rejected .wfOp ∧ decodeRequest ⟨0x00000081#32, noBuf⟩ = .rejected .wfOp := by
  decide

/-- Words of the opcode table: the host port first, then the wire commands. -/
theorem test_decode_table_words :
    decodeTableWord 8 0x05 = some (.transmit 0 noBuf) ∧ decodeTableWord 8 0x1F = some (.rRegister 0x1F#8 1) ∧
    decodeTableWord 8 0x20 = some (.wRegister 0x00#8 [0#8]) ∧ decodeTableWord 8 0xE1 = some .flushTx ∧
    decodeTableWord 8 0x40 = none := by decide

/-! ## One step of each instruction -/

/-- P1: the trace of `INIT`. -/
theorem test_init_trace :
    seen (exec .init { State.reset with radio := radio }) = some ([.done],
      [.ce .low, .csn .deasserted,
       .csn .asserted, .x 0x21#8 none, .settle, .x 0x01#8 none, .csn .deasserted,
       .csn .asserted, .x 0x24#8 none, .settle, .x 0x1F#8 none, .csn .deasserted,
       .csn .asserted, .x 0x22#8 none, .settle, .x 0x01#8 none, .csn .deasserted,
       .csn .asserted, .x 0x23#8 none, .settle, .x 0x03#8 none, .csn .deasserted,
       .csn .asserted, .x 0x25#8 none, .settle, .x 0x4C#8 none, .csn .deasserted,
       .csn .asserted, .x 0x26#8 none, .settle, .x 0x07#8 none, .csn .deasserted,
       .csn .asserted, .x 0x2A#8 none, .settle, .x 0xAA#8 none, .x 0xBB#8 none, .x 0xCC#8 none, .x 0xDD#8 none,
       .x 0xEE#8 none, .csn .deasserted,
       .csn .asserted, .x 0x31#8 none, .settle, .x 0x08#8 none, .csn .deasserted,
       .csn .asserted, .x 0x27#8 none, .settle, .x 0x70#8 none, .csn .deasserted,
       .csn .asserted, .x 0x20#8 none, .settle, .x 0x0F#8 none, .csn .deasserted]) := by decide +kernel

/-- V16: an ill-formed pair of addresses. -/
theorem test_init_refused :
    refusals (exec .init { ready with cfg := { Config.session with
      rxAddr := ⟨0xAA#8, 0xBB#8, 0xCC#8, 0xDD#8, 0xEF#8⟩ } }) = some [.wfCfg] := by decide +kernel

/-- V5. -/
theorem test_readReg_status :
    seen (exec (.readReg 0x07#8) ready) = some ([.byte 0x0E#8],
      [.csn .asserted, .x 0x07#8 none, .settle, .x 0xFF#8 (some 0x0E#8), .csn .deasserted]) := by decide +kernel

/-- V2, V13: address bits above the mask are dropped, and CONFIG may be read. -/
theorem test_readReg_config :
    seen (exec (.readReg 0x20#8) ready) = some ([.byte 0x0F#8],
      [.csn .asserted, .x 0x00#8 none, .settle, .x 0xFF#8 (some 0x0F#8), .csn .deasserted]) := by decide +kernel

/-- V6: the masked address, and the flags cleared. -/
theorem test_writeReg_status :
    (left (exec (.writeReg 0xE7#8 0x70#8) (withStatus 0x7E#8))).map (fun t => (t.trace, t.radio.status Config.session)) =
      some ([.csn .asserted, .x 0x27#8 none, .settle, .x 0x70#8 none, .csn .deasserted], 0x0E#8) := by decide +kernel

/-- V2, V12. -/
theorem test_writeReg_config : refusals (exec (.writeReg 0xE0#8 0x0D#8) ready) = some [.wfNoConfigWrite] := by
  decide +kernel

/-- V9. -/
theorem test_readRegMulti_address :
    seen (exec (.readRegMulti 0x0A#8 5) ready) = some ([.bytes [0xAA#8, 0xBB#8, 0xCC#8, 0xDD#8, 0xEE#8]],
      [.csn .asserted, .x 0x0A#8 none, .settle, .x 0xFF#8 (some 0xAA#8), .x 0xFF#8 (some 0xBB#8), .x 0xFF#8 (some 0xCC#8),
       .x 0xFF#8 (some 0xDD#8), .x 0xFF#8 (some 0xEE#8), .csn .deasserted]) := by decide +kernel

/-- V10. -/
theorem test_readRegMulti_lengths :
    refusals (exec (.readRegMulti 0x10#8 0) ready) = some [.wfMultiLen] ∧
    refusals (exec (.readRegMulti 0x10#8 6) ready) = some [.wfMultiLen] := by decide +kernel

/-- P5: the bytes go out in index order. -/
theorem test_writeRegMulti_address :
    seen (exec (.writeRegMulti 0x10#8 5 buf) ready) = some ([.done],
      [.csn .asserted, .x 0x30#8 none, .settle, .x 0x01#8 none, .x 0x02#8 none, .x 0x03#8 none, .x 0x04#8 none,
       .x 0x05#8 none, .csn .deasserted]) := by decide +kernel

/-- V11, V14: a buffer that is too short, and the order of the checks. -/
theorem test_writeRegMulti_refused :
    refusals (exec (.writeRegMulti 0x10#8 5 ⟨64, 3⟩) ready) = some [.wfBuf] ∧
    refusals (exec (.writeRegMulti 0x00#8 0 ⟨64, 0⟩) ready) = some [.wfMultiLen] ∧
    refusals (exec (.writeRegMulti 0x00#8 1 buf) ready) = some [.wfNoConfigWrite] := by decide +kernel

/-- V21: both flags set is Failed, in 68 events, and TX_DS stays. -/
theorem test_transmit_both_flags :
    (left (exec (.transmit 8 buf) (answering [0x3E#8]))).map (fun t => (t.responses, t.trace.length, t.shadow)) =
      some ([.outcome .failed], 68, some 0x0F#8) ∧
    (left (exec (.transmit 8 buf) (answering [0x3E#8]))).map (fun t => (t.ce, t.radio.txFifo)) =
      some (some .low, [[1#8, 2#8, 3#8, 4#8, 5#8, 6#8, 7#8, 8#8]]) := by decide +kernel

/-- V27: one poll, one sleep, 64 events. -/
theorem test_transmit_one_poll :
    (left (exec (.transmit 8 buf) { answering [0x0E#8] with cfg := { Config.session with pollBudgetMs := 10 } })).map
      (fun t => (t.responses, t.trace.length, t.trace.count (.sleep 10))) = some ([.outcome .timedOut], 64, 1) := by
  decide +kernel

/-- V23: fifty polls with no flag are TimedOut, in 358 events. -/
theorem test_transmit_times_out :
    (left (exec (.transmit 8 buf) ready)).map (fun t => (t.responses, t.trace.length, t.trace.count (.sleep 10))) =
      some ([.outcome .timedOut], 358, 50) := by decide +kernel

/-- W1 on an address register, and the bytes it keeps behind the one written (R88). -/
theorem test_address_register_one_byte :
    ((left (exec (.writeReg 0x10#8 0x99#8) ready)).bind fun t => left (exec (.readReg 0x10#8) t)).map
      (fun t => (t.responses, t.radio.reg Config.session 0x10#8)) =
      some ([.done, .byte 0x99#8], [0x99#8, 2#8, 3#8, 4#8, 5#8]) := by decide +kernel

/-- R77, R137 on the reference radio: later bytes set no flag. -/
theorem test_status_two_bytes :
    (left (exec (.writeRegMulti 0x07#8 2 buf) { withStatus 0x7E#8 with mem := [(64, 0x10#8), (65, 0xFF#8)] })).map
      (·.radio.status Config.session) = some 0x6E#8 := by decide +kernel

/-- R78(b) on the free radio, which does nothing of its own at these events: a register of R44 reads back. -/
theorem test_free_radio_reads_back :
    (left (exec (.readReg 0x05#8) { ready with radio := { radio with kind := .free, moves := List.replicate 5 [] } })).map
      (·.responses) = some [.byte 0x4C#8] := by decide +kernel

/-- R74, R78(b) on the free radio: an address register is answered from what it holds to a read of its width alone. -/
theorem test_free_radio_widths :
    let r : Radio := { radio with kind := .free, link := .frame 0x10#8 [] }
    r.stored Config.session 5 = some 1#8 ∧ r.stored Config.session 1 = none ∧ r.stored Config.session 4 = none ∧
    ({ radio with link := .frame 0x10#8 [] } : Radio).stored Config.session 1 = some 1#8 := by decide +kernel

/-- R205, R88, log 27: a payload of another length than PAYLOAD_LEN. -/
theorem test_payload_of_another_length :
    let r : Radio := { radio with link := .frame 0x61#8 [], rxFifo := [[1#8, 2#8]] }
    r.stored Config.session 2 = some 1#8 ∧ r.stored Config.session 8 = some 1#8 ∧
    ({ r with kind := .free } : Radio).stored Config.session 2 = some 1#8 ∧
    ({ r with kind := .free } : Radio).stored Config.session 8 = none := by decide +kernel

/-- R39: the budget is `⊥` once `Polling` is left. -/
theorem test_cleanup_budget :
    (match txCleanup { ready with outcome := some .success, budget := some 480 } with
      | .on _ t => (t.phase, t.budget) | .stop _ | .fault _ => (.idle, some 0)) = (.done .success, none) := by decide +kernel

/-- W6, V33. -/
theorem test_receive_payload :
    (left (exec (.receive 8 ⟨200, 8⟩) { withStatus 0x40#8 with radio :=
      { (withStatus 0x40#8).radio with rxFifo := [[1#8, 2#8, 3#8, 4#8, 5#8, 0#8, 0#8, 0#8]] } })).map
      (fun t => (bufRead t.mem ⟨200, 8⟩ 8, t.radio.status Config.session, t.radio.rxFifo, t.trace.length)) =
      some ([1#8, 2#8, 3#8, 4#8, 5#8, 0#8, 0#8, 0#8], 0x00#8, [], 20) := by decide +kernel

/-- V35, V14. -/
theorem test_receive_refused :
    refusals (exec (.receive 5 buf) ready) = some [.wfPayloadLen] ∧
    refusals (exec (.receive 8 ⟨64, 7⟩) ready) = some [.wfBuf] := by decide +kernel

/-- V36 by the interrupt line. -/
theorem test_checkDataReady_irq :
    seen (exec .checkDataReady { ready with radio := { radio with levels := [.low] } }) =
      some ([.ready true], [.irq .low]) ∧
    seen (exec .checkDataReady { ready with radio := { radio with levels := [.high] } }) =
      some ([.ready false], [.irq .high]) := by decide +kernel

/-- V36 by a status poll: TX_DS and MAX_RT do not count. -/
theorem test_checkDataReady_poll :
    (left (exec .checkDataReady { withStatus 0x4E#8 with cfg := { Config.session with drMethod := .statusPoll } })).map
      (·.responses) = some [.ready true] ∧
    (left (exec .checkDataReady { withStatus 0x3E#8 with cfg := { Config.session with drMethod := .statusPoll } })).map
      (·.responses) = some [.ready false] := by decide +kernel

/-- The wire commands by themselves (R130, R131, R132, R187, R188, R189, R205). -/
theorem test_rRegister :
    (left (exec (.rRegister 0x05#8 1) ready)).map (·.responses) = some [.bytes [0x4C#8]] := by decide +kernel
theorem test_wRegister :
    (left (exec (.wRegister 0x05#8 [0x02#8]) ready)).map (fun t => t.radio.reg Config.session 0x05#8) = some [0x02#8] := by
  decide +kernel
theorem test_rRxPayload :
    (left (exec .rRxPayload { ready with radio := { radio with
      rxFifo := [[1#8, 2#8, 3#8, 4#8, 5#8, 6#8, 7#8, 8#8], []] } })).map (fun t => (t.responses, t.radio.rxFifo)) =
      some ([.bytes [1#8, 2#8, 3#8, 4#8, 5#8, 6#8, 7#8, 8#8]], [[]]) := by decide +kernel
theorem test_wTxPayload :
    (left (exec (.wTxPayload [9#8]) { ready with radio := { radio with txFifo := [[7#8]] } })).map (·.radio.txFifo) =
      some [[7#8], [9#8]] := by decide +kernel
theorem test_flushTx :
    (left (exec .flushTx { ready with radio := { radio with txFifo := [[7#8]], rxFifo := [[8#8]] } })).map
      (fun t => (t.radio.txFifo, t.radio.rxFifo, t.trace.length)) = some ([], [[8#8]], 3) := by decide +kernel
theorem test_flushRx :
    (left (exec .flushRx { ready with radio := { radio with txFifo := [[7#8]], rxFifo := [[8#8]] } })).map
      (fun t => (t.radio.txFifo, t.radio.rxFifo, t.trace.length)) = some ([[7#8]], [], 3) := by decide +kernel
theorem test_nop :
    seen (exec .nop (answering [0x55#8])) = some ([.byte 0x55#8], [.x 0xFF#8 (some 0x55#8)]) := by decide +kernel

/-- V14: a reserved operation code is refused with a mark, in any state. -/
theorem test_step_refuses_reserved :
    refusals (step { State.reset with port := [⟨0x00000008#32, noBuf⟩] }) = some [.wfOp] := by decide +kernel

/-- V38: from the reset state `INIT` runs, and any other request is refused. -/
theorem test_first_instruction :
    (left (step (State.reset.withFetchWord 8 0x00))).map (fun t => (t.initialized, t.shadow, t.responses)) =
      some (true, some 0x0F#8, [.done]) ∧
    refusals (step (State.reset.withFetchWord 8 0x07)) = some [.wfInitFirst] := by decide +kernel

/-- R106: a bench frame that is no wire command. -/
theorem test_step_no_command :
    step { ready with bench := some ⟨0xE3#8, []⟩ } = .refused (.noCommand (.notEmitted 0xE3#8)) := by rfl

/-- R222: a `TRANSMIT` with the shadow unwritten. -/
theorem test_transmit_shadow_unwritten :
    exec (.transmit 8 buf) { ready with shadow := none } = .fault (.unwritten .shadow) := by rfl

/-- R229. -/
theorem test_overlap : exec (.readReg 0x07#8) { ready with busy := some .transmit } = .fault .overlap := by rfl

/-- R238: a reset after 53 events of a `TRANSMIT` leaves the controller reset and the radio with chip-enable high. -/
theorem test_reset_cuts_transmit :
    (left (exec (.transmit 8 buf) { answering [] with resetAt := some 53 })).map
      (fun t => (t.initialized, t.shadow, t.ce, t.radio.ce, t.sessions.map List.length)) =
      some (false, none, none, some .high, [53]) := by decide +kernel

/-! ## The hypotheses of the statements are met -/

theorem test_session_ok : cfgOk Config.session = true ∧ cmdOk Config.session = true ∧ regAddrsOk Config.session = true ∧
    Config.session.addrWidth = 5 ∧ 0 < Config.session.payloadLen := by decide +kernel

theorem test_quiet : Quiet radio ∧ radio.link = .idle := ⟨⟨rfl, rfl, rfl⟩, rfl⟩

theorem test_met_DecodeEncodeGivesBack :
    ∀ i ∈ [Instr.rRegister 0x1F#8 1, .wRegister 0x00#8 [0xFF#8], .rRxPayload, .wTxPayload (List.replicate 8 0xFF#8),
      .flushTx, .flushRx, .nop, .init, .readReg 0xFF#8, .writeReg 0xFF#8 0xFF#8, .readRegMulti 0xFF#8 255,
      .writeRegMulti 0x00#8 0 buf, .transmit 255 buf, .receive 0 buf, .checkDataReady],
      cmdOk Config.session = true ∧ i.wellFormed Config.session = true := by decide +kernel

theorem test_met_CommandByteHasOneMeaning :
    decodeCommand Config.session 0x1F#8 = .rRegister 0x1F#8 ∧ decodeCommand Config.session 0x20#8 = .wRegister 0x00#8 ∧
    decodeCommand Config.session 0x61#8 = .rRxPayload ∧ decodeCommand Config.session 0xA0#8 = .wTxPayload ∧
    decodeCommand Config.session 0xE1#8 = .flushTx ∧ decodeCommand Config.session 0xE2#8 = .flushRx ∧
    decodeCommand Config.session 0xFF#8 = .nop := by decide

theorem test_met_RegisterCommandKeepsClass :
    cmdOk Config.session = true ∧ regCmd Config.session 0x20#8 0xFF#8 = 0x3F#8 ∧
    regCmd Config.session 0x00#8 0xE0#8 = 0x00#8 := by decide +kernel

theorem test_met_RegisterOperations :
    ready.busy = none ∧ ready.initialized = true ∧ ready.resetAt = none ∧ ready.csn = some .deasserted ∧
    (0x1F#8 &&& ready.cfg.addrMask ≠ ready.cfg.reg.config &&& ready.cfg.addrMask) ∧
    1 ≤ ready.cfg.addrWidth ∧ 5 ≤ ready.cfg.addrWidth ∧ 5 ≤ buf.len := by decide

theorem test_met_RegisterOperationsKeepState :
    (left (exec (.readReg 0x07#8) ready)).isSome = true ∧ (left (exec (.writeReg 0x07#8 0#8) ready)).isSome = true ∧
    (left (exec (.readRegMulti 0x07#8 1) ready)).isSome = true ∧
    (left (exec (.writeRegMulti 0x07#8 1 buf) ready)).isSome = true := by decide +kernel

theorem test_met_RefusalOnlyMarks : ready.busy = none ∧ failedCheck (.receive 9 buf) ready = some .wfPayloadLen := by decide

theorem test_met_FirstFailingCheckNamed :
    State.reset.busy = none ∧ State.reset.initialized = false ∧ ready.busy = none ∧ ready.initialized = true ∧
    ready.cfg.addrWidth < 6 ∧ 7 ≠ ready.cfg.payloadLen ∧ 1 ≤ 5 ∧ 5 ≤ ready.cfg.addrWidth ∧ (Buf.mk 64 4).len < 5 ∧
    8 = ready.cfg.payloadLen ∧ (Buf.mk 64 7).len < 8 ∧
    (0xE0#8 &&& ready.cfg.addrMask = ready.cfg.reg.config &&& ready.cfg.addrMask) ∧ 5 ≤ (Buf.mk 64 5).len := by decide

theorem test_met_OverlappingRequestIsStuck : ({ ready with busy := some .init } : State).busy = some .init := rfl

/-- One configuration for each cause of `REF_CFG`. -/
theorem test_met_InitRefusesIllFormedCfg :
    ready.busy = none ∧
    ({ Config.session with rxAddr := ⟨0#8, 0xBB#8, 0xCC#8, 0xDD#8, 0xEE#8⟩ } : Cfg).rxAddr ≠ Config.session.txAddr ∧
    ({ Config.session with pollBudgetMs := 0 } : Cfg).pollBudgetMs = 0 ∧
    ({ Config.session with pollQuantumMs := 0 } : Cfg).pollQuantumMs = 0 ∧ ¬ 10 ∣ 15 ∧
    15 < ({ Config.session with retrDelay := 16 } : Cfg).retrDelay ∧
    15 < ({ Config.session with retrCount := 16 } : Cfg).retrCount ∧
    cmdOk { Config.session with cmd := { Config.cmd with nop := 0x1F#8 } } = false := by decide +kernel

theorem test_met_Init :
    State.reset.busy = none ∧ State.reset.resetAt = none ∧ cfgOk State.reset.cfg = true ∧ ready.busy = none ∧
    ready.resetAt = none ∧ cfgOk ready.cfg = true ∧ regAddrsOk ready.cfg = true ∧ ready.cfg.addrWidth = 5 ∧
    State.reset.cfg = ready.cfg := by decide +kernel

theorem test_met_InitIsIdempotent : atRest State.reset ∧ atRest ready ∧ Quiet ready.radio ∧ ready.radio.link = .idle :=
  ⟨⟨rfl, rfl, rfl, rfl, rfl, rfl⟩, ⟨rfl, rfl, rfl, rfl, rfl, rfl⟩, test_quiet.1, rfl⟩

theorem test_met_Transmit :
    ready.busy = none ∧ ready.initialized = true ∧ ready.resetAt = none ∧ 8 = ready.cfg.payloadLen ∧ 0 < 8 ∧ 8 ≤ buf.len ∧
    ready.shadow = some 0x0F#8 ∧ 0 < ready.cfg.pollBudgetMs ∧ 0 < ready.cfg.pollQuantumMs ∧
    ready.cfg.pollQuantumMs ∣ ready.cfg.pollBudgetMs := by decide

/-- W4, W5, V22: the last poll the budget allows, for each outcome. -/
theorem test_met_TransmitTraceLengths :
    Config.session.defensive = true ∧ pollsEndIn Config.session (List.replicate 49 0x0E#8 ++ [0x2E#8]) .success ∧
    pollsEndIn Config.session [0x1E#8] .failed ∧ pollsEndIn Config.session (List.replicate 50 0x0E#8) .timedOut := by
  refine ⟨rfl, ⟨List.replicate 49 0x0E#8, 0x2E#8, rfl, ?_, by decide +kernel, by decide, by decide⟩,
    ⟨[], 0x1E#8, rfl, by simp, by decide +kernel, by decide⟩, ?_, by decide +kernel⟩ <;>
  · intro q hq
    obtain rfl := List.eq_of_mem_replicate hq
    exact ⟨by decide, by decide⟩

/-- Other packings of SETUP_RETR are other parameters (D3). -/
theorem test_setupRetr_packing :
    setupRetrVal { Config.session with bits := { Config.bits with ard := 0, arc := 4 } } = 0xF1#8 ∧
    Config.session.bits = Config.bits := by decide +kernel

theorem test_met_TransmittingStage :
    State.reset.resetAt = none ∧ State.reset.shadow = none ∧ ready.resetAt = none ∧ ready.shadow = some 0x0F#8 := by decide

/-- The status bytes of each clause, and the last and the first quantum of the budget. -/
theorem test_met_PollIterationDecides :
    ({ ready with budget := some 10 } : State).budget = some 10 ∧ ({ ready with budget := some 500 } : State).budget = some 500 ∧
    (0x3E#8 &&& bit Config.session.bits.maxRt ≠ 0#8) ∧ (0x2E#8 &&& bit Config.session.bits.maxRt = 0#8) ∧
    (0x2E#8 &&& bit Config.session.bits.txDs ≠ 0#8) ∧ (0x4F#8 &&& bit Config.session.bits.maxRt = 0#8) ∧
    (0x4F#8 &&& bit Config.session.bits.txDs = 0#8) := by decide

/-- The two ends of the last clause: the budget used up, and one quantum more. -/
theorem test_poll_budget_ends :
    (match pollOnce { answering [0x0E#8] with budget := some 10 } with
      | .on left t => (left, t.budget, t.outcome) | .stop _ | .fault _ => (false, none, none)) =
      (true, some 0, some .timedOut) ∧
    (match pollOnce { answering [0x0E#8] with budget := some 20 } with
      | .on left t => (left, t.budget, t.outcome) | .stop _ | .fault _ => (true, none, none)) =
      (false, some 10, none) := by decide +kernel

theorem test_met_CleanupStage :
    ({ ready with outcome := some .timedOut, shadow := some 0x0E#8 } : State).outcome = some .timedOut ∧
    ({ ready with outcome := some .timedOut, shadow := some 0x0E#8 } : State).shadow = some 0x0E#8 ∧
    ready.resetAt = none := by decide

theorem test_met_ConfigWritesKeepPowerUp : Config.session.bits.pwrUp ≠ Config.session.bits.primRx := by decide

theorem test_met_TransmitFaultsOnUnwrittenShadow :
    ({ ready with shadow := none } : State).busy = none ∧ ({ ready with shadow := none } : State).initialized = true ∧
    ({ ready with shadow := none } : State).shadow = none ∧ 8 = ready.cfg.payloadLen ∧ 8 ≤ buf.len := by decide

theorem test_met_Receive :
    memWf ready.mem = true ∧ ready.busy = none ∧ ready.initialized = true ∧ ready.resetAt = none ∧
    8 = ready.cfg.payloadLen ∧ 8 ≤ (Buf.mk 68 8).len ∧ (left (exec (.receive 8 ⟨68, 8⟩) ready)).isSome = true := by
  decide +kernel

theorem test_met_ReceiveDrainsReferenceRadio :
    ({ radio with rxFifo := [[1#8, 2#8, 3#8, 4#8, 5#8, 6#8, 7#8, 8#8]] } : Radio).rxFifo =
      [[1#8, 2#8, 3#8, 4#8, 5#8, 6#8, 7#8, 8#8]] ∧ [1#8, 2#8, 3#8, 4#8, 5#8, 6#8, 7#8, 8#8].length = 8 := by decide

/-- The bytes at both ends of the buffer, and the bytes just outside it. -/
theorem test_receive_edges :
    (left (exec (.receive 8 ⟨68, 8⟩) { ready with radio := { radio with
      rxFifo := [[11#8, 12#8, 13#8, 14#8, 15#8, 16#8, 17#8, 18#8]] } })).map
      (fun t => [67, 68, 75, 76].map (memRead t.mem)) = some [4#8, 11#8, 18#8, 0#8] := by decide +kernel

theorem test_met_CheckByInterruptLine :
    ready.busy = none ∧ ready.initialized = true ∧ ready.resetAt = none ∧ ready.cfg.drMethod = .irqLine ∧
    (left (exec .checkDataReady { ready with radio := { radio with levels := [.low] } })).isSome = true := by decide +kernel

theorem test_met_CheckByStatusPoll :
    ({ ready with cfg := { Config.session with drMethod := .statusPoll } } : State).cfg.drMethod = .statusPoll := rfl

theorem test_met_StatusWriteClearsOnes :
    decodeCommand Config.session 0x27#8 = .wRegister (Config.session.reg.status &&& Config.session.addrMask) ∧
    0xE7#8 &&& ready.cfg.addrMask = ready.cfg.reg.status &&& ready.cfg.addrMask ∧ ready.radio.link = .idle := by decide

theorem test_met_RegisterRoundTrip :
    ready.initialized = true ∧ (0x05#8 &&& ready.cfg.addrMask ≠ ready.cfg.reg.status &&& ready.cfg.addrMask) ∧
    (0x05#8 &&& ready.cfg.addrMask ≠ ready.cfg.reg.config &&& ready.cfg.addrMask) ∧
    1 ≤ regWidth ready.cfg (0x05#8 &&& ready.cfg.addrMask) ∧ 1 ≤ regWidth ready.cfg (0x10#8 &&& ready.cfg.addrMask) := by
  decide

/-- The second clause: the last byte of an address register. -/
theorem test_met_RegisterRoundTrip_any_radio :
    decodeCommand Config.session 0x30#8 = .wRegister 0x10#8 ∧ decodeCommand Config.session 0x10#8 = .rRegister 0x10#8 ∧
    0x10#8 ∈ regNums Config.session ∧ (0x10#8 ≠ Config.session.reg.status &&& Config.session.addrMask) ∧
    [1#8, 2#8, 3#8, 4#8, 5#8].length = regWidth Config.session 0x10#8 ∧ Radio.powerOn.answers = [] ∧
    [0xFF#8, 0xFF#8, 0xFF#8, 0xFF#8].length < [1#8, 2#8, 3#8, 4#8, 5#8].length ∧
    5 = regWidth Config.session 0x10#8 ∧ regWidth Config.session 0x05#8 = 1 := by decide

theorem test_met_WireCommands :
    ready.resetAt = none ∧ 1 ≤ ready.cfg.payloadLen ∧ 1 ≤ [0x4C#8].length ∧
    (List.replicate 8 0x4C#8).length = ready.cfg.payloadLen ∧ cmdOk ready.cfg = true := by decide +kernel

/-- STATUS of the reference radio, as the statement of the status poll has it. -/
theorem test_met_CheckByStatusPoll_value : ready.radio.reg ready.cfg (statusNum ready.cfg) = [0x0E#8] := by decide +kernel

theorem test_met_AddressRoundTrip : 1 ≤ ready.cfg.addrWidth ∧ ready.cfg.addrWidth ≤ (Buf.mk 64 5).len := by decide

theorem test_met_StepRunsDecoded :
    ready.resetAt ≠ some 0 ∧ ready.bench = none ∧
    decode ready.cfg (.request ⟨0x00000701#32, noBuf⟩) = .ok (.readReg 0x07#8) ∧
    decode ready.cfg (.frame ⟨0xE1#8, []⟩) = .ok .flushTx ∧
    decode ready.cfg (tableWords ready.cfg 8 0x61) = .ok .rRxPayload := by decide

theorem test_met_StepWaitsOrRefuses :
    ready.resetAt ≠ some 0 ∧ ready.bench = none ∧ ready.port = [] ∧ ready.busy = none ∧
    decode ready.cfg (.request ⟨0x00000008#32, noBuf⟩) = .rejected .wfOp := by decide

theorem test_met_SystemReset : ({ ready with resetAt := some 0 } : State).resetAt = some 0 := rfl

/-- A reset after as many events as `READ_REG` has comes after it, one event earlier within it. -/
theorem test_met_SystemResetCutsOperation :
    (left (exec (.readReg 0x07#8) { ready with resetAt := some 5 })).map (fun t => (t.resetAt, t.initialized)) =
      some (some 0, true) ∧
    (left (exec (.readReg 0x07#8) { ready with resetAt := some 4 })).map (fun t => (t.resetAt, t.initialized)) =
      some (none, false) := by decide +kernel

theorem test_met_StepKeeps :
    (left (step ready)).isSome = true ∧ memWf ready.mem = true ∧
    (left (step { ready with port := [⟨0x08000006#32, buf⟩] })).map (·.marks) = some [] := by decide +kernel

theorem test_met_OnlyNamedInstructionsWriteFields :
    ready.resetAt = none ∧ (left (exec .checkDataReady ready)).isSome = true ∧ (left (exec .init ready)).isSome = true := by
  decide +kernel

theorem test_inv_after_init : Inv afterInit := by
  refine ⟨rfl, ⟨rfl, rfl, rfl, rfl, rfl, rfl⟩, ?_, by decide +kernel, by decide +kernel, by decide +kernel⟩
  unfold configured
  rw [if_pos (show afterInit.initialized = true from rfl)]
  exact ⟨test_session_ok.1, by decide, rfl, rfl⟩

/-- A request in a state that meets the invariant: the step runs it. -/
theorem test_met_StepKeepsInv :
    Inv { afterInit with port := [⟨0x00000701#32, noBuf⟩] } ∧ regAddrsOk afterInit.cfg = true ∧
    0 < afterInit.cfg.payloadLen ∧
    (left (step { afterInit with port := [⟨0x00000701#32, noBuf⟩] })).isSome = true :=
  ⟨test_inv_after_init, by decide +kernel, by decide, by decide +kernel⟩

end Sys2Proof.Tests
end

section
/-! PROOFS. The step as its cases: what is fetched is run (R48, R110), and what a step that answers a next state did. -/

namespace Sys2Proof.Proofs

open Sys2Proof.Machine Sys2Proof.Laws

section
variable {s t : State}

/-- A request at the head of the port is taken out and executed (R48). -/
theorem step_of_request {r : Request} {rest : List Request} {i : Instr} (h0 : s.resetAt ≠ some 0) (hb : s.bench = none)
    (hp : s.port = r :: rest) (hd : decode s.cfg (.request r) = .ok i) : step s = exec i { s with port := rest } := by
  simp [step, fetch, fetchRequest, h0, hb, hp, hd]

/-- A frame in the bench slot is taken out and executed (log 5). -/
theorem step_of_frame {f : Frame} {i : Instr} (h0 : s.resetAt ≠ some 0) (hb : s.bench = some f)
    (hd : decode s.cfg (.frame f) = .ok i) : step s = exec i { s with bench := none } := by
  simp [step, fetch, fetchFrame, h0, hb, hd]

/-- What a step from `s` that answers `t` did. -/
inductive Stepped (s t : State) : Prop where
  | reset (h0 : s.resetAt = some 0) (ht : t = systemReset s)
  | frame (f : Frame) (i : Instr) (h0 : s.resetAt ≠ some 0) (hb : s.bench = some f)
      (hd : decode s.cfg (.frame f) = .ok i) (hx : exec i { s with bench := none } = .next t)
  | waited (h0 : s.resetAt ≠ some 0) (hb : s.bench = none) (hp : s.port = []) (ht : t = s)
  | request (r : Request) (rest : List Request) (i : Instr) (h0 : s.resetAt ≠ some 0) (hb : s.bench = none)
      (hp : s.port = r :: rest) (hd : decode s.cfg (.request r) = .ok i) (hx : exec i { s with port := rest } = .next t)
  | refused (r : Request) (rest : List Request) (q : Reject) (h0 : s.resetAt ≠ some 0) (hb : s.bench = none)
      (hp : s.port = r :: rest) (hd : decode s.cfg (.request r) = .rejected q) (hi : s.busy = none)
      (ht : t = refuse .wfOp (.raw r) { s with port := rest })

/-- Every step that answers a next state is one of the five. -/
theorem step_stepped (h : step s = .next t) : Stepped s t := by
  by_cases h0 : s.resetAt = some 0
  · exact .reset h0 (by simpa [step, fetch, h0] using h.symm)
  cases hb : s.bench with
  | some f =>
    cases hd : decode s.cfg (.frame f) with
    | ok i => exact .frame f i h0 hb hd (step_of_frame h0 hb hd ▸ h)
    | rejected q => simp [step, fetch, fetchFrame, h0, hb, hd] at h
  | none =>
    cases hp : s.port with
    | nil => exact .waited h0 hb hp (by simpa [step, fetch, h0, hb, hp] using h.symm)
    | cons r rest =>
      cases hd : decode s.cfg (.request r) with
      | ok i => exact .request r rest i h0 hb hp hd (step_of_request h0 hb hp hd ▸ h)
      | rejected q =>
        cases hi : s.busy with
        | some op => simp [step, fetch, fetchRequest, h0, hb, hp, hd, hi] at h
        | none =>
          exact .refused r rest q h0 hb hp hd hi
            (by simpa [step, fetch, fetchRequest, h0, hb, hp, hd, hi] using h.symm)
end

/-- Settles O40: a request or a frame is taken out and executed, and `withFetchWord` places one of the two. -/
theorem stepRunsDecoded : Obligations.StepRunsDecoded := by
  refine ⟨fun s r rest i h0 hb hp hd => step_of_request h0 hb hp hd, fun s f i h0 hb hd => step_of_frame h0 hb hd,
    fun s nbits w i hd => ?_⟩
  unfold State.withFetchWord
  generalize tableWords s.cfg nbits w = ws at hd ⊢
  cases ws with
  | request r => exact step_of_request (by simp [placeWords]) rfl rfl hd
  | frame f => exact step_of_frame (by simp [placeWords]) rfl hd

end Sys2Proof.Proofs
end

section
/-! PROOFS. What no step undoes, a reset of the system included: the parameters (R10), the form of the host's memory
(log 8), the marks and the results (R221, log 17). -/

namespace Sys2Proof.Proofs

open Sys2Proof.Machine Sys2Proof.Laws

/-- What `t` still has of `s`, however many resets of the system lie between them. -/
structure Persists (s t : State) : Prop where
  cfg       : t.cfg = s.cfg
  memWf     : memWf s.mem = true → memWf t.mem = true
  marks     : s.marks <+: t.marks
  responses : s.responses <+: t.responses

section
variable {s t u : State}

theorem Persists.refl (s : State) : Persists s s := ⟨rfl, id, List.prefix_rfl, List.prefix_rfl⟩

theorem Persists.trans (h : Persists s t) (h' : Persists t u) : Persists s u :=
  ⟨h'.cfg.trans h.cfg, fun m => h'.memWf (h.memWf m), h.marks.trans h'.marks, h.responses.trans h'.responses⟩

theorem persists_of_kept (h : Kept s t) : Persists s t :=
  ⟨h.cfg, h.memWf, h.marks ▸ List.prefix_rfl, h.responses ▸ List.prefix_rfl⟩

theorem persists_setPort (rest : List Request) (s : State) : Persists s { s with port := rest } :=
  ⟨rfl, id, List.prefix_rfl, List.prefix_rfl⟩

theorem persists_clearBench (s : State) : Persists s { s with bench := none } :=
  ⟨rfl, id, List.prefix_rfl, List.prefix_rfl⟩

theorem persists_refuse (k : Check) (q : Asked) (s : State) : Persists s (refuse k q s) :=
  ⟨rfl, id, List.prefix_append _ _, List.prefix_rfl⟩

theorem persists_respond (p : Response) (s : State) : Persists s (respond p s) :=
  ⟨rfl, id, List.prefix_rfl, List.prefix_append _ _⟩

theorem persists_systemReset (s : State) : Persists s (systemReset s) := ⟨rfl, id, List.prefix_rfl, List.prefix_rfl⟩

/-- An instruction is refused, answered after events that touch none of the four, or reset after such events. -/
theorem exec_persists {i : Instr} (h : exec i s = .next t) : Persists s t := by
  obtain ⟨k, -, rfl⟩ | ⟨es, u, p, hu, rfl⟩ | ⟨es, u, hu, -, rfl⟩ := exec_executed h
  · exact persists_refuse k _ s
  · exact (persists_of_kept hu.kept).trans (persists_respond p u)
  · exact (persists_of_kept hu.kept).trans (persists_systemReset u)

theorem step_persists (h : step s = .next t) : Persists s t := by
  cases step_stepped h with
  | reset _ ht => exact ht ▸ persists_systemReset s
  | frame _ _ _ _ _ hx => exact (persists_clearBench s).trans (exec_persists hx)
  | waited _ _ _ ht => exact ht ▸ Persists.refl s
  | request _ rest _ _ _ _ _ hx => exact (persists_setPort rest s).trans (exec_persists hx)
  | refused _ rest _ _ _ _ _ _ ht => exact ht ▸ (persists_setPort rest s).trans (persists_refuse _ _ _)
end

/-- Settles O48: only `RECEIVE` writes memory, and a buffer write keeps the canonical form. -/
theorem stepKeepsMemoryForm : Obligations.StepKeepsMemoryForm := fun _ _ hm h => (step_persists h).memWf hm

/-- Settles O45. -/
theorem stepKeepsCfg : Obligations.StepKeepsCfg := fun _ _ h => (step_persists h).cfg

end Sys2Proof.Proofs
end

section
/-! PROOFS. Refusals (R221), and the check of `Cfg` in the spec's own words (R11, R12, R103, R153). -/

namespace Sys2Proof.Proofs

open Sys2Proof.Machine Sys2Proof.Laws

/-- A wire command has no check; a host operation is refused by the frame it runs in. -/
theorem exec_refused {s : State} {i : Instr} {k : Check} (hb : s.busy = none) (hk : failedCheck i s = some k) :
    exec i s = .next (refuse k (.op i) s) := by
  cases i with
  | rRegister | wRegister | rRxPayload | wTxPayload | flushTx | flushRx | nop => simp [failedCheck] at hk
  | init | readReg | writeReg | readRegMulti | writeRegMulti | transmit | receive | checkDataReady =>
    simp only [exec, execInit, execReadReg, execWriteReg, execReadRegMulti, execWriteRegMulti, execTransmit, execReceive,
      execCheckDataReady]
    exact hostOp_refused hb hk

/-- Settles O11. -/
theorem refusalOnlyMarks : Obligations.RefusalOnlyMarks := fun _ _ _ hb hk => exec_refused hb hk

/-- The byte range of a register command is the command with every address up to the mask (R103). -/
theorem forall_mem_cmdRange {c : Cfg} {op : Byte} {P : Byte → Prop} :
    (∀ x ∈ cmdRange c op, P x) ↔ ∀ a : Byte, a ≤ c.addrMask → P (op ||| a) := by
  constructor
  · intro h a ha
    exact h _ (List.mem_map.mpr ⟨a.toNat, List.mem_range.mpr (Nat.lt_succ_of_le ha), by simp⟩)
  · intro h x hx
    obtain ⟨n, hn, rfl⟩ := List.mem_map.mp hx
    have hle : n ≤ c.addrMask.toNat := Nat.le_of_lt_succ (List.mem_range.mp hn)
    exact h _ (by simpa [BitVec.le_def] using (Nat.mod_le n _).trans hle)

theorem distinctBytes_iff_nodup : ∀ bs : List Byte, distinctBytes bs = true ↔ bs.Nodup
  | [] => by simp [distinctBytes]
  | b :: bs => by
    have hb : (∀ x ∈ bs, ¬ b = x) ↔ b ∉ bs := ⟨fun h hm => h b hm rfl, fun h x hx hbx => h (hbx ▸ hx)⟩
    simp [distinctBytes, distinctBytes_iff_nodup bs, hb]

/-- R103 (a) to (d), over all addresses within the mask. -/
theorem cmdOk_iff (c : Cfg) : cmdOk c = true ↔
    c.cmd.rRegister &&& c.addrMask = 0#8 ∧ c.cmd.wRegister &&& c.addrMask = 0#8 ∧
    (∀ a b : Byte, a ≤ c.addrMask → b ≤ c.addrMask → c.cmd.rRegister ||| a ≠ c.cmd.wRegister ||| b) ∧
    (∀ a f : Byte, a ≤ c.addrMask → f ∈ fixBytes c → c.cmd.rRegister ||| a ≠ f ∧ c.cmd.wRegister ||| a ≠ f) ∧
    (fixBytes c).Nodup := by
  simp only [cmdOk, cmdFieldsOk, Bool.and_eq_true, beq_iff_eq, disjointBytes_iff, forall_mem_cmdRange,
    distinctBytes_iff_nodup]
  constructor
  · rintro ⟨⟨⟨⟨⟨hr, hw⟩, hrw⟩, hrf⟩, hwf⟩, hd⟩
    exact ⟨hr, hw, fun a b ha hb => hrw a ha b hb, fun a f ha hf => ⟨hrf a ha f hf, hwf a ha f hf⟩, hd⟩
  · rintro ⟨hr, hw, hrw, hf, hd⟩
    exact ⟨⟨⟨⟨⟨hr, hw⟩, fun a ha b hb => hrw a b ha hb⟩, fun a ha f hm => (hf a f ha hm).1⟩,
      fun a ha f hm => (hf a f ha hm).2⟩, hd⟩

/-- The causes of `REF_CFG` (R221): R11, R12, R153, R103. -/
theorem cfgOk_iff (c : Cfg) : cfgOk c = true ↔
    c.rxAddr = c.txAddr ∧ 0 < c.pollBudgetMs ∧ 0 < c.pollQuantumMs ∧ c.pollQuantumMs ∣ c.pollBudgetMs ∧
    c.retrDelay ≤ 15 ∧ c.retrCount ≤ 15 ∧ cmdOk c = true := by
  simp [cfgOk, addrPairOk, pollOk, retryOk, Nat.dvd_iff_mod_eq_zero, and_assoc]

/-- Settles O14. -/
theorem cfgCheckSaysTheRules : Obligations.CfgCheckSaysTheRules := fun c => by
  rw [cfgOk_iff, cmdOk_iff, fixBytes]

/-- Settles O15: each cause contradicts one part of the check, so `INIT` is refused by it. -/
theorem initRefusesIllFormedCfg : Obligations.InitRefusesIllFormedCfg := by
  intro s hb hbad
  have hc : ¬ cfgOk s.cfg = true := by
    rw [cfgOk_iff]
    rintro ⟨ha, hbud, hq, hdvd, hdel, hcnt, hcmd⟩
    obtain h | h | h | h | h | h | h := hbad
    · exact h ha
    · omega
    · omega
    · exact h hdvd
    · omega
    · omega
    · simp [hcmd] at h
  exact exec_refused hb (if_neg hc)

end Sys2Proof.Proofs
end

section
/-! PROOFS. `RECEIVE` and the host's memory (R200). -/

namespace Sys2Proof.Proofs

open Sys2Proof.Machine Sys2Proof.Safety Sys2Proof.Laws

/-- An accepted host operation that answers a next state, where no reset arrives: its body went on, and it was released
and answered (R36, R48). -/
theorem hostOp_answered {op : HostOp} {i : Instr} {s t : State} {body : State → Flow Response}
    {P : Response → State → Prop} (h : hostOp op i s body = .next t) (hr : s.resetAt = none) (hc : failedCheck i s = none)
    (hd : Does (accept op s) (body (accept op s)) P) : ∃ p u, t = respond p (release u) ∧ P p u := by
  have hb : s.busy = none := by
    cases hb : s.busy with
    | none => rfl
    | some o => simp [hostOp, hb] at h
  obtain ⟨p, u, hx, hp⟩ | ⟨hs, -⟩ := hostOp_does hb hc hd
  · exact ⟨p, u, Host.Outcome.next.inj (h.symm.trans hx), hp⟩
  · simp [hr] at hs

/-- A request of `PAYLOAD_LEN` bytes with room for them passes every check of `RECEIVE` (R111). -/
theorem failedCheck_receive {s : State} {n : Nat} {buf : Buf} (hi : s.initialized = true) (hn : n = s.cfg.payloadLen)
    (hl : n ≤ buf.len) : failedCheck (.receive n buf) s = none := by
  simp [failedCheck, failsInitFirst, failsPayloadLen, failsBuf, hi, ← hn, hl]

/-- Where no reset arrives, an accepted `RECEIVE` stores the bytes its payload read returned, in its trace, and changes
memory by that alone. -/
theorem execReceive_trace_mem {s t : State} {n : Nat} {buf : Buf} (hr : s.resetAt = none)
    (hc : failedCheck (.receive n buf) s = none) (h : exec (.receive n buf) s = .next t) :
    ∃ d : List Byte, d.length = n ∧ t.trace = s.trace ++ receiveTrace s.cfg d ∧ t.mem = bufWrite s.mem buf d := by
  simp only [exec, execReceive] at h
  obtain ⟨p, u, rfl, d, r, hd, -, rfl⟩ := hostOp_answered h hr hc (receiveBody_does n buf (accept .receive s))
  exact ⟨d, hd, rfl, rfl⟩

/-- Settles O29. -/
theorem receiveStoresOnlyItsBuffer : Obligations.ReceiveStoresOnlyItsBuffer := by
  intro s t n buf hm hr hi hn hl h
  obtain ⟨d, rfl, htrace, hmem⟩ := execReceive_trace_mem hr (failedCheck_receive hi hn hl) h
  refine ⟨d, rfl, ⟨regWriteTrace s.cfg s.cfg.reg.status [mRxDr s.cfg] ++
    (if s.cfg.defensive then commandTrace s.cfg.cmd.flushTx else []), ?_⟩, fun a ha => ?_, fun i hi => ?_⟩
  · simp [htrace, receiveTrace]
  · rw [hmem, memRead_bufWrite_outside buf d a hm ha]
  · rw [hmem, memRead_bufWrite_inside buf d i hm hi]

end Sys2Proof.Proofs
end

section
/-! PROOFS. What a host operation does (R36, R48, R221): the checks it passes, and the three ways it ends, with the events
and the fields of each operation. -/

namespace Sys2Proof.Proofs

open Sys2Proof.Machine Sys2Proof.Safety Sys2Proof.Laws

/-- A check that answers none passes, and so do the ones after it. -/
theorem some_else_eq_none {α : Type} {p : Prop} [Decidable p] {k : α} {x : Option α} :
    (if p then some k else x) = none ↔ ¬ p ∧ x = none := by by_cases h : p <;> simp [h]

section
variable (s : State) (a v : Byte) (n : Nat) (buf : Buf)

/-! The requests that pass every check (R111, R226). -/

theorem failedCheck_init_none : failedCheck .init s = none ↔ cfgOk s.cfg = true := by simp [failedCheck]

theorem failedCheck_readReg_none : failedCheck (.readReg a) s = none ↔ s.initialized = true := by
  simp [failedCheck, failsInitFirst]

theorem failedCheck_writeReg_none : failedCheck (.writeReg a v) s = none ↔
    s.initialized = true ∧ regNum s.cfg a ≠ regNum s.cfg s.cfg.reg.config := by
  simp only [failedCheck, some_else_eq_none]
  simp [failsInitFirst, failsNoConfigWrite]

theorem failedCheck_readRegMulti_none : failedCheck (.readRegMulti a n) s = none ↔
    s.initialized = true ∧ 1 ≤ n ∧ n ≤ s.cfg.addrWidth := by
  simp only [failedCheck, some_else_eq_none]
  simp [failsInitFirst, failsMultiLen, Nat.one_le_iff_ne_zero]

theorem failedCheck_writeRegMulti_none : failedCheck (.writeRegMulti a n buf) s = none ↔
    s.initialized = true ∧ (1 ≤ n ∧ n ≤ s.cfg.addrWidth) ∧ n ≤ buf.len ∧
      regNum s.cfg a ≠ regNum s.cfg s.cfg.reg.config := by
  simp only [failedCheck, some_else_eq_none]
  simp [failsInitFirst, failsMultiLen, failsBuf, failsNoConfigWrite, Nat.one_le_iff_ne_zero]

theorem failedCheck_transmit_none : failedCheck (.transmit n buf) s = none ↔
    s.initialized = true ∧ n = s.cfg.payloadLen ∧ n ≤ buf.len := by
  simp only [failedCheck, some_else_eq_none]
  simp [failsInitFirst, failsPayloadLen, failsBuf]

theorem failedCheck_receive_none : failedCheck (.receive n buf) s = none ↔
    s.initialized = true ∧ n = s.cfg.payloadLen ∧ n ≤ buf.len := by
  simp only [failedCheck, some_else_eq_none]
  simp [failsInitFirst, failsPayloadLen, failsBuf]

theorem failedCheck_checkDataReady_none : failedCheck .checkDataReady s = none ↔ s.initialized = true := by
  simp [failedCheck, failsInitFirst]
end

/-- What the body of a host operation begun in `s` does: its events, and `s` with the plain fields it writes. -/
inductive HostRan (s : State) : Instr → List Event → State → Prop where
  | init : HostRan s .init (initTrace s.cfg) { s with shadow := some (configIdle s.cfg), initialized := true }
  | readReg (a b : Byte) : HostRan s (.readReg a) (regReadTrace s.cfg a [b]) s
  | writeReg (a v : Byte) : HostRan s (.writeReg a v) (regWriteTrace s.cfg a [v]) s
  | readRegMulti (a : Byte) (d : List Byte) : HostRan s (.readRegMulti a d.length) (regReadTrace s.cfg a d) s
  | writeRegMulti (a : Byte) (n : Nat) (buf : Buf) :
    HostRan s (.writeRegMulti a n buf) (regWriteTrace s.cfg a (bufRead s.mem buf n)) s
  | transmit (n : Nat) (buf : Buf) (v : Byte) (sts : List Byte) (hv : s.shadow = some v) :
    HostRan s (.transmit n buf) (transmitTrace s.cfg (bufRead s.mem buf n) v sts) { s with
      shadow := some (primRxOn s.cfg (primRxOff s.cfg v))
      phase := .idle
      status := none
      budget := none
      outcome := none }
  | receive (buf : Buf) (d : List Byte) :
    HostRan s (.receive d.length buf) (receiveTrace s.cfg d) { s with mem := bufWrite s.mem buf d }
  | irqLine (l : Level) : HostRan s .checkDataReady [.irq l] s
  | statusPoll (b : Byte) : HostRan s .checkDataReady (regReadTrace s.cfg s.cfg.reg.status [b]) s

/-- How a host operation that answers the next state `t` ended: refused with a mark, answered after its body, or cut by a
reset of the system. -/
inductive HostEnded (i : Instr) (s t : State) : Prop where
  | refused (k : Check) (hc : failedCheck i s = some k) (ht : t = refuse k (.op i) s)
  | answered (es : List Event) (a : State) (r : Radio) (p : Response) (hc : failedCheck i s = none)
      (ha : HostRan s i es a) (ht : t = respond p (release (ran es r a)))
  | reset (hr : s.resetAt.isSome = true) (u : State) (ht : t = systemReset u)

section
variable {s t : State} {i : Instr}

/-- A host operation ends in one of the three ways when its body does what `HostRan` says. -/
theorem hostOp_ended {op : HostOp} {body : State → Flow Response} (h : hostOp op i s body = .next t)
    (hd : failedCheck i s = none → Does (accept op s) (body (accept op s)) fun _ u =>
      ∃ es a r, HostRan s i es a ∧ release u = release (ran es r a)) : HostEnded i s t := by
  cases hb : s.busy with
  | some o => simp [hostOp, hb] at h
  | none =>
    cases hc : failedCheck i s with
    | some k => exact .refused k hc (Host.Outcome.next.inj (h.symm.trans (hostOp_refused hb hc)))
    | none =>
      obtain ⟨p, u, hx, es, a, r, ha, hu⟩ | ⟨hr, u, hx⟩ := hostOp_does hb hc (hd hc)
      · exact .answered es a r p hc ha (hu ▸ Host.Outcome.next.inj (h.symm.trans hx))
      · exact .reset hr u (Host.Outcome.next.inj (h.symm.trans hx))

/-- Every host operation ends in one of the three ways; `TRANSMIT` under a well-formed `Cfg` with the shadow written, since
it faults without (R222, log 11). -/
theorem exec_hostEnded (hop : RequestOp.code i ≠ none)
    (htx : ∀ n buf, i = .transmit n buf → failedCheck i s = none → cfgOk s.cfg = true ∧ ∃ v, s.shadow = some v)
    (h : exec i s = .next t) : HostEnded i s t := by
  cases i with
  | rRegister | wRegister | rRxPayload | wTxPayload | flushTx | flushRx | nop => exact absurd rfl hop
  | init =>
    simp only [exec, execInit] at h
    refine hostOp_ended h fun _ => (initBody_does _).mono fun p u hu => ?_
    obtain ⟨-, rfl⟩ := hu
    exact ⟨_, _, _, .init, rfl⟩
  | readReg a =>
    simp only [exec, execReadReg] at h
    refine hostOp_ended h fun _ => (regRead_does a _).bind fun b u hu => does_on rfl ?_
    obtain ⟨r, rfl⟩ := hu
    exact ⟨_, _, r, .readReg a b, rfl⟩
  | writeReg a v =>
    simp only [exec, execWriteReg] at h
    refine hostOp_ended h fun _ => (regWrite_does a v _).bind fun _ u hu => does_on rfl ?_
    subst hu
    exact ⟨_, _, _, .writeReg a v, rfl⟩
  | readRegMulti a n =>
    simp only [exec, execReadRegMulti] at h
    refine hostOp_ended h fun _ => (readFrame_does _ n _).bind fun d u hu => does_on rfl ?_
    obtain ⟨rfl, r, rfl⟩ := hu
    exact ⟨_, _, r, .readRegMulti a d, rfl⟩
  | writeRegMulti a n buf =>
    simp only [exec, execWriteRegMulti] at h
    refine hostOp_ended h fun _ => (regWriteN_does a _ _).bind fun _ u hu => does_on rfl ?_
    subst hu
    exact ⟨_, _, _, .writeRegMulti a n buf, rfl⟩
  | transmit n buf =>
    simp only [exec, execTransmit] at h
    refine hostOp_ended h fun hc => ?_
    obtain ⟨hcfg, v, hv⟩ := htx n buf rfl hc
    obtain ⟨hb, hq, hd⟩ := cfgOk_poll hcfg
    refine (transmitBody_does (s := accept .transmit s) n buf hv hb hq hd).mono fun _ u hu => ?_
    obtain ⟨sts, o, r, -, -, rfl⟩ := hu
    exact ⟨_, _, r, .transmit n buf v sts hv, rfl⟩
  | receive n buf =>
    simp only [exec, execReceive] at h
    refine hostOp_ended h fun _ => (receiveBody_does n buf _).mono fun _ u hu => ?_
    obtain ⟨d, r, rfl, -, rfl⟩ := hu
    exact ⟨_, _, r, .receive buf d, rfl⟩
  | checkDataReady =>
    simp only [exec, execCheckDataReady] at h
    refine hostOp_ended h fun _ => ?_
    split
    · refine (readIrq_does _).bind fun l u hu => does_on rfl ?_
      obtain ⟨r, rfl⟩ := hu
      exact ⟨_, _, r, .irqLine l, rfl⟩
    · refine (regRead_does _ _).bind fun b u hu => does_on rfl ?_
      obtain ⟨r, rfl⟩ := hu
      exact ⟨_, _, r, .statusPoll b, rfl⟩
end

end Sys2Proof.Proofs
end

section
/-! PROOFS. The invariant of the controller over a step (R30, R33, R36, R42, R254, R255, R260): what an operation begun
between operations leaves, and what its events leave of the bus. -/

namespace Sys2Proof.Proofs

open Sys2Proof.Machine Sys2Proof.Safety Sys2Proof.Laws

/-- PRIM_RX is on in the value `INIT` leaves in CONFIG (R160), so turning it off and on again gives that value back. -/
theorem primRxOn_primRxOff_configIdle (c : Cfg) : primRxOn c (primRxOff c (configIdle c)) = configIdle c := by
  apply BitVec.eq_of_getLsbD_eq
  intro i hi
  simp only [primRxOn, primRxOff, configIdle, BitVec.getLsbD_or, BitVec.getLsbD_and, BitVec.getLsbD_not, hi, decide_true,
    Bool.true_and]
  cases (bit c.bits.primRx).getLsbD i <;> simp

theorem bufRead_ne_nil {m : List Host.Cell} {b : Buf} {n : Nat} (hn : 1 ≤ n) : bufRead m b n ≠ [] := by
  simp [bufRead]; omega

section
variable {s t a : State} {i : Instr} {es : List Event}

/-- The history agrees where the checker stands outside every bracket with chip-enable and the shadow as the state has them. -/
theorem historyAgrees_iff : historyAgrees s ↔ check s.cfg s.trace = idleAt s.ce s.shadow true := by
  unfold historyAgrees traceOk lastConfigSent idleAt
  generalize check s.cfg s.trace = m
  cases m
  simp only [Bool.and_eq_true, beq_iff_eq, Monitor.mk.injEq]
  tauto

theorem inv_systemReset (s : State) : Inv (systemReset s) :=
  ⟨rfl, ⟨rfl, rfl, rfl, rfl, rfl, rfl⟩, ⟨rfl, rfl, rfl, rfl⟩, rfl, rfl, rfl⟩

theorem inv_setPort (h : Inv s) (rest : List Request) : Inv { s with port := rest } := h

theorem inv_refuse (h : Inv s) (k : Check) (q : Asked) : Inv (refuse k q s) := h

/-- Once `INIT` has completed the shadow and the pins hold their idle values. -/
theorem idle_of_inv (h : Inv s) (hi : s.initialized = true) :
    cfgOk s.cfg = true ∧ s.shadow = some (configIdle s.cfg) ∧ s.csn = some .deasserted ∧ s.ce = some .low := by
  obtain ⟨-, -, hc, -⟩ := h
  rwa [configured, if_pos hi] at hc

/-- What the invariant needs of an accepted host operation: but for its events it leaves `s` configured, with at most
memory written, and its events leave both pins idle and pass the checker, CONFIG holding its idle value. -/
structure Works (s : State) (es : List Event) (a : State) : Prop where
  cfg    : cfgOk s.cfg = true
  state  : ∃ m, a = { s with shadow := some (configIdle s.cfg), initialized := true, mem := m }
  csn    : es.foldl (fun v e => csnAfter e v) s.csn = some .deasserted
  ce     : es.foldl (fun v e => ceAfter e v) s.ce = some .low
  passes : checked s.cfg (idleAt s.ce s.shadow true) es = idleAt (some .low) (some (configIdle s.cfg)) true

/-- Events that drive no pin but chip-select, and pass the checker as they find it. -/
structure Passing (c : Cfg) (es : List Event) : Prop where
  csn    : es.foldl (fun v e => csnAfter e v) (some .deasserted) = some .deasserted
  ce     : ∀ v, es.foldl (fun v e => ceAfter e v) v = v
  passes : ∀ ce v ok, checked c (idleAt ce v ok) es = idleAt ce v ok

/-- An operation whose events pass, and which writes at most memory. -/
theorem Works.of_passing (h : Inv s) (hi : s.initialized = true) (hp : Passing s.cfg es) (m : List Host.Cell) :
    Works s es { s with mem := m } := by
  obtain ⟨hc, hv, hcsn, hce⟩ := idle_of_inv h hi
  exact ⟨hc, ⟨m, by rw [← hv, ← hi]⟩, by rw [hcsn, hp.csn], by rw [hp.ce, hce], by rw [hp.passes, hce, hv]⟩

theorem passing_regRead {c : Cfg} (hc : cmdOk c = true) (a : Byte) {d : List Byte} (hd : d ≠ []) :
    Passing c (regReadTrace c a d) :=
  ⟨readTrace_csn .., readTrace_ce c _ d, fun _ _ _ => checks_regReadTrace hc _ _ _ a hd⟩

theorem passing_regWrite {c : Cfg} (hc : cmdOk c = true) {a : Byte} (ha : regNum c a ≠ regNum c c.reg.config)
    {d : List Byte} (hd : d ≠ []) : Passing c (regWriteTrace c a d) :=
  ⟨writeTrace_csn .., writeTrace_ce _ d, fun _ _ _ => checks_regWriteTrace hc _ _ _ ha hd⟩

theorem passing_receive {c : Cfg} (hc : cmdOk c = true) (ha : regAddrsOk c = true) {d : List Byte} (hd : d ≠ []) :
    Passing c (receiveTrace c d) :=
  ⟨receiveTrace_csn .., receiveTrace_ce c d, checks_receiveTrace hc ha hd⟩

theorem passing_irq (c : Cfg) (l : Level) : Passing c [.irq l] :=
  ⟨rfl, fun _ => rfl, fun _ _ _ => by simp [checked, idleAt, Monitor.next]⟩

/-- Every accepted host operation begun under the invariant works. -/
theorem HostRan.works (hr : HostRan s i es a) (h : Inv s) (ha : regAddrsOk s.cfg = true) (hl : 0 < s.cfg.payloadLen)
    (hc : failedCheck i s = none) : Works s es a := by
  have hcmd : s.initialized = true → cmdOk s.cfg = true := fun hi => cfgOk_cmdOk (idle_of_inv h hi).1
  cases hr with
  | init =>
    have hok := (failedCheck_init_none s).mp hc
    exact ⟨hok, ⟨s.mem, rfl⟩, initTrace_csn .., initTrace_ce .., checks_initTrace (cfgOk_cmdOk hok) ha ..⟩
  | readReg r b =>
    have hi := (failedCheck_readReg_none s r).mp hc
    exact .of_passing h hi (passing_regRead (hcmd hi) r (by simp)) s.mem
  | writeReg r v =>
    obtain ⟨hi, hr⟩ := (failedCheck_writeReg_none s r v).mp hc
    exact .of_passing h hi (passing_regWrite (hcmd hi) hr (by simp)) s.mem
  | readRegMulti r d =>
    obtain ⟨hi, hn, -⟩ := (failedCheck_readRegMulti_none s r _).mp hc
    exact .of_passing h hi (passing_regRead (hcmd hi) r (List.length_pos_iff.mp hn)) s.mem
  | writeRegMulti r n buf =>
    obtain ⟨hi, ⟨hn, -⟩, -, hr⟩ := (failedCheck_writeRegMulti_none s r n buf).mp hc
    exact .of_passing h hi (passing_regWrite (hcmd hi) hr (bufRead_ne_nil hn)) s.mem
  | transmit n buf v sts hv =>
    obtain ⟨hi, hn, -⟩ := (failedCheck_transmit_none s n buf).mp hc
    obtain ⟨hok, hv', -, hce⟩ := idle_of_inv h hi
    obtain ⟨-, ⟨-, -, hph, hst, hbu, ho⟩, -, -⟩ := h
    obtain rfl : v = configIdle s.cfg := Option.some.inj (hv.symm.trans hv')
    refine ⟨hok, ⟨s.mem, ?_⟩, transmitTrace_csn .., transmitTrace_ce .., ?_⟩
    · rw [primRxOn_primRxOff_configIdle, ← hph, ← hst, ← hbu, ← ho, ← hi]
    · rw [hce, checks_transmitTrace (hcmd hi) ha (bufRead_ne_nil (by omega)), primRxOn_primRxOff_configIdle]
  | receive buf d =>
    obtain ⟨hi, hn, -⟩ := (failedCheck_receive_none s _ buf).mp hc
    exact .of_passing h hi (passing_receive (hcmd hi) ha (List.length_pos_iff.mp (by omega))) _
  | irqLine l => exact .of_passing h ((failedCheck_checkDataReady_none s).mp hc) (passing_irq _ l) s.mem
  | statusPoll b =>
    have hi := (failedCheck_checkDataReady_none s).mp hc
    exact .of_passing h hi (passing_regRead (hcmd hi) _ (by simp)) s.mem

/-- An operation that works is released and answered in a state that meets the invariant again. -/
theorem Works.inv (hw : Works s es a) (h : Inv s) (r : Radio) (p : Response) :
    Inv (respond p (release (ran es r a))) := by
  obtain ⟨hb, ⟨-, -, hph, hst, hbu, ho⟩, -, hh⟩ := h
  obtain ⟨hok, ⟨m, rfl⟩, hcsn, hce, hck⟩ := hw
  refine ⟨hb, ⟨rfl, rfl, hph, hst, hbu, ho⟩, ⟨hok, rfl, hcsn, hce⟩, historyAgrees_iff.mpr ?_⟩
  calc check s.cfg (s.trace ++ es)
      = checked s.cfg (idleAt s.ce s.shadow true) es := by rw [check_append, historyAgrees_iff.mp hh]
    _ = idleAt (es.foldl (fun v e => ceAfter e v) s.ce) (some (configIdle s.cfg)) true := by rw [hck, hce]

/-- Every host operation keeps the invariant: it is refused, works, or is cut by a reset of the system. -/
theorem exec_keeps_inv (h : Inv s) (ha : regAddrsOk s.cfg = true) (hl : 0 < s.cfg.payloadLen)
    (hop : RequestOp.code i ≠ none) (hx : exec i s = .next t) : Inv t := by
  have htx : ∀ n buf, i = .transmit n buf → failedCheck i s = none → cfgOk s.cfg = true ∧ ∃ v, s.shadow = some v := by
    rintro n buf rfl hc
    obtain ⟨hok, hv, -⟩ := idle_of_inv h ((failedCheck_transmit_none s n buf).mp hc).1
    exact ⟨hok, _, hv⟩
  cases exec_hostEnded hop htx hx with
  | refused k hc ht => exact ht ▸ inv_refuse h k _
  | answered es a r p hc hr ht => exact ht ▸ (hr.works h ha hl hc).inv h r p
  | reset _ u ht => exact ht ▸ inv_systemReset u
end

/-- A request decodes to a host operation (R110). -/
theorem code_of_decodeRequest {r : Request} {i : Instr} (h : decodeRequest r = .ok i) : RequestOp.code i ≠ none := by
  unfold decodeRequest at h
  split at h <;> cases h <;> simp [RequestOp.code]

/-- Settles O49: a step is a reset, a wait, a refusal or a host operation, and each keeps the invariant. -/
theorem stepKeepsInv : Obligations.StepKeepsInv := by
  intro s t ha hl h hx
  cases step_stepped hx with
  | reset _ ht => exact ht ▸ inv_systemReset s
  | frame f i _ hb _ _ => rw [h.1] at hb; cases hb
  | waited _ _ _ ht => exact ht ▸ h
  | request r rest i _ _ _ hd hx => exact exec_keeps_inv (inv_setPort h rest) ha hl (code_of_decodeRequest hd) hx
  | refused r rest _ _ _ _ _ _ ht => exact ht ▸ inv_refuse (inv_setPort h rest) .wfOp (.raw r)

end Sys2Proof.Proofs
end

section
/-! PROOFS. Two completions: `TRANSMIT`'s Transmitting stage and its fault on an unwritten shadow (R34, R177,
R178, R222), and `CHECK_DATA_READY` by the interrupt line (R203). -/

namespace Sys2Proof.Proofs

open Sys2Proof.Machine Sys2Proof.Safety Sys2Proof.Laws

/-- An accepted host operation whose body faults. -/
theorem hostOp_fault {op : HostOp} {i : Instr} {s : State} {body : State → Flow Response} {f : Fault}
    (hb : s.busy = none) (hc : failedCheck i s = none) (h : body (accept op s) = .fault f) :
    hostOp op i s body = .fault f := by simp [hostOp, hb, hc, h, conclude]

/-- Transmitting reads the shadow first (R34). -/
theorem txStarting_unwritten {s : State} (hv : s.shadow = none) : txStarting s = .fault (.unwritten .shadow) := by
  rw [txStarting, hv, readField_none, bind_fault]

/-- Settles O22: the shadow is read, written to CONFIG without PRIM_RX, and chip-enable driven. -/
theorem transmittingStage : Obligations.TransmittingStage := by
  refine fun s hr => ⟨txStarting_unwritten, fun v hv => ?_⟩
  obtain ⟨_, t, hx, rfl⟩ := (txStarting_does hv).of_none hr
  refine ⟨hearAll s.cfg (startingTrace s.cfg v) s.radio, ?_⟩
  rw [hx]
  simp [after, ran, startingTrace, regWriteTrace, writeTrace, csnAfter, ceAfter, primRxOff, hr]

/-- Settles O26: neither stage before Transmitting writes the shadow. -/
theorem transmitFaultsOnUnwrittenShadow : Obligations.TransmitFaultsOnUnwrittenShadow := by
  intro s n buf hb hi hr hn hl hv
  rw [exec, execTransmit]
  refine hostOp_fault hb ((failedCheck_transmit_none s n buf).mpr ⟨hi, hn, hl⟩) ?_
  obtain ⟨_, t, hx, ht⟩ := (txFlushing_does (accept .transmit s)).of_none hr
  have hrt : t.resetAt = none := by simp [ht, hr]
  obtain ⟨_, u, hy, hu⟩ := (txLoading_does n buf t).of_none hrt
  have hvu : u.shadow = none := by rw [hu, ht]; exact hv
  rw [hx, bind_on, hy, bind_on, txStarting_unwritten hvu, bind_fault]

/-- Settles O31: the operation is one sample of the line. -/
theorem checkByInterruptLineCompletes : Obligations.CheckByInterruptLineCompletes := by
  intro s hb hi hr hm
  obtain ⟨l, r, hx⟩ := readIrq_eq (s := accept .checkDataReady s) hr
  refine ⟨l, r, ?_⟩
  rw [exec, execCheckDataReady, hostOp_next (t := ran [.irq l] r (accept .checkDataReady s)) (p := .ready (decide (l = .low)))
    hb ((failedCheck_checkDataReady_none s).mpr hi) (by
      rw [accept_cfg, hm]; simp only [hx, bind_on, beq_eq_decide])]
  simp [respond, release, ran, accept, csnAfter, ceAfter, hb, hr]

end Sys2Proof.Proofs
end

section
/-! PROOFS. Who writes what (R31, R35, R37 to R40, R164, R176, R200), where no reset of the system arrives. -/

namespace Sys2Proof.Proofs

open Sys2Proof.Machine Sys2Proof.Safety Sys2Proof.Laws

/-- Events that do not drive chip-enable. -/
def NoCe (es : List Event) : Prop := ∀ v, Event.ce v ∉ es

theorem noCe_readTrace (c : Cfg) (cmd : Byte) (d : List Byte) : NoCe (readTrace c cmd d) := fun v => by simp [readTrace]

theorem noCe_writeTrace (cmd : Byte) (d : List Byte) : NoCe (writeTrace cmd d) := fun v => by simp [writeTrace]

theorem noCe_commandTrace (cmd : Byte) : NoCe (commandTrace cmd) := fun v => by simp [commandTrace]

theorem noCe_receiveTrace (c : Cfg) (d : List Byte) : NoCe (receiveTrace c d) := fun v => by
  unfold receiveTrace
  split <;> simp [regWriteTrace, noCe_readTrace c _ d v, noCe_writeTrace _ _ v, noCe_commandTrace _ v]

theorem NoCe.foldl_ceAfter {es : List Event} (h : NoCe es) (v : Option Level) :
    es.foldl (fun v e => ceAfter e v) v = v := by
  induction es with
  | nil => rfl
  | cons e es ih =>
    have he : ceAfter e v = v := by
      cases e with
      | ce w => exact absurd List.mem_cons_self (h w)
      | csn | x | settle | sleep | irq => rfl
    rw [List.foldl_cons, he]
    exact ih fun w hw => h w (List.mem_cons_of_mem _ hw)

/-- From `s` to `t` the shadow, chip-enable, the transmit machine's fields and `initialized` are not written (R31, R164, R37,
R35, R38 to R40). -/
structure Undriven (s t : State) : Prop where
  shadow      : t.shadow = s.shadow
  ce          : t.ce = s.ce
  trace       : ∃ es, t.trace = s.trace ++ es ∧ NoCe es
  phase       : t.phase = s.phase
  status      : t.status = s.status
  budget      : t.budget = s.budget
  outcome     : t.outcome = s.outcome
  initialized : t.initialized = s.initialized

section
variable {s t : State} {i : Instr} {es : List Event}

theorem undriven_refuse (k : Check) (q : Asked) (s : State) : Undriven s (refuse k q s) :=
  ⟨rfl, rfl, ⟨[], by simp, fun v => by simp⟩, rfl, rfl, rfl, rfl, rfl⟩

/-- A wire command whose transaction does not drive chip-enable. -/
theorem wireOp_undriven {α : Type} {x : State → Flow α} {p : α → Response}
    (h : wireOp s (fun s => (x s).bind fun a s => .on (p a) s) = .next t) (hr : s.resetAt = none)
    (hd : Does s (x s) fun _ u => ∃ es r, NoCe es ∧ u = ran es r s) : Undriven s t ∧ t.mem = s.mem := by
  obtain ⟨a, u, hx, es, r, hes, rfl⟩ := hd.of_none hr
  obtain rfl := Host.Outcome.next.inj ((wireOp_next (p := p a) (by rw [hx, bind_on])).symm.trans h)
  exact ⟨⟨rfl, hes.foldl_ceAfter s.ce, ⟨es, rfl, hes⟩, rfl, rfl, rfl, rfl, rfl⟩, rfl⟩

/-- Every wire command is one transaction, and NOP one exchange. -/
theorem exec_wire_undriven (hw : RequestOp.code i = none) (hr : s.resetAt = none) (h : exec i s = .next t) :
    Undriven s t ∧ t.mem = s.mem := by
  cases i with
  | init | readReg | writeReg | readRegMulti | writeRegMulti | transmit | receive | checkDataReady => cases hw
  | rRegister a n =>
    simp only [exec, execRRegister] at h
    exact wireOp_undriven h hr ((readFrame_does _ n s).mono fun _ _ ⟨_, r, hu⟩ => ⟨_, r, noCe_readTrace _ _ _, hu⟩)
  | wRegister a d =>
    simp only [exec, execWRegister] at h
    exact wireOp_undriven h hr ((writeFrame_does _ d s).mono fun _ _ hu => ⟨_, _, noCe_writeTrace _ _, hu⟩)
  | rRxPayload =>
    simp only [exec, execRRxPayload] at h
    exact wireOp_undriven h hr ((readFrame_does _ _ s).mono fun _ _ ⟨_, r, hu⟩ => ⟨_, r, noCe_readTrace _ _ _, hu⟩)
  | wTxPayload d =>
    simp only [exec, execWTxPayload] at h
    exact wireOp_undriven h hr ((writeFrame_does _ d s).mono fun _ _ hu => ⟨_, _, noCe_writeTrace _ _, hu⟩)
  | flushTx =>
    simp only [exec, execFlushTx] at h
    exact wireOp_undriven h hr ((command_does _ s).mono fun _ _ hu => ⟨_, _, noCe_commandTrace _, hu⟩)
  | flushRx =>
    simp only [exec, execFlushRx] at h
    exact wireOp_undriven h hr ((command_does _ s).mono fun _ _ hu => ⟨_, _, noCe_commandTrace _, hu⟩)
  | nop =>
    simp only [exec, execNop] at h
    exact wireOp_undriven h hr ((xferKeep_does _ 1 s).mono fun _ _ ⟨r, hu⟩ => ⟨_, r, fun v => by simp, hu⟩)

/-- A host operation that is neither `INIT` nor `TRANSMIT` runs events that do not drive chip-enable and writes at most
memory, which only `RECEIVE` does. -/
theorem HostRan.quiet {a : State} (ha : HostRan s i es a) (hi : i ≠ .init) (htx : ∀ n buf, i ≠ .transmit n buf) :
    NoCe es ∧ ∃ m, a = { s with mem := m } ∧ ((∀ n buf, i ≠ .receive n buf) → m = s.mem) := by
  cases ha with
  | init => exact absurd rfl hi
  | transmit n buf => exact absurd rfl (htx n buf)
  | receive buf d => exact ⟨noCe_receiveTrace _ d, _, rfl, fun h => absurd rfl (h _ buf)⟩
  | readReg | readRegMulti | statusPoll => exact ⟨noCe_readTrace _ _ _, s.mem, rfl, fun _ => rfl⟩
  | writeReg | writeRegMulti => exact ⟨noCe_writeTrace _ _, s.mem, rfl, fun _ => rfl⟩
  | irqLine l => exact ⟨fun v => by simp, s.mem, rfl, fun _ => rfl⟩

/-- Only `INIT` and `TRANSMIT` write the shadow, drive chip-enable, or write what the transmit machine and `INIT` keep; only
`RECEIVE` writes memory beside. -/
theorem exec_undriven (hr : s.resetAt = none) (hi : i ≠ .init) (htx : ∀ n buf, i ≠ .transmit n buf)
    (h : exec i s = .next t) : Undriven s t ∧ ((∀ n buf, i ≠ .receive n buf) → t.mem = s.mem) := by
  by_cases hw : RequestOp.code i = none
  · obtain ⟨hu, hm⟩ := exec_wire_undriven hw hr h
    exact ⟨hu, fun _ => hm⟩
  cases exec_hostEnded hw (fun n buf hin => absurd hin (htx n buf)) h with
  | refused k _ ht => exact ht ▸ ⟨undriven_refuse k _ s, fun _ => rfl⟩
  | answered es a r p _ ha ht =>
    obtain ⟨hes, m, rfl, hm⟩ := ha.quiet hi htx
    subst ht
    exact ⟨⟨rfl, hes.foldl_ceAfter s.ce, ⟨es, rfl, hes⟩, rfl, rfl, rfl, rfl, rfl⟩, hm⟩
  | reset hs => simp [hr] at hs

/-- `INIT` writes neither the transmit machine's fields nor memory, and leaves `initialized` set where it was (R37). -/
theorem execInit_frame (hr : s.resetAt = none) (h : exec .init s = .next t) :
    (t.phase = s.phase ∧ t.status = s.status ∧ t.budget = s.budget ∧ t.outcome = s.outcome) ∧
    (s.initialized = true → t.initialized = true) ∧ t.mem = s.mem := by
  cases exec_hostEnded (i := .init) (by decide) (fun _ _ hin => by cases hin) h with
  | refused k _ ht => exact ht ▸ ⟨⟨rfl, rfl, rfl, rfl⟩, id, rfl⟩
  | answered es a r p _ ha ht =>
    cases ha
    exact ht ▸ ⟨⟨rfl, rfl, rfl, rfl⟩, fun _ => rfl, rfl⟩
  | reset hs => simp [hr] at hs
end

section
variable {s : State}

/-- A piece of `TRANSMIT` begun in `s` with no reset to come: where it goes on, `initialized` and the host's memory are as
they were. It may fault, since nothing is asked of `Cfg` or the shadow. -/
def KeepsHost {α : Type} (s : State) : Flow α → Prop
  | .on _ t  => t.initialized = s.initialized ∧ t.mem = s.mem ∧ t.resetAt = none
  | .stop _  => False
  | .fault _ => True

theorem KeepsHost.bind {α β : Type} {x : Flow α} {k : α → State → Flow β} (hx : KeepsHost s x)
    (hk : ∀ a t, t.resetAt = none → KeepsHost t (k a t)) : KeepsHost s (x.bind k) := by
  cases x with
  | fault f => trivial
  | stop t => exact hx.elim
  | on a t =>
    obtain ⟨hi, hm, hr⟩ := hx
    have hy := hk a t hr
    rw [bind_on]
    cases hz : k a t with
    | fault f => trivial
    | stop u => rw [hz] at hy; exact hy.elim
    | on b u =>
      rw [hz] at hy
      obtain ⟨hi', hm', hr'⟩ := hy
      exact ⟨hi'.trans hi, hm'.trans hm, hr'⟩

theorem keepsHost_of_does {α : Type} {x : Flow α} {P : α → State → Prop} (hr : s.resetAt = none) (h : Does s x P)
    (hp : ∀ a t, P a t → t.initialized = s.initialized ∧ t.mem = s.mem) : KeepsHost s x := by
  obtain ⟨a, t, rfl, ht, hat⟩ | ⟨hs, -⟩ := h
  · obtain ⟨hi, hm⟩ := hp a t hat
    exact ⟨hi, hm, by simpa [hr] using ht⟩
  · simp [hr] at hs

theorem keepsHost_readField {α : Type} (f : Field) (v : Option α) (hr : s.resetAt = none) :
    KeepsHost s (readField f v s) := by
  cases v with
  | none => trivial
  | some a => exact ⟨rfl, rfl, hr⟩

theorem keepsHost_emit (e : Event) (hr : s.resetAt = none) : KeepsHost s (emit e s) :=
  keepsHost_of_does hr (emit_does e s) fun _ _ h => h ▸ ⟨rfl, rfl⟩

theorem keepsHost_writeConfig (v : Byte) (hr : s.resetAt = none) : KeepsHost s (writeConfig v s) :=
  keepsHost_of_does hr (writeConfig_does v s) fun _ _ h => h ▸ ⟨rfl, rfl⟩

theorem keepsHost_txStarting (hr : s.resetAt = none) : KeepsHost s (txStarting s) :=
  KeepsHost.bind (keepsHost_readField (s := { s with phase := .transmitting }) .shadow s.shadow hr) fun _ _ ht =>
    (keepsHost_writeConfig _ ht).bind fun _ _ hu => keepsHost_emit _ hu

/-- The poll loop, whatever its fuel. -/
theorem keepsHost_pollLoop : ∀ (fuel : Nat) (s : State) (b : Int), s.resetAt = none → s.budget = some b →
    KeepsHost s (pollLoop fuel s)
  | 0, _, _, _, _ => trivial
  | fuel + 1, s, b, hr, hb => by
    obtain ⟨left, t, hx, st, r, -, rfl⟩ := (pollOnce_does hb).of_none hr
    rw [pollLoop, hx, bind_on]
    cases left with
    | true => exact ⟨rfl, rfl, by simp [hr]⟩
    | false => exact keepsHost_pollLoop fuel _ _ (by simp [hr]) rfl

theorem keepsHost_txPolling (hr : s.resetAt = none) : KeepsHost s (txPolling s) :=
  keepsHost_pollLoop _ { s with phase := .polling, budget := some (s.cfg.pollBudgetMs : Int) } _ hr rfl

theorem keepsHost_txCleanup (hr : s.resetAt = none) : KeepsHost s (txCleanup s) :=
  (keepsHost_readField .outcome s.outcome hr).bind fun o t ht =>
    KeepsHost.bind (keepsHost_emit (s := { t with phase := .done o, budget := none }) (.ce .low) ht) fun _ u hu =>
      (keepsHost_readField .shadow u.shadow hu).bind fun _ _ hv => keepsHost_writeConfig _ hv

theorem keepsHost_txReturn (hr : s.resetAt = none) : KeepsHost s (txReturn s) :=
  (keepsHost_readField .outcome s.outcome hr).bind fun _ _ ht => ⟨rfl, rfl, ht⟩

/-- `TRANSMIT` does not write `initialized` or the host's memory, which it only reads (R176). -/
theorem execTransmit_keepsHost {t : State} {n : Nat} {buf : Buf} (hr : s.resetAt = none)
    (h : exec (.transmit n buf) s = .next t) : t.initialized = s.initialized ∧ t.mem = s.mem := by
  have hbody : KeepsHost (accept .transmit s) ((txFlushing (accept .transmit s)).bind fun _ s =>
      (txLoading n buf s).bind fun _ s => (txStarting s).bind fun _ s => (txPolling s).bind fun _ s =>
      (txCleanup s).bind fun _ s => txReturn s) :=
    (keepsHost_of_does (s := accept .transmit s) hr (txFlushing_does _) fun _ _ h => h ▸ ⟨rfl, rfl⟩).bind fun _ t ht =>
    (keepsHost_of_does ht (txLoading_does n buf t) fun _ _ h => h ▸ ⟨rfl, rfl⟩).bind fun _ _ hu =>
    (keepsHost_txStarting hu).bind fun _ _ hv => (keepsHost_txPolling hv).bind fun _ _ hw =>
    (keepsHost_txCleanup hw).bind fun _ _ hz => keepsHost_txReturn hz
  simp only [exec, execTransmit, hostOp] at h
  split at h
  · cases h
  split at h
  next => cases h; exact ⟨rfl, rfl⟩
  next =>
    generalize (txFlushing (accept .transmit s)).bind _ = x at hbody h
    cases x with
    | fault f => cases h
    | stop u => exact hbody.elim
    | on p u =>
      obtain ⟨hi, hm, -⟩ := hbody
      cases h
      exact ⟨hi, hm⟩
end

/-- Settles O47: by instruction, `TRANSMIT`, `INIT`, and the rest. -/
theorem onlyNamedInstructionsWriteFields : Obligations.OnlyNamedInstructionsWriteFields := by
  intro s t i hr h
  by_cases htx : ∃ n buf, i = .transmit n buf
  · obtain ⟨n, buf, rfl⟩ := htx
    obtain ⟨hi, hm⟩ := execTransmit_keepsHost hr h
    exact ⟨fun _ h => absurd rfl (h n buf), fun h => absurd rfl (h n buf), fun _ => hi, hi.trans, fun _ => hm⟩
  by_cases hin : i = .init
  · subst hin
    obtain ⟨htr, hi, hm⟩ := execInit_frame hr h
    exact ⟨fun h => absurd rfl h, fun _ => htr, fun h => absurd rfl h, hi, fun _ => hm⟩
  obtain ⟨hu, hm⟩ := exec_undriven hr hin (fun n buf he => htx ⟨n, buf, he⟩) h
  exact ⟨fun _ _ => ⟨hu.shadow, hu.ce, hu.trace⟩, fun _ => ⟨hu.phase, hu.status, hu.budget, hu.outcome⟩,
    fun _ => hu.initialized, hu.initialized.trans, hm⟩

end Sys2Proof.Proofs
end

section
/-! PROOFS. Register command bytes (R71, R101 to R103), and what the host's register operations and `RECEIVE` leave in the
radio and read back from it (R77, R78, R88). -/

namespace Sys2Proof.Proofs

open Sys2Proof.Machine Sys2Proof.Safety Sys2Proof.Laws

/-- Settles O4: a register command has no bit in the address field. -/
theorem registerCommandKeepsClass : Obligations.RegisterCommandKeepsClass := by
  intro c hc op addr hop
  have hf : op &&& c.addrMask = 0#8 := by
    rcases hop with rfl | rfl
    · exact (cmdOk_fields hc).1
    · exact (cmdOk_fields hc).2
  exact ⟨rfl, regCmd_field hf addr, regCmd_class hf addr⟩

/-! The register numbers are told apart (D2). -/

theorem distinctBytes_iff {xs : List Byte} : distinctBytes xs = true ↔ xs.Nodup := by
  induction xs with
  | nil => simp [distinctBytes]
  | cons x xs ih => simp [distinctBytes, ih, List.forall_mem_ne]

theorem regNums_nodup {c : Cfg} (h : regAddrsOk c = true) : (regNums c).Nodup := distinctBytes_iff.mp h

/-- The addresses of the registers of R44 one byte wide. -/
def byteRegs (c : Cfg) : List Byte :=
  [c.reg.config, c.reg.enAa, c.reg.enRxaddr, c.reg.setupAw, c.reg.setupRetr, c.reg.rfCh, c.reg.rfSetup, c.reg.status,
    c.reg.rxPwP0]

/-- The addresses of the registers of R44 but for STATUS. -/
def otherRegs (c : Cfg) : List Byte :=
  [c.reg.config, c.reg.enAa, c.reg.enRxaddr, c.reg.setupAw, c.reg.setupRetr, c.reg.rfCh, c.reg.rfSetup, c.reg.rxPwP0,
    c.reg.rxAddrP0, c.reg.rxAddrP1, c.reg.txAddr]

/-- Two lists of register addresses that make up those of R44 have no number in common and none twice. -/
theorem regNums_split {c : Cfg} (h : regAddrsOk c = true) {l l' : List Byte}
    (hc : ∀ b, (regNums c).count b = (l.map (regNum c)).count b + (l'.map (regNum c)).count b) :
    (l'.map (regNum c)).Nodup ∧ ∀ a ∈ l, ∀ b ∈ l', regNum c a ≠ regNum c b := by
  have hp : (regNums c).Perm (l.map (regNum c) ++ l'.map (regNum c)) :=
    List.perm_iff_count.mpr fun b => (hc b).trans List.count_append.symm
  obtain ⟨-, hn, hd⟩ := List.nodup_append.mp (hp.nodup_iff.mp (regNums_nodup h))
  exact ⟨hn, fun a ha b hb => hd _ (List.mem_map_of_mem ha) _ (List.mem_map_of_mem hb)⟩

theorem regWidth_byteRegs {c : Cfg} (h : regAddrsOk c = true) : ∀ a ∈ byteRegs c, regWidth c (regNum c a) = 1 := by
  intro a ha
  have hne := (regNums_split h (l := byteRegs c) (l' := [c.reg.txAddr, c.reg.rxAddrP0, c.reg.rxAddrP1]) fun b => by
    simp only [regNums, byteRegs, List.map_cons, List.map_nil, List.count_cons, List.count_nil]
    ac_rfl).2 a ha
  simp only [List.forall_mem_cons] at hne
  simp [regWidth, isAddrReg, hne]

theorem otherRegs_ne_status {c : Cfg} (h : regAddrsOk c = true) : ∀ a ∈ otherRegs c, regNum c a ≠ statusNum c :=
  fun a ha => (regNums_split h (l := otherRegs c) (l' := [c.reg.status]) fun b => by
    simp only [regNums, otherRegs, List.map_cons, List.map_nil, List.count_cons, List.count_nil]
    ac_rfl).2 a ha _ (List.mem_singleton_self _)

/-- STATUS, CONFIG and TX_ADDR have three numbers. -/
theorem status_config_txAddr_ne {c : Cfg} (h : regAddrsOk c = true) :
    regNum c c.reg.status ≠ regNum c c.reg.config ∧ regNum c c.reg.txAddr ≠ regNum c c.reg.config ∧
    regNum c c.reg.txAddr ≠ regNum c c.reg.status := by
  have hc := (List.nodup_cons.mp (regNums_nodup h)).1
  exact ⟨fun e => hc (e ▸ List.mem_map_of_mem (by simp)), fun e => hc (e ▸ List.mem_map_of_mem (by simp)),
    otherRegs_ne_status h _ (by simp [otherRegs])⟩

/-! What an accepted register operation does, where no reset of the system arrives. -/

/-- The state that an operation with no result leaves after the events `es` (R36, R48). -/
def completed (es : List Event) (s : State) : State := respond .done (release (after es s))

section
variable (es : List Event) (s : State)

@[simp] theorem completed_cfg : (completed es s).cfg = s.cfg := rfl
@[simp] theorem completed_busy : (completed es s).busy = none := rfl
@[simp] theorem completed_initialized : (completed es s).initialized = s.initialized := rfl
@[simp] theorem completed_mem : (completed es s).mem = s.mem := rfl
@[simp] theorem completed_responses : (completed es s).responses = s.responses ++ [.done] := rfl
@[simp] theorem completed_radio : (completed es s).radio = hearAll s.cfg es s.radio := rfl
@[simp] theorem completed_resetAt : (completed es s).resetAt = s.resetAt.map (· - es.length) := rfl
end

section
variable {s : State} (hb : s.busy = none)
include hb

/-- An accepted host operation whose body runs some events and writes no plain field: released and answered (R36, R48). -/
theorem hostOp_ran {op : HostOp} {i : Instr} {body : State → Flow Response} {es : List Event} {r : Radio} {p : Response}
    (hc : failedCheck i s = none) (h : body (accept op s) = .on p (ran es r (accept op s))) :
    hostOp op i s body = .next (respond p (release (ran es r s))) :=
  hostOp_next (t := ran es r (accept op s)) hb hc h

variable (hr : s.resetAt = none)
include hr

theorem exec_writeReg_completed {a v : Byte} (hc : failedCheck (.writeReg a v) s = none) :
    exec (.writeReg a v) s = .next (completed (regWriteTrace s.cfg a [v]) s) := by
  rw [exec, execWriteReg]
  exact hostOp_ran hb hc (by rw [regWrite_eq (by exact hr), bind_on]; rfl)

theorem exec_writeRegMulti_completed {a : Byte} {n : Nat} {buf : Buf}
    (hc : failedCheck (.writeRegMulti a n buf) s = none) :
    exec (.writeRegMulti a n buf) s = .next (completed (regWriteTrace s.cfg a (bufRead s.mem buf n)) s) := by
  rw [exec, execWriteRegMulti]
  exact hostOp_ran hb hc (by rw [regWriteN_eq (by exact hr), bind_on]; rfl)

variable (hi : s.initialized = true) (hq : Quiet s.radio) (hk : cmdOk s.cfg = true)
include hi hq hk

/-- `READ_REG` from the reference radio answers the first byte the register holds. -/
theorem exec_readReg_stored {a v : Byte} {rest : List Byte} (hv : s.radio.reg s.cfg (regNum s.cfg a) = v :: rest) :
    exec (.readReg a) s =
      .next (respond (.byte v) (release (ran (regReadTrace s.cfg a [v]) { s.radio with link := .idle } s))) := by
  rw [exec, execReadReg]
  exact hostOp_ran hb ((failedCheck_readReg_none s a).mpr hi) (by
    rw [regRead_stored (by exact hr) (by exact hq) (by exact hk) (by exact hv), bind_on]; rfl)

/-- `READ_REG_MULTI` of as many bytes as the register holds, from the reference radio, answers those bytes. -/
theorem exec_readRegMulti_stored {a : Byte} {n : Nat} (hl : (s.radio.reg s.cfg (regNum s.cfg a)).length = n)
    (hn : 1 ≤ n ∧ n ≤ s.cfg.addrWidth) : exec (.readRegMulti a n) s =
      .next (respond (.bytes (s.radio.reg s.cfg (regNum s.cfg a)))
        (release (ran (regReadTrace s.cfg a (s.radio.reg s.cfg (regNum s.cfg a))) { s.radio with link := .idle } s))) := by
  rw [exec, execReadRegMulti]
  exact hostOp_ran hb ((failedCheck_readRegMulti_none s a n).mpr ⟨hi, hn⟩) (by
    rw [readRegister_stored (by exact hr) (by exact hq) (by exact hk) a (by exact hl), bind_on]; rfl)
end

/-! STATUS (R77). -/

/-- The end of a one-byte W_REGISTER transaction on STATUS, in a radio of either kind. -/
theorem status_finish {c : Cfg} {cmd : Byte} (h : decodeCommand c cmd = .wRegister (statusNum c)) (r : Radio) (v : Byte) :
    (r.finish c cmd [v]).status c = writeOneToClear c (r.status c) v := by
  simp [Radio.finish, h, Radio.clearFlags]

/-- Settles O37: both clauses are write-1-to-clear read bit by bit. -/
theorem statusWriteClearsOnes : Obligations.StatusWriteClearsOnes := by
  refine ⟨fun c r cmd v i h => by rw [status_finish h, flagSet_writeOneToClear],
    fun s a v hb hi hr hcfg hreg hq _ ha => ?_⟩
  have ha' : regNum s.cfg a = statusNum s.cfg := ha
  have hc : regNum s.cfg a ≠ regNum s.cfg s.cfg.reg.config := ha' ▸ (status_config_txAddr_ne hreg).1
  refine ⟨_, exec_writeReg_completed hb hr ((failedCheck_writeReg_none s a v).mpr ⟨hi, hc⟩), ?_⟩
  rw [completed_radio, hearAll_statusWrite (cfgOk_cmdOk hcfg) hq ha']
  refine ⟨fun i => ?_, fun b hne => ?_, rfl, rfl⟩
  · rw [status_link, ← Radio.setStatus, status_setStatus, flagSet_writeOneToClear]
  · rw [reg_link, reg_setReg, if_neg (by exact hne)]

/-! Reading back what was written (R78, R88). -/

/-- A write of its own width is stored whole by a radio of either kind (R78(b)). -/
theorem store_of_width {c : Cfg} {r : Radio} {a : Byte} {d : List Byte} (h : d.length = regWidth c a) :
    r.store c a d = r.setReg a d := by
  cases hk : r.kind with
  | free => simp [Radio.store, hk, h]
  | reference => simp [Radio.store, hk, List.take_left' h]

/-- A radio of either kind answers from what the register holds a read of a register of R44 at its width, or of one byte's
width at any length (R78(b), R136). -/
theorem bound_of_width {c : Cfg} {r : Radio} {a : Byte} {n : Nat} (ha : a ∈ regNums c)
    (hn : n = regWidth c a ∨ regWidth c a = 1) : r.bound c a n = true := by
  cases hk : r.kind with
  | free => simpa [Radio.bound, hk, ha] using hn.symm
  | reference => simp [Radio.bound, hk]

/-- The byte a radio with no scripted answer returns where it holds one. -/
theorem answer_of_stored {c : Cfg} {r : Radio} {n : Nat} {b : Byte} (ha : r.answers = []) (hs : r.stored c n = some b) :
    (r.answer c n).1 = b := by simp [Radio.answer, ha, hs, Radio.orDraw]

/-- A byte written to a register of the reference radio other than STATUS is the first it holds (log 12). -/
theorem reg_hearAll_byte {c : Cfg} {r : Radio} (hk : cmdOk c = true) (hq : Quiet r) {a : Byte} (v : Byte)
    (ha : regNum c a ≠ statusNum c) (hw : 1 ≤ regWidth c (regNum c a)) :
    ∃ rest, (hearAll c (regWriteTrace c a [v]) r).reg c (regNum c a) = v :: rest := by
  obtain ⟨w, hw⟩ := Nat.exists_eq_add_of_le' hw
  rw [hearAll_regStore hk hq ha (by simp), reg_link, reg_setReg, if_pos rfl, hw]
  exact ⟨_, rfl⟩

theorem quiet_hearAll_write {c : Cfg} {r : Radio} (hk : cmdOk c = true) (hq : Quiet r) {a : Byte} {d : List Byte}
    (ha : regNum c a ≠ statusNum c) (hd : d ≠ []) : Quiet (hearAll c (regWriteTrace c a d) r) := by
  rw [hearAll_regStore hk hq ha hd]
  exact hq

/-- Settles O38: the reference radio through the two operations, and a radio of either kind through the register itself. -/
theorem registerRoundTrip : Obligations.RegisterRoundTrip := by
  refine ⟨fun s a v hb hi hr hcfg hq hst hcf hw => ?_, fun c r a wcmd rcmd d sent hwc hrc ha hst hd hans n h hn => ?_⟩
  · have hk := cfgOk_cmdOk hcfg
    obtain ⟨rest, hv⟩ := reg_hearAll_byte hk hq v hst hw
    have hread := exec_readReg_stored (s := completed (regWriteTrace s.cfg a [v]) s) rfl (by simp [hr]) hi
      (quiet_hearAll_write hk hq hst (by simp)) hk hv
    refine ⟨_, _, exec_writeReg_completed hb hr ((failedCheck_writeReg_none s a v).mpr ⟨hi, hcf⟩), hread, ?_⟩
    exact List.append_assoc _ [Response.done] [.byte v]
  · have hne : d ≠ [] := List.ne_nil_of_length_pos (Nat.zero_lt_of_lt h)
    have hf : r.finish c wcmd d = r.setReg a d := by
      simp only [Radio.finish, hwc, hne, if_false]
      rw [if_neg (by exact hst), store_of_width hd]
    rw [hf]
    refine answer_of_stored hans ?_
    simp only [Radio.stored, hrc]
    rw [if_pos (bound_of_width ha hn), reg_link, reg_setReg, if_pos rfl, List.getElem?_eq_getElem h]

theorem regWidth_txAddr (c : Cfg) : regWidth c (regNum c c.reg.txAddr) = c.addrWidth := by simp [regWidth, isAddrReg]

/-- Settles O39: TX_ADDR is written at its own width and holds the buffer's bytes. -/
theorem addressRoundTrip : Obligations.AddressRoundTrip := by
  intro s buf hb hi hr hcfg hreg hq hw hl
  obtain ⟨-, hcf, hst⟩ := status_config_txAddr_ne hreg
  have hk := cfgOk_cmdOk hcfg
  have hlen : (bufRead s.mem buf s.cfg.addrWidth).length = s.cfg.addrWidth := bufRead_length _ _ _
  have hd : bufRead s.mem buf s.cfg.addrWidth ≠ [] := List.ne_nil_of_length_pos (by omega)
  have hv : (hearAll s.cfg (regWriteTrace s.cfg s.cfg.reg.txAddr (bufRead s.mem buf s.cfg.addrWidth)) s.radio).reg s.cfg
      (regNum s.cfg s.cfg.reg.txAddr) = bufRead s.mem buf s.cfg.addrWidth := by
    rw [hearAll_regWrite hk hq hst hd (hlen.trans (regWidth_txAddr _).symm), reg_link, reg_setReg, if_pos rfl]
  have hread := exec_readRegMulti_stored (a := s.cfg.reg.txAddr)
    (s := completed (regWriteTrace s.cfg s.cfg.reg.txAddr (bufRead s.mem buf s.cfg.addrWidth)) s)
    rfl (by simp [hr]) hi (quiet_hearAll_write hk hq hst hd) hk ((congrArg List.length hv).trans hlen) ⟨hw, le_rfl⟩
  refine ⟨_, _, exec_writeRegMulti_completed hb hr
    ((failedCheck_writeRegMulti_none s _ _ buf).mpr ⟨hi, ⟨hw, le_rfl⟩, hl, hcf⟩), hread, ?_⟩
  simp [respond, release, hv]

/-! `RECEIVE` on the reference radio (R200 to R202, W6). -/

/-- The events of `RECEIVE` after its payload read (R201, R202). -/
def receiveEndTrace (c : Cfg) : List Event :=
  regWriteTrace c c.reg.status [mRxDr c] ++ (if c.defensive then commandTrace c.cmd.flushTx else [])

/-- What the body of `RECEIVE` does once the payload is stored. -/
theorem receiveEnd_eq {s : State} (hr : s.resetAt = none) :
    ((clearStatus (mRxDr s.cfg) s).bind fun _ s =>
      (if s.cfg.defensive then command s.cfg.cmd.flushTx s else .on () s).bind fun _ s => .on Response.done s) =
    .on .done (after (receiveEndTrace s.cfg) s) := by
  rw [clearStatus, regWrite_eq hr, bind_on, ran_cfg, receiveEndTrace]
  split
  next =>
    rw [command_eq (by simp [hr]), bind_on]
    exact congrArg (Flow.on Response.done) (after_after _ _ s)
  next => rw [bind_on, List.append_nil]; rfl

/-- Clearing RX_DR, and the flush where `DEFENSIVE`, on the reference radio. -/
theorem hearAll_receiveEnd {c : Cfg} {r : Radio} (hk : cmdOk c = true) (hq : Quiet r) :
    (hearAll c (receiveEndTrace c) r).rxFifo = r.rxFifo ∧
    (hearAll c (receiveEndTrace c) r).txFifo = (if c.defensive then [] else r.txFifo) ∧
    (hearAll c (receiveEndTrace c) r).status c = writeOneToClear c (r.status c) (mRxDr c) := by
  rw [receiveEndTrace, hearAll_append, hearAll_statusWrite hk hq rfl]
  split
  next =>
    rw [hearAll_flushTx hk (quiet_setReg hq _ _)]
    exact ⟨rfl, rfl, status_setStatus c r _⟩
  next => exact ⟨rfl, rfl, status_setStatus c r _⟩

/-- An accepted `RECEIVE` that finds a payload of its length at the head of the reference radio's RX FIFO: the payload is
stored, and the radio is without it when the rest of the operation runs. -/
theorem exec_receive_stored {s : State} {buf : Buf} {p : List Byte} {rest : List (List Byte)} (hb : s.busy = none)
    (hr : s.resetAt = none) (hq : Quiet s.radio) (hk : cmdOk s.cfg = true)
    (hc : failedCheck (.receive p.length buf) s = none) (hf : s.radio.rxFifo = p :: rest) (hp : p ≠ []) :
    ∃ t, exec (.receive p.length buf) s = .next t ∧ t.mem = bufWrite s.mem buf p ∧
      t.radio = hearAll s.cfg (receiveEndTrace s.cfg) { s.radio with rxFifo := rest, link := .idle } := by
  rw [exec, execReceive]
  refine ⟨_, hostOp_next (p := .done) (t := after (receiveEndTrace s.cfg)
    { ran (readTrace s.cfg s.cfg.cmd.rRxPayload p) { s.radio with rxFifo := rest, link := .idle } (accept .receive s) with
      mem := bufWrite s.mem buf p }) hb hc ?_, rfl, rfl⟩
  rw [readPayload_stored (by exact hr) (by exact hq) (by exact hk) (by exact hf) hp, bind_on]
  exact receiveEnd_eq (by simp [hr])

/-- Clearing RX_DR clears no other bit (R77): it is one of the three latched flags. -/
theorem writeOneToClear_rxDr (c : Cfg) (st : Byte) : writeOneToClear c st (mRxDr c) = st &&& ~~~(mRxDr c) := by
  have h : mRxDr c &&& mAll c = mRxDr c := by
    apply BitVec.eq_of_getLsbD_eq
    intro i _
    simp only [mAll, BitVec.getLsbD_and, BitVec.getLsbD_or]
    cases (mRxDr c).getLsbD i <;> rfl
  rw [writeOneToClear, h]

/-- Settles O30: the payload at the head is stored and removed, and what follows clears RX_DR alone. -/
theorem receiveDrainsReferenceRadio : Obligations.ReceiveDrainsReferenceRadio := by
  intro s n buf p rest hm hb hi hr hn h0 hl hcfg hq hf hp
  subst hp
  have hk := cfgOk_cmdOk hcfg
  obtain ⟨t, hx, hmem, hrad⟩ := exec_receive_stored hb hr hq hk (failedCheck_receive hi hn hl) hf
    (List.ne_nil_of_length_pos h0)
  obtain ⟨hrx, htx, hst⟩ := hearAll_receiveEnd hk (r := { s.radio with rxFifo := rest, link := .idle }) hq
  rw [writeOneToClear_rxDr] at hst
  exact ⟨t, hx, hmem ▸ bufRead_bufWrite buf p hm, hrad ▸ hrx, hrad ▸ htx, hrad ▸ hst⟩

end Sys2Proof.Proofs
end

section
/-! PROOFS. `INIT` on the reference radio (R150 to R160, P1): ten register writes, each to a register of its own. -/

namespace Sys2Proof.Proofs

open Sys2Proof.Machine Sys2Proof.Safety Sys2Proof.Laws

/-- A register write: the address and the bytes sent. -/
abbrev RegWrite := Byte × List Byte

/-- The events of successive register writes. -/
def writesTrace (c : Cfg) (ws : List RegWrite) : List Event := ws.flatMap fun w => regWriteTrace c w.1 w.2

/-- The numbers of the registers written. -/
def writesNums (c : Cfg) (ws : List RegWrite) : List Byte := ws.map fun w => regNum c w.1

/-- The write has its register's width. -/
def Fits (c : Cfg) (w : RegWrite) : Prop := w.2 ≠ [] ∧ w.2.length = regWidth c (regNum c w.1)

/-- What a write that fits leaves in its register (R77, R78). -/
def written (c : Cfg) (r : Radio) (w : RegWrite) : List Byte :=
  if regNum c w.1 = statusNum c then [writeOneToClear c (r.status c) (w.2.headD 0#8)] else w.2

/-- What a write leaves depends on what STATUS held, where it goes to STATUS, and on nothing else of the radio. -/
theorem written_congr {c : Cfg} {r r' : Radio} {w : RegWrite}
    (h : regNum c w.1 = statusNum c → r'.reg c (statusNum c) = r.reg c (statusNum c)) :
    written c r' w = written c r w := by
  unfold written
  split
  next hs => rw [Radio.status, h hs, ← Radio.status]
  next => rfl

/-- The radio `r'` is `r` after the writes `ws`. -/
structure Wrote (c : Cfg) (ws : List RegWrite) (r r' : Radio) : Prop where
  held   : ∀ w ∈ ws, r'.reg c (regNum c w.1) = written c r w
  kept   : ∀ b, b ∉ writesNums c ws → r'.reg c b = r.reg c b
  txFifo : r'.txFifo = r.txFifo
  rxFifo : r'.rxFifo = r.rxFifo

section
variable {c : Cfg} (hk : cmdOk c = true) (hs : regWidth c (statusNum c) = 1)
include hk hs

/-- One write on the reference radio, STATUS or not. -/
theorem hearAll_fitting {r : Radio} (hq : Quiet r) {w : RegWrite} (hw : Fits c w) :
    hearAll c (regWriteTrace c w.1 w.2) r = { r.setReg (regNum c w.1) (written c r w) with link := .idle } := by
  obtain ⟨a, d⟩ := w
  obtain ⟨hd, hl⟩ := hw
  by_cases ha : regNum c a = statusNum c
  · obtain ⟨v, rfl⟩ := List.length_eq_one_iff.mp (hl.trans ((congrArg (regWidth c) ha).trans hs))
    rw [hearAll_statusWrite hk hq ha, written, if_pos ha, ha]
    rfl
  · rw [hearAll_regWrite hk hq ha hd hl, written, if_neg ha]

/-- Writes to different registers of the reference radio: each holds what was written to it, and no other has changed. -/
theorem wrote_hearAll : ∀ (ws : List RegWrite) (r : Radio), Quiet r → (∀ w ∈ ws, Fits c w) →
    (writesNums c ws).Nodup → Wrote c ws r (hearAll c (writesTrace c ws) r)
  | [], _, _, _, _ => ⟨fun _ h => by simp at h, fun _ _ => rfl, rfl, rfl⟩
  | w :: ws, r, hq, hf, hn => by
    obtain ⟨hw, hf⟩ := List.forall_mem_cons.mp hf
    obtain ⟨hnot, hn⟩ := List.nodup_cons.mp hn
    have ih := wrote_hearAll ws { r.setReg (regNum c w.1) (written c r w) with link := .idle } hq hf hn
    have hx : hearAll c (writesTrace c (w :: ws)) r =
        hearAll c (writesTrace c ws) { r.setReg (regNum c w.1) (written c r w) with link := .idle } := by
      rw [writesTrace, List.flatMap_cons, hearAll_append, hearAll_fitting hk hs hq hw]
      rfl
    rw [hx]
    refine ⟨List.forall_mem_cons.mpr ⟨?_, fun v hv => ?_⟩, fun b hb => ?_, ih.txFifo, ih.rxFifo⟩
    · rw [ih.kept _ hnot, reg_link, reg_setReg, if_pos rfl]
    · rw [ih.held v hv]
      refine written_congr fun hv' => ?_
      have hne : statusNum c ≠ regNum c w.1 := fun h => hnot (List.mem_map.mpr ⟨v, hv, hv'.trans h⟩)
      rw [reg_link, reg_setReg, if_neg hne]
    · obtain ⟨hne, hb⟩ := not_or.mp (mt List.mem_cons.mpr hb)
      rw [ih.kept b hb, reg_link, reg_setReg, if_neg hne]
end

/-- The register writes of `INIT`, in the order of R163. -/
def initWrites (c : Cfg) : List RegWrite :=
  [(c.reg.enAa, [bit c.bits.enaaP0]), (c.reg.setupRetr, [setupRetrVal c]), (c.reg.enRxaddr, [bit c.bits.erxP0]),
    (c.reg.setupAw, [c.bits.aw5Bytes]), (c.reg.rfCh, [c.channel]), (c.reg.rfSetup, [c.rfSetupVal]),
    (c.reg.rxAddrP0, c.rxAddr.bytes), (c.reg.rxPwP0, [payloadLenVal c]), (c.reg.status, [mAll c]),
    (c.reg.config, [configIdle c])]

theorem initTrace_eq_writes (c : Cfg) : initTrace c = [.ce .low, .csn .deasserted] ++ writesTrace c (initWrites c) := by
  simp [initTrace, writesTrace, initWrites]

/-- `INIT` writes ten of the twelve registers, each once, and TX_ADDR and RX_ADDR_P1 are none of them. -/
theorem initWrites_nodup {c : Cfg} (h : regAddrsOk c = true) : (writesNums c (initWrites c)).Nodup ∧
    ∀ a ∈ [c.reg.txAddr, c.reg.rxAddrP1], regNum c a ∉ writesNums c (initWrites c) := by
  obtain ⟨hn, hd⟩ := regNums_split h (l := [c.reg.txAddr, c.reg.rxAddrP1]) (l' := (initWrites c).map Prod.fst)
    fun b => by
    simp only [regNums, initWrites, List.map_cons, List.map_nil, List.count_cons, List.count_nil]
    ac_rfl
  rw [List.map_map] at hn
  refine ⟨hn, fun a ha hm => ?_⟩
  obtain ⟨w, hw, he⟩ := List.mem_map.mp hm
  exact hd a ha w.1 (List.mem_map_of_mem hw) he.symm

/-- `INIT` writes each register at its width. -/
theorem initWrites_fit {c : Cfg} (h : regAddrsOk c = true) (hw : c.addrWidth = 5) : ∀ w ∈ initWrites c, Fits c w := by
  have h1 := regWidth_byteRegs h
  have h5 : regWidth c (regNum c c.reg.rxAddrP0) = 5 := by simp [regWidth, isAddrReg, hw]
  simp only [byteRegs, List.forall_mem_cons] at h1
  simp [initWrites, Fits, h1, h5, Addr.bytes]

/-- Step 1 of `INIT` (R151) on the reference radio with no transaction open. -/
theorem hearAll_initPins {c : Cfg} {r : Radio} (hq : Quiet r) (hl : r.link = .idle) :
    hearAll c [.ce .low, .csn .deasserted] r = { r with ce := some .low, link := .idle } := by
  rw [show hearAll c [.ce .low, .csn .deasserted] r = (((r.stir c).hear c (.ce .low)).stir c).hear c (.csn .deasserted)
    from rfl, quiet_stir hq, quiet_stir (show Quiet (r.hear c (.ce .low)) from hq)]
  simp [Radio.hear, hl]

/-- An accepted `INIT`: what the radio hears of it. -/
theorem exec_init_radio {s : State} (hb : s.busy = none) (hr : s.resetAt = none) (hcfg : cfgOk s.cfg = true) :
    ∃ t, exec .init s = .next t ∧ t.radio = hearAll s.cfg (initTrace s.cfg) s.radio := by
  obtain ⟨p, u, hx, rfl, rfl⟩ := (initBody_does (accept .init s)).of_none hr
  rw [exec, execInit]
  refine ⟨_, hostOp_next hb ((failedCheck_init_none s).mpr hcfg) hx, ?_⟩
  simp only [respond, release, after_radio, accept_cfg, accept_radio]

/-- Every latched flag is cleared by a write of all three (R159). -/
theorem writeOneToClear_mAll (c : Cfg) (st : Byte) : writeOneToClear c st (mAll c) &&& mAll c = 0#8 := by
  apply BitVec.eq_of_getLsbD_eq
  intro i _
  simp only [writeOneToClear, BitVec.getLsbD_and, BitVec.getLsbD_not, BitVec.getLsbD_zero]
  cases (mAll c).getLsbD i <;> simp

/-- Settles O18: `INIT` is ten writes to different registers, each at its width. -/
theorem initConfiguresReferenceRadio : Obligations.InitConfiguresReferenceRadio := by
  intro s hb hr hcfg hreg hw hq hl
  obtain ⟨t, hx, hrad⟩ := exec_init_radio hb hr hcfg
  rw [initTrace_eq_writes, hearAll_append, hearAll_initPins hq hl] at hrad
  obtain ⟨hn, hnot⟩ := initWrites_nodup hreg
  have hs : regWidth s.cfg (statusNum s.cfg) = 1 := regWidth_byteRegs hreg s.cfg.reg.status (by simp [byteRegs])
  have h := wrote_hearAll (cfgOk_cmdOk hcfg) hs (initWrites s.cfg) { s.radio with ce := some .low, link := .idle } hq
    (initWrites_fit hreg hw) hn
  rw [← hrad] at h
  have hne := otherRegs_ne_status hreg
  simp only [otherRegs, List.forall_mem_cons] at hne
  have hheld := h.held
  simp only [initWrites, List.forall_mem_cons, written, hne, if_false] at hheld
  obtain ⟨enAa, setupRetr, enRxaddr, setupAw, rfCh, rfSetup, rxAddrP0, rxPwP0, status, config, -⟩ := hheld
  have hflags : t.radio.status s.cfg &&& mAll s.cfg = 0#8 := by
    rw [if_pos (show regNum s.cfg s.cfg.reg.status = statusNum s.cfg from rfl)] at status
    rw [Radio.status, statusNum, status]
    exact writeOneToClear_mAll s.cfg _
  exact ⟨t, hx, config, enAa, enRxaddr, setupAw, setupRetr, rfCh, rfSetup, rxAddrP0, rxPwP0, hflags,
    h.kept _ (hnot _ (by simp)), h.kept _ (hnot _ (by simp)), h.txFifo, h.rxFifo⟩

end Sys2Proof.Proofs
end

section
/-! PROOFS. The two encodings (R100, R110): each command byte has one meaning (R103, R105), the fields of a request word, and
the decoder undoes the encoder. -/

namespace Sys2Proof.Proofs

open Sys2Proof.Machine Sys2Proof.Laws

section
variable {c : Cfg}

/-- An address within the mask is its own address field (R101). -/
theorem regNum_of_fits {a : Byte} (h : a &&& ~~~c.addrMask = 0#8) : regNum c a = a := by
  calc regNum c a = (a &&& c.addrMask) ||| (a &&& ~~~c.addrMask) := by rw [h, BitVec.or_zero, regNum]
    _ = a := by rw [← BitVec.and_or_distrib_left, BitVec.or_not_self, BitVec.and_allOnes]

/-- A byte is its class field over its address field, and the address field lies within the mask (R101). -/
theorem eq_class_or_field {b op : Byte} (h : b &&& ~~~c.addrMask = op) :
    b = op ||| regNum c b ∧ regNum c b &&& ~~~c.addrMask = 0#8 := by
  subst h
  constructor
  · rw [regNum, ← BitVec.and_or_distrib_left, BitVec.or_comm, BitVec.or_not_self, BitVec.and_allOnes]
  · rw [regNum, BitVec.and_assoc, BitVec.and_not_self]
    exact BitVec.and_zero

/-- `b` is a byte of the command (R104): a class over an address within the mask, or a FIX value. Any byte may be one
that is not emitted (R106). -/
def IsByteOf (c : Cfg) (b : Byte) : Command → Prop
  | .rRegister a => b = c.cmd.rRegister ||| a ∧ a &&& ~~~c.addrMask = 0#8
  | .wRegister a => b = c.cmd.wRegister ||| a ∧ a &&& ~~~c.addrMask = 0#8
  | .rRxPayload  => b = c.cmd.rRxPayload
  | .wTxPayload  => b = c.cmd.wTxPayload
  | .flushTx     => b = c.cmd.flushTx
  | .flushRx     => b = c.cmd.flushRx
  | .nop         => b = c.cmd.nop
  | .notEmitted  => True

/-- Under any `CMD` table, a byte is one of the command it decodes to (R105). -/
theorem isByteOf_decodeCommand (c : Cfg) (b : Byte) : IsByteOf c b (decodeCommand c b) := by
  unfold decodeCommand
  split_ifs with hrx htx hft hfr hnop hr hw
  · exact hrx
  · exact htx
  · exact hft
  · exact hfr
  · exact hnop
  · exact eq_class_or_field hr
  · exact eq_class_or_field hw
  · trivial

/-- Under R103, a byte of a command decodes to that command. -/
theorem decodeCommand_of_isByteOf (h : cmdOk c = true) {b : Byte} {k : Command} (hk : k ≠ .notEmitted)
    (hb : IsByteOf c b k) : decodeCommand c b = k := by
  obtain ⟨hrx, htx, hft, hfr, hnop⟩ := decodeCommand_fix h
  cases k with
  | rRegister a =>
    obtain ⟨rfl, ha⟩ := hb
    simpa [regCmd, regNum_of_fits ha] using decodeCommand_read h a
  | wRegister a =>
    obtain ⟨rfl, ha⟩ := hb
    simpa [regCmd, regNum_of_fits ha] using decodeCommand_write h a
  | rRxPayload => exact hb ▸ hrx
  | wTxPayload => exact hb ▸ htx
  | flushTx => exact hb ▸ hft
  | flushRx => exact hb ▸ hfr
  | nop => exact hb ▸ hnop
  | notEmitted => exact absurd rfl hk

theorem decodeCommand_eq_iff (h : cmdOk c = true) {b : Byte} {k : Command} (hk : k ≠ .notEmitted) :
    decodeCommand c b = k ↔ IsByteOf c b k :=
  ⟨fun hd => hd ▸ isByteOf_decodeCommand c b, decodeCommand_of_isByteOf h hk⟩
end

/-- Settles O3: a byte is one of the command it decodes to, and R103 keeps an earlier test from taking another's byte. -/
theorem commandByteHasOneMeaning : Obligations.CommandByteHasOneMeaning := fun _ h _ =>
  ⟨fun _ => decodeCommand_eq_iff h nofun, fun _ => decodeCommand_eq_iff h nofun, decodeCommand_eq_iff h nofun,
    decodeCommand_eq_iff h nofun, decodeCommand_eq_iff h nofun, decodeCommand_eq_iff h nofun,
    decodeCommand_eq_iff h nofun⟩

/-! The fields of a request word (R110). -/

theorem reqA_reqWord (op a v : Byte) (n : Nat) : reqA (reqWord op a v n) = a := by
  rw [reqA, reqWord, BitVec.extractLsb'_append_eq_of_le (Nat.le_refl 8)]
  exact BitVec.extractLsb'_append_eq_right

theorem reqV_reqWord (op a v : Byte) (n : Nat) : reqV (reqWord op a v n) = v := by
  rw [reqV, reqWord, BitVec.extractLsb'_append_eq_of_le (by decide), BitVec.extractLsb'_append_eq_of_le (Nat.le_refl 8)]
  exact BitVec.extractLsb'_append_eq_right

/-- The length is carried where it fits its eight bits. -/
theorem reqN_reqWord (op a v : Byte) {n : Nat} (h : lengthFits n = true) : reqN (reqWord op a v n) = n := by
  have hn : n < 256 := of_decide_eq_true h
  rw [reqN, reqWord, BitVec.extractLsb'_append_eq_of_le (by decide), BitVec.extractLsb'_append_eq_of_le (by decide),
    BitVec.extractLsb'_append_eq_of_le (Nat.le_refl 8)]
  simp [Nat.mod_eq_of_lt hn]

/-- Settles O2: a wire command's byte decodes to it and its data phase has the command's form; a request word gives its
operation code and the operands back. -/
theorem decodeEncodeGivesBack : Obligations.DecodeEncodeGivesBack := by
  intro c i h hi
  obtain ⟨hrx, htx, hft, hfr, hnop⟩ := decodeCommand_fix h
  cases i with
  | rRegister addr n =>
    obtain ⟨ha, hn⟩ : addr &&& ~~~c.addrMask = 0#8 ∧ 1 ≤ n := by simpa [Instr.wellFormed, addrFits] using hi
    simp [encode, decode, decodeFrame, decodeCommand_read h, regNum_of_fits ha, fillers, Nat.one_le_iff_ne_zero.mp hn]
  | wRegister addr data =>
    obtain ⟨ha, hd⟩ : addr &&& ~~~c.addrMask = 0#8 ∧ 1 ≤ data.length := by
      simpa [Instr.wellFormed, addrFits] using hi
    simp [encode, decode, decodeFrame, decodeCommand_write h, regNum_of_fits ha, List.ne_nil_of_length_pos hd]
  | rRxPayload => simp [encode, decode, decodeFrame, hrx, fillers]
  | wTxPayload data =>
    have hd : data.length = c.payloadLen := by simpa [Instr.wellFormed] using hi
    simp [encode, decode, decodeFrame, htx, hd]
  | flushTx => simp [encode, decode, decodeFrame, hft]
  | flushRx => simp [encode, decode, decodeFrame, hfr]
  | nop => simp [encode, decode, decodeFrame, hnop]
  | init | readReg | writeReg | checkDataReady =>
    simp [encode, decode, decodeRequest, RequestOp.reqOp_reqWord, reqA_reqWord, reqV_reqWord]
  | readRegMulti | writeRegMulti | transmit | receive =>
    simp [encode, decode, decodeRequest, RequestOp.reqOp_reqWord, reqA_reqWord, reqN_reqWord _ _ _ hi]

/-- The eight operation codes are the values below 8 of `w[7:0]` (R110). -/
theorem decodeRequest_rejected_iff (r : Request) : decodeRequest r = .rejected .wfOp ↔ 8 ≤ (reqOp r.word).toNat := by
  unfold decodeRequest
  match (reqOp r.word).toNat with
  | 0 | 1 | 2 | 3 | 4 | 5 | 6 | 7 => simp
  | k + 8 => simp

/-- `w[7:0]` is `op = w[3:0]` under the reserved bits `w[7:4]`. -/
theorem eight_le_reqOp_iff (w : BitVec 32) :
    8 ≤ (reqOp w).toNat ↔ 8 ≤ (w.extractLsb' 0 4).toNat ∨ w.extractLsb' 4 4 ≠ 0#4 := by
  simp only [reqOp, ne_eq, ← BitVec.toNat_inj, BitVec.extractLsb'_toNat, Nat.shiftRight_eq_div_pow, BitVec.toNat_zero]
  omega

/-- Settles O5: only a code of 8 or more in `w[7:0]` is rejected, and that is one of the two reserved patterns. -/
theorem requestRejectedOnReservedBits : Obligations.RequestRejectedOnReservedBits := fun r =>
  (decodeRequest_rejected_iff r).trans (eight_le_reqOp_iff r.word)

/-- Settles O1, by evaluating the decoder on the twenty words. -/
theorem specWordsDecode : Obligations.SpecWordsDecode := by
  unfold Obligations.SpecWordsDecode
  decide

end Sys2Proof.Proofs
end

section
/-! PROOFS. The checks of a request in their order (R111, R226), and the two steps that run nothing (R207, R221, R228). -/

namespace Sys2Proof.Proofs

open Sys2Proof.Machine Sys2Proof.Laws

section
variable {s : State} {a : Byte} {n : Nat} {buf : Buf}

/-! When each check fails (R111). -/

theorem failsInitFirst_iff : failsInitFirst s = true ↔ s.initialized = false := by simp [failsInitFirst]

theorem failsMultiLen_iff : failsMultiLen n s = true ↔ n = 0 ∨ s.cfg.addrWidth < n := by
  simp only [failsMultiLen, Bool.not_eq_true', Bool.and_eq_false_iff, decide_eq_false_iff_not]
  omega

theorem failsPayloadLen_iff : failsPayloadLen n s = true ↔ n ≠ s.cfg.payloadLen := by simp [failsPayloadLen]

theorem failsBuf_iff : failsBuf n buf = true ↔ buf.len < n := by simp [failsBuf]

theorem failsNoConfigWrite_iff :
    failsNoConfigWrite a s = true ↔ a &&& s.cfg.addrMask = s.cfg.reg.config &&& s.cfg.addrMask := by
  simp [failsNoConfigWrite, regNum]

/-- Every host operation but `INIT` asks for `INIT` first. -/
theorem failedCheck_of_not_initialized {i : Instr} (hop : RequestOp.code i ≠ none) (hi : i ≠ .init)
    (h : s.initialized = false) : failedCheck i s = some .wfInitFirst := by
  cases i with
  | rRegister | wRegister | rRxPayload | wTxPayload | flushTx | flushRx | nop => exact absurd rfl hop
  | init => exact absurd rfl hi
  | readReg | writeReg | readRegMulti | writeRegMulti | transmit | receive | checkDataReady =>
    exact if_pos (failsInitFirst_iff.mpr h)
end

/-- Settles O12: `failedCheck` asks in the order of R226, and its answer is what the refusal names. -/
theorem firstFailingCheckNamed : Obligations.FirstFailingCheckNamed := by
  intro s a v n buf hb
  have before (i : Instr) (hop : RequestOp.code i ≠ none) (hi : i ≠ .init) (h : s.initialized = false) :
      exec i s = .next (refuse .wfInitFirst (.op i) s) :=
    exec_refused hb (failedCheck_of_not_initialized hop hi h)
  have begun (h : s.initialized = true) : ¬ failsInitFirst s = true := by simp [failsInitFirst_iff, h]
  have rightLen (hn : 1 ≤ n) (hw : n ≤ s.cfg.addrWidth) : ¬ failsMultiLen n s = true := by
    rw [failsMultiLen_iff]; omega
  have full (hn : n = s.cfg.payloadLen) : ¬ failsPayloadLen n s = true := by simp [failsPayloadLen_iff, hn]
  refine ⟨fun h => ?_, fun h hn => ?_, fun h hn => ?_, fun h hn hw hl => ?_, fun h hn hl => ?_, fun h ha => ?_⟩
  · exact ⟨before _ nofun nofun h, before _ nofun nofun h, before _ nofun nofun h, before _ nofun nofun h,
      before _ nofun nofun h, before _ nofun nofun h, before _ nofun nofun h⟩
  · have hm := failsMultiLen_iff.mpr hn
    constructor <;> exact exec_refused hb ((if_neg (begun h)).trans (if_pos hm))
  · have hp := failsPayloadLen_iff.mpr hn
    constructor <;> exact exec_refused hb ((if_neg (begun h)).trans (if_pos hp))
  · exact exec_refused hb ((if_neg (begun h)).trans ((if_neg (rightLen hn hw)).trans (if_pos (failsBuf_iff.mpr hl))))
  · have hf := failsBuf_iff.mpr hl
    constructor <;> exact exec_refused hb ((if_neg (begun h)).trans ((if_neg (full hn)).trans (if_pos hf)))
  · have hf := failsNoConfigWrite_iff.mpr ha
    refine ⟨exec_refused hb ((if_neg (begun h)).trans (if_pos hf)), fun hn hw hl => ?_⟩
    have hl' : ¬ failsBuf n buf = true := by simpa [failsBuf_iff] using hl
    exact exec_refused hb ((if_neg (begun h)).trans ((if_neg (rightLen hn hw)).trans ((if_neg hl').trans (if_pos hf))))

section
variable {s : State}

/-- With an empty port the controller waits (R207). -/
theorem step_of_empty_port (h0 : s.resetAt ≠ some 0) (hb : s.bench = none) (hp : s.port = []) : step s = .next s := by
  simp [step, fetch, h0, hb, hp]

/-- A request that decodes to nothing is taken out and marked (R111, R221). -/
theorem step_of_rejected_request {r : Request} {rest : List Request} {q : Reject} (h0 : s.resetAt ≠ some 0)
    (hb : s.bench = none) (hp : s.port = r :: rest) (hi : s.busy = none)
    (hd : decode s.cfg (.request r) = .rejected q) : step s = .next (refuse .wfOp (.raw r) { s with port := rest }) := by
  simp [step, fetch, fetchRequest, h0, hb, hp, hi, hd]
end

/-- Settles O41: the fetch answers the waiting state, or the refusal of the request it took out. -/
theorem stepWaitsOrRefuses : Obligations.StepWaitsOrRefuses := fun _ h0 hb =>
  ⟨step_of_empty_port h0 hb, fun _ _ hp hi hd => step_of_rejected_request h0 hb hp hi hd⟩

end Sys2Proof.Proofs
end

section
/-! PROOFS. The register host operations (R134 to R137, R139) and the wire commands that carry data (R130 to R132, R189,
R205): each is one chip-select bracket with its answer. -/

namespace Sys2Proof.Proofs

open Sys2Proof.Machine Sys2Proof.Safety Sys2Proof.Laws

/-- Events that end with chip-select deasserted and do not drive chip-enable, as those of every transaction do (R80). -/
def Bracketed (es : List Event) : Prop :=
  (∀ v, es.foldl (fun v e => csnAfter e v) v = some .deasserted) ∧ NoCe es

theorem bracketed_readTrace (c : Cfg) (cmd : Byte) (d : List Byte) : Bracketed (readTrace c cmd d) :=
  ⟨readTrace_csn c cmd d, noCe_readTrace c cmd d⟩

theorem bracketed_writeTrace (cmd : Byte) (d : List Byte) : Bracketed (writeTrace cmd d) :=
  ⟨writeTrace_csn cmd d, noCe_writeTrace cmd d⟩

/-- `s` after the transaction `es` and the answer `p`, the radio being `r`. -/
def transacted (es : List Event) (r : Radio) (p : Response) (s : State) : State :=
  { s with csn := some .deasserted, trace := s.trace ++ es, responses := s.responses ++ [p], radio := r }

section
variable {s : State} {es : List Event} {r : Radio} {p : Response} (hr : s.resetAt = none) (hes : Bracketed es)
include hr hes

theorem ran_of_bracketed : ran es r s = { s with
    csn := some .deasserted, stepIndex := s.stepIndex + es.length, trace := s.trace ++ es, radio := r } := by
  obtain ⟨hcsn, hce⟩ := hes
  simp [ran, hcsn, hce.foldl_ceAfter, hr]

/-- An accepted host operation whose body is one transaction: its step index is 0 again (R36). -/
theorem hostOp_transacted {op : HostOp} {i : Instr} {body : State → Flow Response} (hb : s.busy = none)
    (hc : failedCheck i s = none) (h : body (accept op s) = .on p (ran es r (accept op s))) :
    hostOp op i s body = .next (transacted es r p { s with stepIndex := 0 }) := by
  rw [hostOp_ran hb hc h, ran_of_bracketed hr hes]
  simp [respond, release, transacted, hb]

/-- A wire command run by itself that is one transaction: its step index is left (log 5). -/
theorem wireOp_transacted {body : State → Flow Response} (h : body s = .on p (ran es r s)) :
    wireOp s body = .next (transacted es r p s) := by
  rw [wireOp_next h, ran_of_bracketed hr hes]
  rfl
end

/-! The transactions that receive (R130, R205). -/

section
variable {s : State} (hr : s.resetAt = none)
include hr

/-- A transaction that receives `n` bytes, from any radio; on the reference radio it ends with the command's effect. -/
theorem readFrame_finishes (cmd : Byte) (n : Nat) : ∃ d r, d.length = n ∧
    readFrame cmd n s = .on d (ran (readTrace s.cfg cmd d) r s) ∧
    (Quiet s.radio → ∃ r', Held s.radio r' ∧
      r = { Radio.finish s.cfg r' cmd (fillers s.cfg n) with link := .idle }) := by
  by_cases hq : Quiet s.radio
  · obtain ⟨d, r', hd, hx, hh⟩ := readFrame_held hr hq cmd n
    exact ⟨d, _, hd, hx, fun _ => ⟨r', hh, rfl⟩⟩
  · obtain ⟨d, r, hd, hx⟩ := readFrame_eq hr cmd n
    exact ⟨d, r, hd, hx, fun h => absurd h hq⟩

/-- A register read has no side effect on the reference radio's registers and queues (R78(a)). -/
theorem readRegister_untouched (a : Byte) (n : Nat) : ∃ d r, d.length = n ∧
    readRegister a n s = .on d (ran (regReadTrace s.cfg a d) r s) ∧
    (Quiet s.radio → cmdOk s.cfg = true → Untouched s.radio r) := by
  obtain ⟨d, r, hd, hx, hf⟩ := readFrame_finishes hr (regCmd s.cfg s.cfg.cmd.rRegister a) n
  refine ⟨d, r, hd, hx, fun hq hk => ?_⟩
  obtain ⟨r', ⟨-, hu⟩, rfl⟩ := hf hq
  simp only [Radio.finish, decodeCommand_read hk]
  exact hu

/-- A payload read takes the head of the reference radio's RX FIFO alone (R78(e), R205). -/
theorem readPayload_takes_head (hn : 1 ≤ s.cfg.payloadLen) : ∃ d r, d.length = s.cfg.payloadLen ∧
    readPayload s = .on d (ran (readTrace s.cfg s.cfg.cmd.rRxPayload d) r s) ∧
    (Quiet s.radio → cmdOk s.cfg = true →
      r.regs = s.radio.regs ∧ r.txFifo = s.radio.txFifo ∧ r.rxFifo = s.radio.rxFifo.drop 1) := by
  obtain ⟨d, r, hd, hx, hf⟩ := readFrame_finishes hr s.cfg.cmd.rRxPayload s.cfg.payloadLen
  refine ⟨d, r, hd, hx, fun hq hk => ?_⟩
  obtain ⟨r', ⟨-, hregs, htx, hrx⟩, rfl⟩ := hf hq
  have hne : fillers s.cfg s.cfg.payloadLen ≠ [] := by simp [fillers]; omega
  simp only [Radio.finish, (decodeCommand_fix hk).1, hne, if_false]
  exact ⟨hregs, htx, by rw [hrx]⟩

/-- One exchange whose byte is kept changes nothing in the reference radio. -/
theorem xferKeep_untouched (o : Byte) (n : Nat) : ∃ b r, xferKeep o n s = .on b (ran [.x o (some b)] r s) ∧
    (Quiet s.radio → Untouched s.radio r) := by
  by_cases hq : Quiet s.radio
  · obtain ⟨b, r, hx, ⟨-, hu⟩, -⟩ := xferKeep_held hr hq o n
    exact ⟨b, r, hx, fun _ => hu⟩
  · obtain ⟨b, r, hx⟩ := xferKeep_eq hr o n
    exact ⟨b, r, hx, fun h => absurd h hq⟩
end

/-! The transactions that send (R131, R189). -/

theorem store_fifos (c : Cfg) (r : Radio) (a : Byte) (d : List Byte) :
    (r.store c a d).txFifo = r.txFifo ∧ (r.store c a d).rxFifo = r.rxFifo := by
  simp only [Radio.store]
  split
  next => exact ⟨rfl, rfl⟩
  next => split <;> exact ⟨rfl, rfl⟩

theorem clearFlags_fifos (c : Cfg) (r : Radio) (d : List Byte) :
    (r.clearFlags c d).txFifo = r.txFifo ∧ (r.clearFlags c d).rxFifo = r.rxFifo := by
  unfold Radio.clearFlags
  split
  next => exact ⟨rfl, rfl⟩
  next => exact ⟨rfl, rfl⟩
  next => split <;> exact ⟨rfl, rfl⟩

/-- The end of a register write of any length, STATUS among the registers, changes no queue (R78). -/
theorem finish_write_fifos {c : Cfg} {cmd a : Byte} (h : decodeCommand c cmd = .wRegister a) (r : Radio) (d : List Byte) :
    (r.finish c cmd d).txFifo = r.txFifo ∧ (r.finish c cmd d).rxFifo = r.rxFifo := by
  simp only [Radio.finish, h]
  split
  next => exact ⟨rfl, rfl⟩
  next =>
    split
    next => exact clearFlags_fifos c r d
    next => exact store_fifos c r a d

theorem hearAll_regWrite_fifos {c : Cfg} {r : Radio} (hq : Quiet r) (hk : cmdOk c = true) (a : Byte) (d : List Byte) :
    (hearAll c (regWriteTrace c a d) r).txFifo = r.txFifo ∧ (hearAll c (regWriteTrace c a d) r).rxFifo = r.rxFifo := by
  rw [regWriteTrace, hearAll_writeTrace hq]
  exact finish_write_fifos (decodeCommand_write hk a) { r with link := .frame _ d } d

/-! The host operations (R134 to R137, R139). -/

/-- Settles O6: one register read, of one byte. -/
theorem readRegCompletes : Obligations.ReadRegCompletes := by
  intro s a hb hi hr
  obtain ⟨d, r, hd, hx, hu⟩ := readRegister_untouched (s := accept .readReg s) hr a 1
  obtain ⟨b, rfl⟩ := List.length_eq_one_iff.mp hd
  refine ⟨b, r, ?_, hu⟩
  rw [exec, execReadReg]
  exact hostOp_transacted hr (bracketed_readTrace _ _ [b]) hb ((failedCheck_readReg_none s a).mpr hi)
    (by rw [regRead_eq_readRegister (by exact hr), hx]; rfl)

/-- Settles O8: one register read. -/
theorem readRegMultiCompletes : Obligations.ReadRegMultiCompletes := by
  intro s a n hb hi hr hn hw
  obtain ⟨d, r, hd, hx, hu⟩ := readRegister_untouched (s := accept .readRegMulti s) hr a n
  refine ⟨d, r, hd, ?_, hu⟩
  rw [exec, execReadRegMulti]
  exact hostOp_transacted hr (bracketed_readTrace _ _ d) hb ((failedCheck_readRegMulti_none s a n).mpr ⟨hi, hn, hw⟩)
    (by rw [hx]; rfl)

/-- Settles O7: one register write, of one byte. -/
theorem writeRegCompletes : Obligations.WriteRegCompletes := by
  intro s a v hb hi hr ha
  refine ⟨hearAll s.cfg (regWriteTrace s.cfg a [v]) s.radio, ?_⟩
  rw [exec, execWriteReg]
  exact hostOp_transacted hr (bracketed_writeTrace _ [v]) hb ((failedCheck_writeReg_none s a v).mpr ⟨hi, ha⟩)
    (by rw [regWrite_eq (by exact hr)]; rfl)

/-- Settles O9: one register write, of the buffer's bytes. -/
theorem writeRegMultiCompletes : Obligations.WriteRegMultiCompletes := by
  intro s a n buf hb hi hr hn hw hl ha
  have hout : (List.range n).map (fun i => Event.x (memRead s.mem (buf.base + i)) none) =
      (bufRead s.mem buf n).map fun b => .x b none := by simp [bufRead]
  refine ⟨hearAll s.cfg (regWriteTrace s.cfg a (bufRead s.mem buf n)) s.radio, ?_⟩
  rw [hout, exec, execWriteRegMulti]
  exact hostOp_transacted hr (bracketed_writeTrace _ (bufRead s.mem buf n)) hb
    ((failedCheck_writeRegMulti_none s a n buf).mpr ⟨hi, ⟨hn, hw⟩, hl, ha⟩) (by rw [regWriteN_eq (by exact hr)]; rfl)

/-- The register host operations (R14). -/
inductive RegisterOp : Instr → Prop where
  | readReg (a : Byte) : RegisterOp (.readReg a)
  | writeReg (a v : Byte) : RegisterOp (.writeReg a v)
  | readRegMulti (a : Byte) (n : Nat) : RegisterOp (.readRegMulti a n)
  | writeRegMulti (a : Byte) (n : Nat) (buf : Buf) : RegisterOp (.writeRegMulti a n buf)

section
variable {s t a : State} {i : Instr} {es : List Event}

/-- The events of a register host operation are one transaction. -/
theorem HostRan.bracketed (ha : HostRan s i es a) (hi : RegisterOp i) : Bracketed es := by
  cases hi with
  | readReg | readRegMulti => cases ha; exact bracketed_readTrace _ _ _
  | writeReg | writeRegMulti => cases ha; exact bracketed_writeTrace _ _

/-- A register host operation, refused or not, leaves chip-select deasserted. -/
theorem exec_registerOp_csn (hi : RegisterOp i) (hr : s.resetAt = none) (hs : s.csn = some .deasserted)
    (h : exec i s = .next t) : t.csn = some .deasserted := by
  have hop : RequestOp.code i ≠ none := by cases hi <;> exact nofun
  cases exec_hostEnded hop (fun n buf he => by subst he; cases hi) h with
  | refused k _ ht => exact ht ▸ hs
  | answered es a r p _ ha ht => exact ht ▸ (ha.bracketed hi).1 a.csn
  | reset hs => simp [hr] at hs
end

/-- Settles O10: a register operation drives nothing but chip-select, and that back to where it was. -/
theorem registerOperationsKeepState : Obligations.RegisterOperationsKeepState := by
  intro s t i hi hr hs h
  have hop : RegisterOp i := by
    obtain ⟨a, rfl⟩ | ⟨a, v, rfl⟩ | ⟨a, n, rfl⟩ | ⟨a, n, buf, rfl⟩ := hi <;> constructor
  obtain ⟨hu, -⟩ := exec_undriven hr (fun he => by subst he; cases hop) (fun n buf he => by subst he; cases hop) h
  exact ⟨hu.shadow, hu.ce, hu.phase, hu.status, hu.budget, hu.outcome, exec_registerOp_csn hop hr hs h⟩

/-! The wire commands that carry data, and NOP (R130 to R132, R189, R205). -/

/-- Settles O34: a register read, a payload read, and one exchange. -/
theorem wireReadsComplete : Obligations.WireReadsComplete := by
  refine fun s hr => ⟨fun addr n _ => ?_, fun hn => ?_, ?_⟩
  · obtain ⟨d, r, hd, hx, hu⟩ := readRegister_untouched hr addr n
    refine ⟨d, r, hd, ?_, hu⟩
    rw [exec, execRRegister]
    exact wireOp_transacted hr (bracketed_readTrace _ _ d) (by rw [hx]; rfl)
  · obtain ⟨d, r, hd, hx, hu⟩ := readPayload_takes_head hr hn
    refine ⟨d, r, hd, ?_, hu⟩
    rw [exec, execRRxPayload]
    exact wireOp_transacted hr (bracketed_readTrace _ _ d) (by rw [hx]; rfl)
  · obtain ⟨b, r, hx, hu⟩ := xferKeep_untouched hr s.cfg.cmd.nop 1
    refine ⟨b, r, ?_, hu⟩
    rw [exec, execNop, wireOp_next (by rw [hx]; rfl)]
    simp [respond, ran, csnAfter, ceAfter, hr]

/-- Settles O35: a register write, and a payload write. -/
theorem wireWritesComplete : Obligations.WireWritesComplete := by
  refine fun s d hr => ⟨fun addr _ => ⟨_, ?_, fun hq hk => hearAll_regWrite_fifos hq hk addr d⟩,
    fun hd _ => ⟨hearAll s.cfg (writeTrace s.cfg.cmd.wTxPayload d) s.radio, ?_, fun hq hk => ?_⟩⟩
  · rw [exec, execWRegister]
    exact wireOp_transacted hr (bracketed_writeTrace _ d) (by rw [writeRegister, writeFrame_eq hr]; rfl)
  · rw [exec, execWTxPayload]
    exact wireOp_transacted hr (bracketed_writeTrace _ d) (by rw [writePayload, writeFrame_eq hr]; rfl)
  · rw [hearAll_payloadWrite hk hq (List.ne_nil_of_length_pos hd)]
    exact ⟨rfl, rfl, rfl⟩

end Sys2Proof.Proofs
end

section
/-! PROOFS. `INIT` on any radio (R150 to R163): the whole state it leaves (R161), whatever state it finds (R162). -/

namespace Sys2Proof.Proofs

open Sys2Proof.Machine Sys2Proof.Safety Sys2Proof.Laws

/-- The state an accepted `INIT` leaves (R161). -/
def initCompleted (s : State) : State := { s with
  shadow := some (configIdle s.cfg)
  initialized := true
  ce := some .low
  csn := some .deasserted
  stepIndex := 0
  trace := s.trace ++ initTrace s.cfg
  responses := s.responses ++ [.done]
  radio := hearAll s.cfg (initTrace s.cfg) s.radio }

theorem exec_init_completed {s : State} (hb : s.busy = none) (hr : s.resetAt = none) (hcfg : cfgOk s.cfg = true) :
    exec .init s = .next (initCompleted s) := by
  obtain ⟨p, u, hx, rfl, rfl⟩ := (initBody_does (accept .init s)).of_none hr
  rw [exec, execInit]
  refine (hostOp_next hb ((failedCheck_init_none s).mpr hcfg) hx).trans ?_
  simp [initCompleted, respond, release, after, ran, accept, initTrace_csn, initTrace_ce, hb, hr]

/-- The default packing of SETUP_RETR (R153, D3): the count lies below the delay's field. -/
theorem setupRetrVal_of_default_bits {c : Cfg} (hbits : c.bits = Config.bits) (hcnt : c.retrCount ≤ 15) :
    setupRetrVal c = BitVec.ofNat 8 (16 * c.retrDelay + c.retrCount) := by
  have hor : 16 * c.retrDelay + c.retrCount = 16 * c.retrDelay ||| c.retrCount :=
    Nat.two_pow_add_eq_or_of_lt (i := 4) (by omega) _
  have hshift : BitVec.ofNat 8 c.retrDelay <<< 4 = BitVec.ofNat 8 (16 * c.retrDelay) := by
    apply BitVec.eq_of_toNat_eq
    simp [Nat.shiftLeft_eq, Nat.mul_comm]
  rw [hor, BitVec.ofNat_or, ← hshift, setupRetrVal, hbits]
  simp [Config.bits]

/-- Settles O16. -/
theorem initCompletes : Obligations.InitCompletes := by
  intro s hb hr hcfg
  obtain ⟨-, -, -, -, -, hcnt, -⟩ := (cfgOk_iff s.cfg).mp hcfg
  exact ⟨initTrace_length s.cfg, fun hbits => setupRetrVal_of_default_bits hbits hcnt,
    hearAll s.cfg (initTrace s.cfg) s.radio, exec_init_completed hb hr hcfg⟩

/-! The reference radio's queues (R162). -/

/-- A write to STATUS of any length clears by its first byte on the reference radio (R78(c)). -/
theorem clearFlags_quiet {c : Cfg} {r : Radio} (hq : Quiet r) (v : Byte) (d : List Byte) :
    r.clearFlags c (v :: d) = r.setStatus c (writeOneToClear c (r.status c) v) := by
  cases d with
  | nil => rfl
  | cons => simp [Radio.clearFlags, hq.1]

/-- The end of a register write of any length changes nothing of the reference radio but registers, STATUS among them
(R77, R78, R88). -/
theorem finish_write_regs {c : Cfg} {r : Radio} (hq : Quiet r) {cmd a : Byte}
    (h : decodeCommand c cmd = .wRegister a) (d : List Byte) : ∃ m, r.finish c cmd d = { r with regs := m } := by
  simp only [Radio.finish, h]
  cases d with
  | nil => exact ⟨r.regs, rfl⟩
  | cons v d =>
    rw [if_neg (List.cons_ne_nil v d)]
    split
    next => exact ⟨_, clearFlags_quiet hq v d⟩
    next => exact ⟨_, store_quiet hq a (v :: d)⟩

section
variable {c : Cfg} (hk : cmdOk c = true)
include hk

theorem hearAll_regWrite_regs {r : Radio} (hq : Quiet r) (w : RegWrite) :
    ∃ m, hearAll c (regWriteTrace c w.1 w.2) r = { r with regs := m, link := .idle } := by
  obtain ⟨m, hm⟩ := finish_write_regs (quiet_link hq (.frame _ w.2)) (decodeCommand_write hk w.1) w.2
  exact ⟨m, by rw [regWriteTrace, hearAll_writeTrace hq, hm]⟩

/-- Register writes, however many and of whatever length, change nothing of the reference radio but registers. -/
theorem hearAll_writes_regs : ∀ (ws : List RegWrite) (r : Radio), Quiet r → r.link = .idle →
    ∃ m, hearAll c (writesTrace c ws) r = { r with regs := m }
  | [], r, _, _ => ⟨r.regs, rfl⟩
  | w :: ws, r, hq, hl => by
    obtain ⟨m, hm⟩ := hearAll_regWrite_regs hk hq w
    obtain ⟨m', hm'⟩ := hearAll_writes_regs ws { r with regs := m, link := .idle } hq rfl
    exact ⟨m', by rw [writesTrace, List.flatMap_cons, hearAll_append, hm, ← writesTrace, hm', hl]⟩

/-- `INIT` leaves the queues of the reference radio alone, where it finds no transaction open. -/
theorem hearAll_initTrace_fifos {r : Radio} (hq : Quiet r) (hl : r.link = .idle) :
    (hearAll c (initTrace c) r).txFifo = r.txFifo ∧ (hearAll c (initTrace c) r).rxFifo = r.rxFifo := by
  obtain ⟨m, hm⟩ := hearAll_writes_regs hk (initWrites c) { r with ce := some .low, link := .idle } hq rfl
  rw [initTrace_eq_writes, hearAll_append, hearAll_initPins hq hl, hm]
  exact ⟨rfl, rfl⟩
end

/-- Settles O17: what `INIT` writes is a function of `Cfg` alone, and the fields it does not write are clear at rest. -/
theorem initIsIdempotent : Obligations.InitIsIdempotent := by
  rintro s s' hc hcfg ⟨hb, -, hphase, hstatus, hbudget, houtcome⟩
    ⟨hb', -, hphase', hstatus', hbudget', houtcome'⟩ hr hr'
  refine ⟨initCompleted s, initCompleted s', initTrace s.cfg, exec_init_completed hb hr hcfg,
    exec_init_completed hb' hr' (hc ▸ hcfg), initTrace_length s.cfg, rfl, ?_, ?_, hphase.trans hphase'.symm,
    hb.trans hb'.symm, rfl, rfl, hstatus.trans hstatus'.symm, hbudget.trans hbudget'.symm,
    houtcome.trans houtcome'.symm, rfl, rfl, hearAll_initTrace_fifos (cfgOk_cmdOk hcfg)⟩
  · rw [initCompleted, hc]
  · rw [initCompleted, initCompleted, hc]

end Sys2Proof.Proofs
end

section
/-! PROOFS. `TRANSMIT` on any radio (R170 to R186): the values computed for CONFIG, the stages, and the whole operation with
the lengths of its events. And the two flushes run by themselves (R187, R188). -/

namespace Sys2Proof.Proofs

open Sys2Proof.Machine Sys2Proof.Safety Sys2Proof.Laws

/-! The flushes. -/

theorem bracketed_commandTrace (cmd : Byte) : Bracketed (commandTrace cmd) :=
  ⟨commandTrace_csn cmd, noCe_commandTrace cmd⟩

/-- Settles O36: each flush is one transaction with no data phase. -/
theorem flushesComplete : Obligations.FlushesComplete := by
  refine fun s hr => ⟨⟨hearAll s.cfg (commandTrace s.cfg.cmd.flushTx) s.radio, ?_, fun hq hk => ?_⟩,
    ⟨hearAll s.cfg (commandTrace s.cfg.cmd.flushRx) s.radio, ?_, fun hq hk => ?_⟩⟩
  · rw [exec, execFlushTx]
    exact wireOp_transacted hr (bracketed_commandTrace _) (by rw [command_eq hr]; rfl)
  · rw [hearAll_flushTx hk hq]
    exact ⟨rfl, rfl, rfl⟩
  · rw [exec, execFlushRx]
    exact wireOp_transacted hr (bracketed_commandTrace _) (by rw [command_eq hr]; rfl)
  · rw [hearAll_flushRx hk hq]
    exact ⟨rfl, rfl, rfl⟩

/-! The values computed for CONFIG (R177, R180), bit by bit. -/

theorem flagSet_primRxOff (c : Cfg) (v : Byte) (i : Fin 8) :
    flagSet (primRxOff c v) i = (flagSet v i && !decide (c.bits.primRx = i)) := by
  simp [flagSet_eq, primRxOff, ← bit_getLsbD]

theorem flagSet_primRxOn (c : Cfg) (v : Byte) (i : Fin 8) :
    flagSet (primRxOn c v) i = (flagSet v i || decide (c.bits.primRx = i)) := by
  simp [flagSet_eq, primRxOn, ← bit_getLsbD]

/-- Settles O25: only the bit at PRIM_RX is computed. -/
theorem configWritesKeepPowerUp : Obligations.ConfigWritesKeepPowerUp := by
  intro c v i hi
  simp [flagSet_primRxOff, flagSet_primRxOn, hi.symm]

/-! The first and the last stage. -/

/-- Settles O21: the stage with EN_AA, and without. -/
theorem flushingStage : Obligations.FlushingStage := by
  intro s hr
  obtain ⟨_, t, hx, rfl⟩ := (txFlushing_does s).of_none hr
  refine ⟨hearAll s.cfg (flushingTrace s.cfg) s.radio, ?_⟩
  rw [hx]
  cases hd : s.cfg.defensive <;>
    simp [after, ran, flushingTrace, commandTrace, regWriteTrace, writeTrace, csnAfter, ceAfter, mTxDs, mMaxRt, hd, hr]

/-- Settles O24: chip-enable is driven low before CONFIG is written, whatever the outcome. -/
theorem cleanupStage : Obligations.CleanupStage := by
  intro s o v hr ho hv
  obtain ⟨_, t, hx, rfl⟩ := (txCleanup_does ho hv).of_none hr
  refine ⟨hearAll s.cfg (cleanupTrace s.cfg v) s.radio, ?_⟩
  rw [hx]
  simp [after, ran, cleanupTrace, regWriteTrace, writeTrace, csnAfter, ceAfter, primRxOn, hr]

/-! One poll iteration (R181 to R185). -/

section
variable {es fs : List Event}

theorem Bracketed.append (h : Bracketed es) (h' : Bracketed fs) : Bracketed (es ++ fs) :=
  ⟨fun v => by rw [List.foldl_append, h'.1], fun v hm => (List.mem_append.mp hm).elim (h.2 v) (h'.2 v)⟩

/-- A sleep drives no pin. -/
theorem Bracketed.append_sleep (h : Bracketed es) (ms : Nat) : Bracketed (es ++ [.sleep ms]) :=
  ⟨fun v => by rw [List.foldl_append, h.1]; rfl, fun v hm => h.2 v (by simpa using hm)⟩
end

theorem flagSet_true_iff {v : Byte} {i : Fin 8} : flagSet v i = true ↔ v &&& bit i ≠ 0#8 := bne_iff_ne

theorem flagSet_false_iff {v : Byte} {i : Fin 8} : flagSet v i = false ↔ v &&& bit i = 0#8 := bne_eq_false_iff_eq

section
variable {c : Cfg} {st : Byte}

theorem pollOnceTrace_maxRt (h : maxRtSet c st = true) : pollOnceTrace c st =
    regReadTrace c c.reg.status [st] ++ regWriteTrace c c.reg.status [mMaxRt c] := by simp [pollOnceTrace, h]

theorem pollOnceTrace_txDs (h : maxRtSet c st = false) (h' : txDsSet c st = true) : pollOnceTrace c st =
    regReadTrace c c.reg.status [st] ++ regWriteTrace c c.reg.status [mTxDs c] := by simp [pollOnceTrace, h, h']

theorem pollOnceTrace_noFlag (h : noFlag c st) : pollOnceTrace c st =
    regReadTrace c c.reg.status [st] ++ [.sleep c.pollQuantumMs] := by simp [pollOnceTrace, h.1, h.2]

/-- A poll is a read, and then a write or a sleep. -/
theorem bracketed_pollOnceTrace : Bracketed (pollOnceTrace c st) := by
  have hread : Bracketed (regReadTrace c c.reg.status [st]) := bracketed_readTrace _ _ _
  unfold pollOnceTrace
  split
  next => exact hread.append (bracketed_writeTrace _ _)
  next =>
    split
    next => exact hread.append (bracketed_writeTrace _ _)
    next => exact hread.append_sleep _
end

/-- Settles O23: the three cases of the decision on the byte just read, MAX_RT first (R226). -/
theorem pollIterationDecides : Obligations.PollIterationDecides := by
  intro s b hr hb
  obtain ⟨left, t, hx, st, r, rfl, rfl⟩ := (pollOnce_does hb).of_none hr
  rw [ran_of_bracketed (by exact hr) bracketed_pollOnceTrace] at hx
  refine ⟨st, r, fun hm => ?_, fun hm ht => ?_, fun hm ht => ?_⟩
  · have hm : maxRtSet s.cfg st = true := flagSet_true_iff.mpr hm
    rw [hx, pollOnceTrace_maxRt hm]
    simp [turnOutcome, turnBudget, hm, hb, regReadTrace, regWriteTrace, mMaxRt]
  · have hm : maxRtSet s.cfg st = false := flagSet_false_iff.mpr hm
    have ht : txDsSet s.cfg st = true := flagSet_true_iff.mpr ht
    rw [hx, pollOnceTrace_txDs hm ht]
    simp [turnOutcome, turnBudget, hm, ht, hb, regReadTrace, regWriteTrace, mTxDs]
  · have hm : maxRtSet s.cfg st = false := flagSet_false_iff.mpr hm
    have ht : txDsSet s.cfg st = false := flagSet_false_iff.mpr ht
    rw [hx, pollOnceTrace_noFlag ⟨hm, ht⟩]
    by_cases hz : b - s.cfg.pollQuantumMs ≤ 0 <;> simp [turnOutcome, turnBudget, hm, ht, hz, regReadTrace]

/-! The whole operation (R170). -/

/-- The body of `TRANSMIT` (R170, R171), as `execTransmit` has it. -/
def transmitBody (n : Nat) (buf : Buf) (s : State) : Flow Response :=
  (txFlushing s).bind fun _ s =>
  (txLoading n buf s).bind fun _ s =>
  (txStarting s).bind fun _ s =>
  (txPolling s).bind fun _ s =>
  (txCleanup s).bind fun _ s => txReturn s

theorem exec_transmit (n : Nat) (buf : Buf) (s : State) :
    exec (.transmit n buf) s = hostOp .transmit (.transmit n buf) s (transmitBody n buf) := rfl

/-- Settles O19: what the body does, released and answered. -/
theorem transmitCompletes : Obligations.TransmitCompletes := by
  intro s n buf v hb hi hr hn hl hv hpb hpq hd
  obtain ⟨_, t, hx, sts, o, r, he, rfl, rfl⟩ :=
    (transmitBody_does (s := accept .transmit s) n buf hv hpb hpq hd).of_none hr
  refine ⟨sts, o, r, he, ?_⟩
  rw [exec_transmit, hostOp_next hb ((failedCheck_transmit_none s n buf).mpr ⟨hi, hn, hl⟩) hx]
  simp [respond, release, ran, accept, transmitTrace_csn, transmitTrace_ce, primRxOn, primRxOff, hb, hr]

section
variable (c : Cfg)

theorem flushingTrace_length : (flushingTrace c).length = 11 + if c.defensive then 5 else 0 := by
  simp only [flushingTrace, regWriteTrace]
  split <;> simp

theorem loadingTrace_length (p : List Byte) : (loadingTrace c p).length = 22 + p.length := by
  simp [loadingTrace, regWriteTrace, Addr.bytes]
  omega

theorem startingTrace_length (v : Byte) : (startingTrace c v).length = 6 := by simp [startingTrace, regWriteTrace]

theorem cleanupTrace_length (v : Byte) : (cleanupTrace c v).length = 6 := by simp [cleanupTrace, regWriteTrace]

theorem transmitTrace_length (p : List Byte) (v : Byte) (sts : List Byte) : (transmitTrace c p v sts).length =
    39 + p.length + (if c.defensive then 5 else 0) + (pollTrace c sts).length + 6 := by
  simp only [transmitTrace, List.length_append, flushingTrace_length, loadingTrace_length, startingTrace_length,
    cleanupTrace_length]
  omega

theorem pollTrace_append (sts sts' : List Byte) : pollTrace c (sts ++ sts') = pollTrace c sts ++ pollTrace c sts' :=
  List.flatMap_append

variable {c}

/-- A poll that finds no flag is a read and a sleep (R184). -/
theorem pollTrace_length_noFlag : ∀ {sts : List Byte}, (∀ q ∈ sts, noFlag c q) → (pollTrace c sts).length = 6 * sts.length
  | [], _ => rfl
  | q :: sts, h => by
    obtain ⟨hq, h⟩ := List.forall_mem_cons.mp h
    have ih := pollTrace_length_noFlag h
    rw [pollTrace] at ih ⊢
    rw [List.flatMap_cons, List.length_append, ih, pollOnceTrace_noFlag hq]
    simp [regReadTrace]
    omega

/-- A poll that finds a flag is a read and a write (R183). -/
theorem pollOnceTrace_length_flag {st : Byte} (h : ¬ noFlag c st) : (pollOnceTrace c st).length = 10 := by
  cases hm : maxRtSet c st with
  | true => simp [pollOnceTrace_maxRt hm, regReadTrace, regWriteTrace]
  | false =>
    have ht : txDsSet c st = true := by simpa [noFlag, hm] using h
    simp [pollOnceTrace_txDs hm ht, regReadTrace, regWriteTrace]

/-- A poll loop that ends on a flag: none on any read but the last. -/
theorem pollsEndIn_flag {sts : List Byte} {o : TxOutcome} (h : pollsEndIn c sts o) (ho : o ≠ .timedOut) :
    ∃ qs st, sts = qs ++ [st] ∧ (∀ q ∈ qs, noFlag c q) ∧ qs.length < maxPolls c ∧ ¬ noFlag c st := by
  cases o with
  | success =>
    obtain ⟨qs, st, he, hn, hl, hm, ht⟩ := h
    exact ⟨qs, st, he, hn, hl, fun hf => by simp [hf.2] at ht⟩
  | failed =>
    obtain ⟨qs, st, he, hn, hl, hm⟩ := h
    exact ⟨qs, st, he, hn, hl, fun hf => by simp [hf.1] at hm⟩
  | timedOut => exact absurd rfl ho
end

/-- Settles O20: what O19 gives, its events counted. -/
theorem transmitTraceLengths : Obligations.TransmitTraceLengths := by
  intro s n buf v hb hi hr hn hl hv hpb hpq hd
  obtain ⟨sts, o, r, he, hx⟩ := transmitCompletes s n buf v hb hi hr hn hl hv hpb hpq hd
  refine ⟨_, _, sts, o, hx, rfl, rfl, rfl, he, fun ho => ?_, fun ho => ?_⟩
  · subst ho
    obtain ⟨hf, hlen⟩ := he
    rw [transmitTrace_length, bufRead_length, pollTrace_length_noFlag hf, hlen]
  · obtain ⟨qs, st, rfl, hf, hlen, hst⟩ := pollsEndIn_flag he ho
    have hone : pollTrace s.cfg [st] = pollOnceTrace s.cfg st := by simp [pollTrace]
    rw [transmitTrace_length, bufRead_length, pollTrace_append, List.length_append, List.length_append,
      pollTrace_length_noFlag hf, hone, pollOnceTrace_length_flag hst, List.length_singleton]
    omega

end Sys2Proof.Proofs
end

section
/-! PROOFS. `TRANSMIT` on the reference radio (W5, R259): no read of STATUS shows a flag, so the loop runs out of budget, and
the radio holds from the first poll on what the stages before it loaded. -/

namespace Sys2Proof.Proofs

open Sys2Proof.Machine Sys2Proof.Safety Sys2Proof.Laws

/-! The poll loop (R181, R182) where STATUS holds a byte with neither flag. -/

/-- The radio does nothing of its own, and its STATUS shows neither flag (R88, R181(c)). -/
def Flagless (c : Cfg) (st : Byte) (r : Radio) : Prop :=
  Quiet r ∧ noFlag c st ∧ r.reg c (statusNum c) = [st]

theorem Flagless.link {c : Cfg} {st : Byte} {r : Radio} (h : Flagless c st r) (l : Link) :
    Flagless c st { r with link := l } := h

/-- `s` after a poll that found neither flag in `st`, `left` being what it leaves of the budget (R38, R184, R185). -/
def polled (st : Byte) (left : Int) (s : State) : State := { s with
  status := some st
  budget := some left
  outcome := if left ≤ 0 then some .timedOut else s.outcome }

/-- Only the last poll counts. -/
theorem polled_ran_polled (es : List Event) (r : Radio) (st : Byte) (left : Int) (s : State) :
    polled st 0 (ran es r (polled st left s)) = ran es r (polled st 0 s) := by simp [polled, ran]

/-- The decision on the status byte just read, with neither flag, on the reference radio (R184, R185). -/
theorem pollDecide_noFlag {s : State} {st : Byte} {b : Int} (hr : s.resetAt = none) (hq : Quiet s.radio)
    (hn : noFlag s.cfg st) (hb : s.budget = some b) : pollDecide st { s with status := some st } =
    .on (decide (b - s.cfg.pollQuantumMs ≤ 0))
      (ran [.sleep s.cfg.pollQuantumMs] s.radio (polled st (b - s.cfg.pollQuantumMs) s)) := by
  have hsleep : sleep s.cfg.pollQuantumMs { s with status := some st } =
      .on () (ran [.sleep s.cfg.pollQuantumMs] s.radio { s with status := some st }) := by
    rw [sleep, emit_eq (by exact hr)]
    simp [hearAll, quiet_stir hq, Radio.hear]
  simp only [pollDecide, hn.1, hn.2, Bool.false_eq_true, if_false, hsleep, bind_on]
  simp only [ran_budget, hb, readField_some, bind_on, ran_cfg, leavePoll, polled]
  by_cases hz : b - s.cfg.pollQuantumMs ≤ 0
  · rw [decide_eq_true hz, if_pos hz]
    exact if_pos hz
  · rw [decide_eq_false hz, if_neg hz]
    exact if_neg hz

/-- One poll (R181) of the reference radio, whose STATUS holds a byte with neither flag. -/
theorem pollOnce_flagless {s : State} {st : Byte} {b : Int} (hr : s.resetAt = none) (hk : cmdOk s.cfg = true)
    (hf : Flagless s.cfg st s.radio) (hb : s.budget = some b) : pollOnce s =
    .on (decide (b - s.cfg.pollQuantumMs ≤ 0)) (ran (pollOnceTrace s.cfg st) { s.radio with link := .idle }
      (polled st (b - s.cfg.pollQuantumMs) s)) := by
  obtain ⟨hq, hn, hst⟩ := hf
  rw [pollOnce, readStatus, regRead_stored hr hq hk hst, bind_on]
  simp only [readField_some, bind_on]
  rw [pollDecide_noFlag (by simp [hr]) (by exact hq) (by exact hn) (by exact hb), pollOnceTrace_noFlag hn]
  exact congrArg (Flow.on _) (ran_ran _ _ (polled st (b - s.cfg.pollQuantumMs) s) _ _)

/-- The poll loop with `k + 1` polls left in the budget reads the same byte `k + 1` times and times out (R185). -/
theorem pollLoop_flagless {st : Byte} : ∀ (k fuel : Nat) (s : State), s.resetAt = none → cmdOk s.cfg = true →
    Flagless s.cfg st s.radio → 0 < s.cfg.pollQuantumMs → k + 1 ≤ fuel →
    s.budget = some (((k + 1) * s.cfg.pollQuantumMs : Nat) : Int) →
    pollLoop fuel s = .on () (ran (pollTrace s.cfg (List.replicate (k + 1) st)) { s.radio with link := .idle }
      (polled st 0 s))
  | k, 0, s, _, _, _, _, hf, _ => by omega
  | k, fuel + 1, s, hr, hk, hf, hq, hfuel, hb => by
    have hleft : (((k + 1) * s.cfg.pollQuantumMs : Nat) : Int) - s.cfg.pollQuantumMs =
        ((k * s.cfg.pollQuantumMs : Nat) : Int) := by push_cast; ring
    rw [pollLoop, pollOnce_flagless hr hk hf hb, bind_on, hleft]
    cases k with
    | zero => simp [pollTrace]
    | succ k =>
      have hpos : ¬ (((k + 1) * s.cfg.pollQuantumMs : Nat) : Int) ≤ 0 := not_le.mpr (by positivity)
      have hcons : pollTrace s.cfg (List.replicate (k + 1 + 1) st) =
          pollOnceTrace s.cfg st ++ pollTrace s.cfg (List.replicate (k + 1) st) := List.flatMap_cons
      rw [decide_eq_false hpos, if_neg Bool.false_ne_true,
        pollLoop_flagless k fuel _ (by simp [polled, hr]) (by exact hk) (by exact hf.link .idle) (by exact hq) (by omega)
          rfl, polled_ran_polled, hcons]
      exact congrArg (Flow.on ()) (ran_ran _ _ (polled st 0 s) _ _)

/-- Polling (R179, R182) of the reference radio, whose STATUS holds a byte with neither flag. -/
theorem txPolling_flagless {s : State} {st : Byte} (hr : s.resetAt = none) (hcfg : cfgOk s.cfg = true)
    (hf : Flagless s.cfg st s.radio) : txPolling s =
    .on () (ran (pollTrace s.cfg (List.replicate (maxPolls s.cfg) st)) { s.radio with link := .idle }
      (polled st 0 { s with phase := .polling })) := by
  obtain ⟨hb, hq, m, hm⟩ := cfgOk_poll hcfg
  obtain ⟨k, rfl⟩ : ∃ k, m = k + 1 := Nat.exists_eq_succ_of_ne_zero fun h => by simp [h] at hm; omega
  have hmax : maxPolls s.cfg = k + 1 := by simp [maxPolls, hm, hq]
  have hfuel : k + 1 ≤ s.cfg.pollBudgetMs := hm ▸ Nat.le_mul_of_pos_left (k + 1) hq
  rw [hmax, txPolling, pollLoop_flagless k _ { s with phase := .polling, budget := some (s.cfg.pollBudgetMs : Int) } hr
    (cfgOk_cmdOk hcfg) hf hq (by omega) (by simp only; rw [hm, Nat.mul_comm])]
  rfl

/-! The stages put together (R171). -/

/-- The events before the first poll (R171 to R178), the shadow holding `v` before them. -/
def sendingTrace (c : Cfg) (p : List Byte) (v : Byte) : List Event :=
  flushingTrace c ++ loadingTrace c p ++ startingTrace c v

/-- The state in which Polling begins. -/
def sending (n : Nat) (buf : Buf) (v : Byte) (s : State) : State :=
  after (sendingTrace s.cfg (bufRead s.mem buf n) v)
    { s with phase := .transmitting, shadow := some (primRxOff s.cfg v) }

section
variable (n : Nat) (buf : Buf) (v : Byte) (s : State)

@[simp] theorem sending_cfg : (sending n buf v s).cfg = s.cfg := rfl
@[simp] theorem sending_shadow : (sending n buf v s).shadow = some (primRxOff s.cfg v) := rfl
@[simp] theorem sending_responses : (sending n buf v s).responses = s.responses := rfl
@[simp] theorem sending_trace :
    (sending n buf v s).trace = s.trace ++ sendingTrace s.cfg (bufRead s.mem buf n) v := rfl
@[simp] theorem sending_radio :
    (sending n buf v s).radio = hearAll s.cfg (sendingTrace s.cfg (bufRead s.mem buf n) v) s.radio :=
  after_radio _ { s with phase := .transmitting, shadow := some (primRxOff s.cfg v) }
@[simp] theorem sending_resetAt : (sending n buf v s).resetAt =
    s.resetAt.map (· - (sendingTrace s.cfg (bufRead s.mem buf n) v).length) := rfl
end

/-- The stages before Polling (R172 to R178). -/
def txSending (n : Nat) (buf : Buf) (s : State) : Flow Unit :=
  (txFlushing s).bind fun _ s => (txLoading n buf s).bind fun _ s => txStarting s

/-- The phase, and the shadow with it, written after some events, or before them. -/
theorem after_setPhase (es : List Event) (s : State) (p : Phase) :
    { after es s with phase := p } = after es { s with phase := p } := rfl
theorem after_setPhase_shadow (es : List Event) (s : State) (p : Phase) (v : Option Byte) :
    { after es s with phase := p, shadow := v } = after es { s with phase := p, shadow := v } := rfl

theorem txSending_does {s : State} {v : Byte} (hv : s.shadow = some v) (n : Nat) (buf : Buf) :
    Does s (txSending n buf s) fun _ t => t = sending n buf v s :=
  (txFlushing_does s).bind fun _ t h1 => (txLoading_does n buf t).bind fun _ u h2 => by
    subst h1
    rw [after_setPhase, after_after] at h2
    subst h2
    refine (txStarting_does (by exact hv)).mono fun _ _ h3 => ?_
    rw [after_setPhase_shadow, after_after] at h3
    exact h3

theorem transmitBody_eq (n : Nat) (buf : Buf) (s : State) : transmitBody n buf s =
    (txSending n buf s).bind fun _ s => (txPolling s).bind fun _ s => (txCleanup s).bind fun _ s => txReturn s := by
  simp only [transmitBody, txSending, bind_assoc]

/-- The stages after Polling (R186, R170). -/
theorem transmitBody_ends {s : State} {v : Byte} {o : TxOutcome} (hr : s.resetAt = none) (ho : s.outcome = some o)
    (hv : s.shadow = some v) : ((txCleanup s).bind fun _ s => txReturn s) =
    .on (.outcome o) (after (cleanupTrace s.cfg v) { s with
      phase := .idle, shadow := some (primRxOn s.cfg v), status := none, budget := none, outcome := none }) := by
  obtain ⟨_, t, hx, rfl⟩ := (txCleanup_does ho hv).of_none hr
  rw [hx, bind_on, txReturn, after_outcome, ho, readField_some, bind_on]
  rfl

/-- An accepted `TRANSMIT` on the reference radio whose STATUS shows no flag when Polling begins: every poll the budget
allows, and the radio hears the stages before and after. -/
theorem exec_transmit_flagless {s : State} {n : Nat} {buf : Buf} {v st : Byte} (hb : s.busy = none)
    (hr : s.resetAt = none) (hc : failedCheck (.transmit n buf) s = none) (hv : s.shadow = some v)
    (hcfg : cfgOk s.cfg = true)
    (hf : Flagless s.cfg st (hearAll s.cfg (sendingTrace s.cfg (bufRead s.mem buf n) v) s.radio)) :
    ∃ t, exec (.transmit n buf) s = .next t ∧ t.responses = s.responses ++ [.outcome .timedOut] ∧
      t.trace = s.trace ++ transmitTrace s.cfg (bufRead s.mem buf n) v (List.replicate (maxPolls s.cfg) st) ∧
      t.radio = hearAll s.cfg (cleanupTrace s.cfg (primRxOff s.cfg v))
        { hearAll s.cfg (sendingTrace s.cfg (bufRead s.mem buf n) v) s.radio with link := .idle } := by
  obtain ⟨_, _, hsend, rfl⟩ := (txSending_does (s := accept .transmit s) hv n buf).of_none hr
  have hbody := transmitBody_eq n buf (accept .transmit s)
  rw [hsend, bind_on, txPolling_flagless (st := st) (by simp [hr]) (by simpa using hcfg) (by simpa using hf), bind_on,
    transmitBody_ends (v := primRxOff s.cfg v) (o := .timedOut) (by simp [polled, hr]) (by simp [polled])
      (by simp [polled])] at hbody
  rw [exec_transmit]
  refine ⟨_, hostOp_next hb hc hbody, ?_, ?_, ?_⟩
  · simp [respond, release, after, polled, accept]
  · simp [respond, release, after, polled, transmitTrace, sendingTrace]
  · simp [respond, release, polled]

/-! What the radio holds from the first poll on (R171 to R178). -/

/-- A write of TX_DS and MAX_RT to STATUS clears both (R77, R173). -/
theorem noFlag_writeOneToClear (c : Cfg) (st : Byte) : noFlag c (writeOneToClear c st (mTxDs c ||| mMaxRt c)) := by
  have hset : flagSet (mTxDs c ||| mMaxRt c) c.bits.txDs = true ∧ flagSet (mTxDs c ||| mMaxRt c) c.bits.maxRt = true := by
    simp [flagSet_eq, mTxDs, mMaxRt, bit_getLsbD]
  simp [noFlag, maxRtSet, txDsSet, flagSet_writeOneToClear, hset]

/-- Setting PRIM_RX after clearing it is setting it (R177, R180). -/
theorem primRxOn_primRxOff (c : Cfg) (v : Byte) : primRxOn c (primRxOff c v) = primRxOn c v := by
  apply BitVec.eq_of_getLsbD_eq
  intro i hi
  simp only [primRxOn, primRxOff, BitVec.getLsbD_or, BitVec.getLsbD_and, BitVec.getLsbD_not, hi, decide_true]
  cases (bit c.bits.primRx).getLsbD i <;> simp

/-- The register writes of steps 1 to 4 (R173 to R175). -/
def loadingWrites (c : Cfg) : List RegWrite :=
  (c.reg.status, [mTxDs c ||| mMaxRt c]) :: ((if c.defensive then [(c.reg.enAa, [bit c.bits.enaaP0])] else []) ++
    [(c.reg.txAddr, c.txAddr.bytes), (c.reg.rxAddrP0, c.rxAddr.bytes)])

/-- Steps 1 to 4: the two flushes, the register writes, the payload. -/
theorem flushing_loading_eq (c : Cfg) (p : List Byte) : flushingTrace c ++ loadingTrace c p =
    commandTrace c.cmd.flushTx ++ commandTrace c.cmd.flushRx ++ writesTrace c (loadingWrites c)
      ++ writeTrace c.cmd.wTxPayload p := by
  cases hd : c.defensive <;> simp [flushingTrace, loadingTrace, writesTrace, loadingWrites, hd]

section
variable {c : Cfg} (hreg : regAddrsOk c = true)
include hreg

/-- The registers that `TRANSMIT` writes have five numbers. -/
theorem transmitRegs_nodup :
    ([c.reg.config, c.reg.status, c.reg.enAa, c.reg.txAddr, c.reg.rxAddrP0].map (regNum c)).Nodup :=
  (regNums_split hreg (l := [c.reg.enRxaddr, c.reg.setupAw, c.reg.setupRetr, c.reg.rfCh, c.reg.rfSetup, c.reg.rxAddrP1,
    c.reg.rxPwP0]) fun b => by
    simp only [regNums, List.map_cons, List.map_nil, List.count_cons, List.count_nil]
    ac_rfl).1

theorem loadingWrites_nodup : (writesNums c (loadingWrites c)).Nodup := by
  refine (List.nodup_cons.mp (transmitRegs_nodup hreg)).2.sublist ?_
  cases hd : c.defensive <;> simp [writesNums, loadingWrites, hd]

theorem loadingWrites_fit (hw : c.addrWidth = 5) : ∀ w ∈ loadingWrites c, Fits c w := by
  have h1 := regWidth_byteRegs hreg
  have h5 : regWidth c (regNum c c.reg.rxAddrP0) = 5 := by simp [regWidth, isAddrReg, hw]
  simp only [byteRegs, List.forall_mem_cons] at h1
  cases hd : c.defensive <;> simp [loadingWrites, Fits, h1, h5, hw, hd, Addr.bytes, regWidth_txAddr]

end

/-- The reference radio with the payload `p` loaded: STATUS shows neither flag, `p` is alone in the TX FIFO, the RX FIFO is
empty, and both addresses are the transmit address (R172 to R176). -/
structure Loaded (c : Cfg) (p : List Byte) (r : Radio) : Prop where
  flagless : ∃ st, Flagless c st r
  txFifo   : r.txFifo = [p]
  rxFifo   : r.rxFifo = []
  txAddr   : r.reg c (regNum c c.reg.txAddr) = c.txAddr.bytes
  rxAddrP0 : r.reg c (regNum c c.reg.rxAddrP0) = c.txAddr.bytes

theorem Loaded.quiet {c : Cfg} {p : List Byte} {r : Radio} (h : Loaded c p r) : Quiet r := by
  obtain ⟨_, hq, -, -⟩ := h.flagless
  exact hq

theorem hearAll_ce {c : Cfg} {r : Radio} (hq : Quiet r) (l : Level) : hearAll c [.ce l] r = { r with ce := some l } := by
  simp [hearAll, quiet_stir hq, Radio.hear]

section
variable {c : Cfg} {p : List Byte} {r : Radio}

theorem Loaded.ce (h : Loaded c p r) (l : Level) : Loaded c p (hearAll c [.ce l] r) := by
  rw [hearAll_ce h.quiet]
  exact ⟨h.flagless, h.txFifo, h.rxFifo, h.txAddr, h.rxAddrP0⟩

theorem Loaded.link (h : Loaded c p r) (l : Link) : Loaded c p { r with link := l } :=
  ⟨h.flagless, h.txFifo, h.rxFifo, h.txAddr, h.rxAddrP0⟩

variable (hk : cmdOk c = true) (hreg : regAddrsOk c = true)
include hk hreg

/-- A write to CONFIG changes CONFIG alone (R78(b)). -/
theorem Loaded.configWrite (h : Loaded c p r) (v : Byte) :
    Loaded c p (hearAll c (regWriteTrace c c.reg.config [v]) r) ∧
    (hearAll c (regWriteTrace c c.reg.config [v]) r).reg c (regNum c c.reg.config) = [v] := by
  have hn := transmitRegs_nodup hreg
  simp only [List.map_cons, List.map_nil, List.nodup_cons, List.mem_cons, not_or] at hn
  obtain ⟨⟨hst, -, htx, hrx, -⟩, -⟩ := hn
  have hx := hearAll_regWrite hk h.quiet (a := c.reg.config) (d := [v]) hst (by simp)
    (regWidth_byteRegs hreg c.reg.config (by simp [byteRegs])).symm
  have hother : ∀ b, regNum c c.reg.config ≠ b →
      (hearAll c (regWriteTrace c c.reg.config [v]) r).reg c b = r.reg c b := fun b hb => by
    rw [hx, reg_link, reg_setReg, if_neg hb.symm]
  obtain ⟨st, hq, hf, hs⟩ := h.flagless
  refine ⟨⟨⟨st, hx ▸ hq, hf, (hother _ hst).trans hs⟩, hx ▸ h.txFifo, hx ▸ h.rxFifo, (hother _ htx).trans h.txAddr,
    (hother _ hrx).trans h.rxAddrP0⟩, ?_⟩
  rw [hx, reg_link, reg_setReg, if_pos rfl]

/-- Steps 1 to 4 on the reference radio, whatever its STATUS shows and with a transaction left open or not. -/
theorem loaded_flushing_loading (hq : Quiet r) (hw : c.addrWidth = 5) (hpair : c.rxAddr = c.txAddr) (hp : p ≠ []) :
    Loaded c p (hearAll c (flushingTrace c ++ loadingTrace c p) r) := by
  have hs : regWidth c (statusNum c) = 1 := regWidth_byteRegs hreg c.reg.status (by simp [byteRegs])
  have hflushed : hearAll c (commandTrace c.cmd.flushTx ++ commandTrace c.cmd.flushRx) r =
      { r with txFifo := [], rxFifo := [], link := .idle } := by
    rw [hearAll_append, hearAll_flushTx hk hq, hearAll_flushRx hk (by exact hq)]
  have hwrote := wrote_hearAll hk hs (loadingWrites c) { r with txFifo := [], rxFifo := [], link := .idle } hq
    (loadingWrites_fit hreg hw) (loadingWrites_nodup hreg)
  obtain ⟨m, hm⟩ := hearAll_writes_regs hk (loadingWrites c) { r with txFifo := [], rxFifo := [], link := .idle } hq rfl
  rw [hm] at hwrote
  rw [flushing_loading_eq, hearAll_append, hearAll_append, hflushed, hm, hearAll_payloadWrite hk (by exact hq) hp]
  have hne := otherRegs_ne_status hreg
  have hst := hwrote.held (c.reg.status, [mTxDs c ||| mMaxRt c]) (by simp [loadingWrites])
  have htx := hwrote.held (c.reg.txAddr, c.txAddr.bytes) (by simp [loadingWrites])
  have hrx := hwrote.held (c.reg.rxAddrP0, c.rxAddr.bytes) (by simp [loadingWrites])
  rw [written, if_pos (by rfl)] at hst
  rw [written, if_neg (hne _ (by simp [otherRegs]))] at htx hrx
  exact ⟨⟨_, hq, noFlag_writeOneToClear c _, hst⟩, rfl, rfl, htx, hrx.trans (congrArg Addr.bytes hpair)⟩

/-- The stages before Polling, on the reference radio (R172 to R178). -/
theorem loaded_sending (hq : Quiet r) (hw : c.addrWidth = 5) (hpair : c.rxAddr = c.txAddr) (hp : p ≠ []) (v : Byte) :
    Loaded c p (hearAll c (sendingTrace c p v) r) := by
  rw [sendingTrace, startingTrace, hearAll_append, hearAll_append]
  exact ((loaded_flushing_loading hk hreg hq hw hpair hp).configWrite hk hreg _).1.ce .high

/-- The cleanup, on the reference radio (R186, R180). -/
theorem Loaded.cleanup (h : Loaded c p r) (v : Byte) : Loaded c p (hearAll c (cleanupTrace c v) r) ∧
    (hearAll c (cleanupTrace c v) r).reg c (regNum c c.reg.config) = [primRxOn c v] := by
  rw [cleanupTrace, hearAll_append]
  exact (h.ce .low).configWrite hk hreg _
end

/-- Settles O27: the radio is loaded when Polling begins, and stays so. -/
theorem transmitOnReferenceRadioTimesOut : Obligations.TransmitOnReferenceRadioTimesOut := by
  intro s n buf v hb hi hr hn h0 hl hv hcfg hreg hw hq
  have hk := cfgOk_cmdOk hcfg
  obtain ⟨hpair, -⟩ := (cfgOk_iff s.cfg).mp hcfg
  have hload := loaded_sending hk hreg hq hw hpair (bufRead_ne_nil (m := s.mem) (b := buf) h0) v
  obtain ⟨st, hf⟩ := hload.flagless
  obtain ⟨t, hx, hresp, htrace, hradio⟩ :=
    exec_transmit_flagless hb hr ((failedCheck_transmit_none s n buf).mpr ⟨hi, hn, hl⟩) hv hcfg hf
  obtain ⟨hend, hconfig⟩ := (hload.link .idle).cleanup hk hreg (primRxOff s.cfg v)
  rw [← hradio] at hend hconfig
  rw [primRxOn_primRxOff] at hconfig
  exact ⟨t, hx, hresp, ⟨_, List.length_replicate, htrace⟩, hend.txFifo, hend.rxFifo, hend.txAddr, hend.rxAddrP0, hconfig⟩

end Sys2Proof.Proofs
end

section
/-! PROOFS. `RECEIVE` and `CHECK_DATA_READY` on any radio (R200 to R206): the whole of `RECEIVE`, the check by a status poll,
and the interrupt line, which rests on nothing that the radio's registers and queues hold (I9). -/

namespace Sys2Proof.Proofs

open Sys2Proof.Machine Sys2Proof.Safety Sys2Proof.Laws

theorem bracketed_receiveTrace (c : Cfg) (d : List Byte) : Bracketed (receiveTrace c d) :=
  ⟨receiveTrace_csn c d, noCe_receiveTrace c d⟩

/-- Settles O28: what the body does, released and answered. -/
theorem receiveCompletes : Obligations.ReceiveCompletes := by
  intro s n buf hb hi hr hn hl
  obtain ⟨_, t, hx, d, r, hd, rfl, rfl⟩ := (receiveBody_does n buf (accept .receive s)).of_none hr
  refine ⟨d, r, hd, ?_⟩
  rw [exec, execReceive, hostOp_next hb (failedCheck_receive hi hn hl) hx,
    ran_of_bracketed (by exact hr) (bracketed_receiveTrace _ d)]
  cases hdef : s.cfg.defensive <;>
    simp [respond, release, accept, receiveTrace, readTrace, regWriteTrace, writeTrace, commandTrace, mRxDr, hb, hdef]

/-! The check by a status poll (R203). -/

/-- `ReadStatus` (R113): on the reference radio the byte is its STATUS, and the read changes no register and no queue. -/
theorem readStatus_untouched {s : State} (hr : s.resetAt = none) : ∃ b r,
    readStatus s = .on b (ran (regReadTrace s.cfg s.cfg.reg.status [b]) r s) ∧
    (Quiet s.radio → cmdOk s.cfg = true →
      Untouched s.radio r ∧ ∀ v, s.radio.reg s.cfg (statusNum s.cfg) = [v] → b = v) := by
  obtain ⟨d, r, hd, hx, hu⟩ := readRegister_untouched hr s.cfg.reg.status 1
  obtain ⟨b, rfl⟩ := List.length_eq_one_iff.mp hd
  have hread : readStatus s = .on b (ran (regReadTrace s.cfg s.cfg.reg.status [b]) r s) := by
    rw [readStatus, regRead_eq_readRegister hr, hx]; rfl
  refine ⟨b, r, hread, fun hq hk => ⟨hu hq hk, fun v hv => ?_⟩⟩
  exact (Flow.on.inj (hread.symm.trans (regRead_stored hr hq hk hv))).1

/-- Settles O32: one read of STATUS, and RX_DR in it. -/
theorem checkByStatusPollCompletes : Obligations.CheckByStatusPollCompletes := by
  intro s hb hi hr hm
  obtain ⟨st, r, hx, hu⟩ := readStatus_untouched (s := accept .checkDataReady s) hr
  have hready : rxDrSet s.cfg st = decide (st &&& bit s.cfg.bits.rxDr ≠ 0#8) :=
    Bool.eq_iff_iff.mpr (flagSet_true_iff.trans decide_eq_true_iff.symm)
  refine ⟨st, r, ?_, hu⟩
  rw [← hready, exec, execCheckDataReady]
  exact hostOp_transacted hr (bracketed_readTrace _ _ [st]) hb ((failedCheck_checkDataReady_none s).mpr hi)
    (by rw [accept_cfg, hm]; simp only [hx]; rfl)

/-! The interrupt line (R43, I9). -/

section
variable (c : Cfg)

/-- What the radio does of its own leaves the script of the line and the counter of draws alone. -/
theorem act_levels_drawn (r : Radio) (a : RadioAct) : (r.act c a).levels = r.levels ∧ (r.act c a).drawn = r.drawn := by
  cases a with
  | poke a d =>
    simp only [Radio.act]
    split <;> exact ⟨rfl, rfl⟩
  | latch | readOnlyBits | arrive | sent => exact ⟨rfl, rfl⟩

theorem foldl_act_levels_drawn : ∀ (m : List RadioAct) (r : Radio),
    (m.foldl (Radio.act c) r).levels = r.levels ∧ (m.foldl (Radio.act c) r).drawn = r.drawn
  | [], _ => ⟨rfl, rfl⟩
  | a :: m, r => by
    obtain ⟨hl, hd⟩ := act_levels_drawn c r a
    obtain ⟨hl', hd'⟩ := foldl_act_levels_drawn m (r.act c a)
    exact ⟨hl'.trans hl, hd'.trans hd⟩

/-- The draws that `stir` takes: one, where the free radio has no script. -/
theorem stir_levels_drawn (r : Radio) : (r.stir c).levels = r.levels ∧
    (r.stir c).drawn = r.drawn + if r.moves = [] ∧ r.kind = .free then 1 else 0 := by
  cases hm : r.moves with
  | cons m rest => simpa [Radio.stir, hm] using foldl_act_levels_drawn c m { r with moves := rest }
  | nil =>
    cases hk : r.kind with
    | free =>
      simpa [Radio.stir, hm, hk] using foldl_act_levels_drawn c (Config.radioMove r.drawn) { r with drawn := r.drawn + 1 }
    | reference => simp [Radio.stir, hm, hk]

/-- The level the line has for a sample now due. -/
def lineLevel (r : Radio) : Level := (r.stir c).irq.1

theorem readIrq_of_reset {s : State} (h : s.resetAt = some 0) : readIrq s = .stop (systemReset s) := if_pos h

theorem readIrq_of_no_reset {s : State} (h : s.resetAt ≠ some 0) : readIrq s = .on (lineLevel s.cfg s.radio)
    (logEvent (s.radio.stir s.cfg).irq.2 (.irq (lineLevel s.cfg s.radio)) s) := if_neg h

theorem irq_level (r : Radio) : r.irq.1 = r.levels.headD (Config.irqLevel r.drawn) := by
  unfold Radio.irq
  split <;> simp [*]

/-- Neither the registers nor the queues of the radio decide the level (I9). -/
theorem lineLevel_contents (r : Radio) (regs : List (Nat × List Byte)) (tx rx : List (List Byte)) :
    lineLevel c { r with regs := regs, txFifo := tx, rxFifo := rx } = lineLevel c r := by
  simp only [lineLevel, irq_level, stir_levels_drawn]
end

/-- The answers and the trace after `CHECK_DATA_READY` by the interrupt line, its level being `l` (R203): as before where it
is refused (R221), the trace begun again where a reset of the system falls on the sample (R238, log 6), else one more of
each. -/
def lineSeen (l : Level) (s : State) : List Response × List Event :=
  if failedCheck .checkDataReady s ≠ none then (s.responses, s.trace)
  else if s.resetAt = some 0 then (s.responses, [])
  else (s.responses ++ [.ready (l == .low)], s.trace ++ [.irq l])

theorem exec_checkDataReady_lineSeen {s t : State} (hm : s.cfg.drMethod = .irqLine)
    (h : exec .checkDataReady s = .next t) : (t.responses, t.trace) = lineSeen (lineLevel s.cfg s.radio) s := by
  simp only [exec, execCheckDataReady, hostOp] at h
  split at h
  next => cases h
  next =>
    split at h
    next k hc =>
      cases h
      simp [lineSeen, hc, refuse]
    next hc =>
      simp only [accept_cfg, hm] at h
      by_cases h0 : s.resetAt = some 0
      · rw [readIrq_of_reset (by exact h0)] at h
        cases h
        simp [lineSeen, hc, h0, accept]
      · rw [readIrq_of_no_reset (by exact h0)] at h
        cases h
        simp [lineSeen, hc, h0, respond, release, accept]

/-- Settles O33: what is seen is a function of the level and of what is no part of the radio, and the level does not rest on
the radio's registers and queues. -/
theorem interruptLineNotTiedToFlags : Obligations.InterruptLineNotTiedToFlags := by
  intro s regs tx rx t t' hm h h'
  have hseen : (t.responses, t.trace) = (t'.responses, t'.trace) :=
    calc (t.responses, t.trace)
      _ = lineSeen (lineLevel s.cfg s.radio) s := exec_checkDataReady_lineSeen hm h
      _ = lineSeen (lineLevel s.cfg { s.radio with regs := regs, txFifo := tx, rxFifo := rx }) s :=
        congrArg (lineSeen · s) (lineLevel_contents s.cfg s.radio regs tx rx).symm
      _ = (t'.responses, t'.trace) := (exec_checkDataReady_lineSeen (by exact hm) h').symm
  exact Prod.mk.inj hseen

end Sys2Proof.Proofs
end

section
/-! PROOFS. How a step ends (R221, R222, R229, R238): a request that overlaps another stops the machine, a reset of the
system cuts what runs, marks and results stay, and under the invariant every step runs. -/

namespace Sys2Proof.Proofs

open Sys2Proof.Machine Sys2Proof.Safety Sys2Proof.Laws

section
variable {s : State} {op : HostOp} {i : Instr} {body : State → Flow Response}

/-- The frame of every host operation asks for `busy` before any check (R229). -/
theorem hostOp_overlap {o : HostOp} (hb : s.busy = some o) : hostOp op i s body = .fault .overlap := by
  simp [hostOp, hb]

/-- A host operation answers a next state when its body, once accepted, goes on or is cut by a reset of the system. -/
theorem hostOp_runs (hb : s.busy = none)
    (hd : failedCheck i s = none → Does (accept op s) (body (accept op s)) fun _ _ => True) :
    ∃ t, hostOp op i s body = .next t := by
  cases hc : failedCheck i s with
  | some k => exact ⟨_, hostOp_refused hb hc⟩
  | none =>
    obtain ⟨p, u, hx, -⟩ | ⟨-, u, hx⟩ := hostOp_does hb hc (hd hc)
    · exact ⟨_, hx⟩
    · exact ⟨_, hx⟩
end

/-- Every host operation is a body in that frame, so none overlaps another (R229). -/
theorem exec_overlap {s : State} {i : Instr} {o : HostOp} (hop : RequestOp.code i ≠ none) (hb : s.busy = some o) :
    exec i s = .fault .overlap := by
  cases i with
  | rRegister | wRegister | rRxPayload | wTxPayload | flushTx | flushRx | nop => exact absurd rfl hop
  | init | readReg | writeReg | readRegMulti | writeRegMulti | transmit | receive | checkDataReady =>
    simp only [exec, execInit, execReadReg, execWriteReg, execReadRegMulti, execWriteRegMulti, execTransmit, execReceive,
      execCheckDataReady]
    exact hostOp_overlap hb

/-- Settles O13: the eight are host operations. -/
theorem overlappingRequestIsStuck : Obligations.OverlappingRequestIsStuck := fun _ _ _ _ _ _ hb =>
  ⟨exec_overlap nofun hb, exec_overlap nofun hb, exec_overlap nofun hb, exec_overlap nofun hb, exec_overlap nofun hb,
    exec_overlap nofun hb, exec_overlap nofun hb, exec_overlap nofun hb⟩

/-- Settles O46: no step, a reset of the system included, takes a mark or a result away. -/
theorem stepKeepsMarks : Obligations.StepKeepsMarks := fun _ _ h => ⟨(step_persists h).marks, (step_persists h).responses⟩

/-- Settles O43: a refusal performs no event, an answered instruction at most `k`, and one that was cut exactly `k`. -/
theorem systemResetCutsOperation : Obligations.SystemResetCutsOperation := by
  intro s t i k hk h
  obtain ⟨c, -, rfl⟩ | ⟨es, u, p, hu, rfl⟩ | ⟨es, u, hu, hcut, rfl⟩ := exec_executed h
  · exact .inl ⟨[], Nat.zero_le k, hk, (List.append_nil s.trace).symm, rfl⟩
  · obtain ⟨hle, hleft⟩ := hu.some k hk
    exact .inl ⟨es, hle, hleft, hu.trace, hu.kept.sessions⟩
  · have hlen : es.length = k := Option.some.inj (hcut.symm.trans hk)
    have hput : (systemReset u).sessions = s.sessions ++ [s.trace ++ es] := by
      rw [systemReset_sessions, hu.kept.sessions, hu.trace]
    exact .inr ⟨es, hlen, hput, rfl, rfl, rfl, rfl, rfl, rfl, rfl, rfl, rfl, rfl, rfl, hu.kept.marks, hu.kept.responses⟩

section
variable {s : State}

/-- A host operation begun with none in progress answers a next state; `TRANSMIT` under a well-formed `Cfg`, which bounds
its polls (R12), and with the shadow written (R222). -/
theorem exec_host_runs {i : Instr} (hb : s.busy = none) (hop : RequestOp.code i ≠ none)
    (htx : ∀ n buf, i = .transmit n buf → failedCheck i s = none → cfgOk s.cfg = true ∧ ∃ v, s.shadow = some v) :
    ∃ t, exec i s = .next t := by
  cases i with
  | rRegister | wRegister | rRxPayload | wTxPayload | flushTx | flushRx | nop => exact absurd rfl hop
  | init =>
    rw [exec, execInit]
    exact hostOp_runs hb fun _ => (initBody_does _).mono fun _ _ _ => trivial
  | readReg a =>
    rw [exec, execReadReg]
    exact hostOp_runs hb fun _ => (regRead_does a _).bind fun _ _ _ => does_on rfl trivial
  | writeReg a v =>
    rw [exec, execWriteReg]
    exact hostOp_runs hb fun _ => (regWrite_does a v _).bind fun _ _ _ => does_on rfl trivial
  | readRegMulti a n =>
    rw [exec, execReadRegMulti]
    exact hostOp_runs hb fun _ => (readFrame_does _ n _).bind fun _ _ _ => does_on rfl trivial
  | writeRegMulti a n buf =>
    rw [exec, execWriteRegMulti]
    exact hostOp_runs hb fun _ => (regWriteN_does a _ _).bind fun _ _ _ => does_on rfl trivial
  | transmit n buf =>
    rw [exec, execTransmit]
    refine hostOp_runs hb fun hc => ?_
    obtain ⟨hcfg, v, hv⟩ := htx n buf rfl hc
    obtain ⟨hbudget, hq, hd⟩ := cfgOk_poll hcfg
    exact (transmitBody_does (s := accept .transmit s) n buf hv hbudget hq hd).mono fun _ _ _ => trivial
  | receive n buf =>
    rw [exec, execReceive]
    exact hostOp_runs hb fun _ => (receiveBody_does n buf _).mono fun _ _ _ => trivial
  | checkDataReady =>
    rw [exec, execCheckDataReady]
    refine hostOp_runs hb fun _ => ?_
    split
    · exact (readIrq_does _).bind fun _ _ _ => does_on rfl trivial
    · exact (regRead_does _ _).bind fun _ _ _ => does_on rfl trivial

/-- Under the invariant nothing is in progress, and an accepted `TRANSMIT` finds `INIT` completed, so the shadow written
under a well-formed `Cfg`. -/
theorem exec_host_runs_of_inv {i : Instr} (h : Inv s) (hop : RequestOp.code i ≠ none) : ∃ t, exec i s = .next t := by
  obtain ⟨-, ⟨hbusy, -⟩, -, -⟩ := id h
  refine exec_host_runs hbusy hop ?_
  rintro n buf rfl hc
  obtain ⟨hinit, -⟩ := (failedCheck_transmit_none s n buf).mp hc
  obtain ⟨hcfg, hshadow, -⟩ := idle_of_inv h hinit
  exact ⟨hcfg, _, hshadow⟩

theorem step_of_reset (h0 : s.resetAt = some 0) : step s = .next (systemReset s) := by simp [step, fetch, h0]
end

/-- Settles O51: a step is a reset, a wait, a host operation or the refusal of a request, since the bench slot is empty. -/
theorem invMakesEveryStepRun : Obligations.InvMakesEveryStepRun := by
  intro s h
  obtain ⟨hbench, ⟨hbusy, -⟩, -, -⟩ := id h
  by_cases h0 : s.resetAt = some 0
  · exact ⟨_, step_of_reset h0⟩
  cases hp : s.port with
  | nil => exact ⟨_, step_of_empty_port h0 hbench hp⟩
  | cons r rest =>
    cases hd : decode s.cfg (.request r) with
    | ok i =>
      rw [step_of_request h0 hbench hp hd]
      exact exec_host_runs_of_inv (inv_setPort h rest) (code_of_decodeRequest hd)
    | rejected q => exact ⟨_, step_of_rejected_request h0 hbench hp hbusy hd⟩

end Sys2Proof.Proofs
end

section
/-! PROOFS. The state after reset (R250, V38), and what a reset of the system restores and leaves alone (R250, R251). -/

namespace Sys2Proof.Proofs

open Sys2Proof.Machine Sys2Proof.Safety Sys2Proof.Laws

/-- A radio no register of which was written yet holds free bytes in every one, in the register's own width (D26). -/
theorem reg_powerOn (c : Cfg) (a : Byte) :
    Radio.powerOn.reg c a = (List.range (regWidth c a)).map (Config.radioReg a) := rfl

/-- Settles O44: each field by its value at reset, the registers by those of the radio at power-on. -/
theorem resetState : Obligations.ResetState := fun c =>
  ⟨rfl, rfl, rfl, rfl, rfl, rfl, rfl, rfl, rfl, rfl, rfl, reg_powerOn c⟩

/-- Settles O42: a reset that is due is the whole step. -/
theorem systemResetRestoresController : Obligations.SystemResetRestoresController := by
  intro s h0
  refine ⟨systemReset s, step_of_reset h0, ?_⟩
  simp

section
variable (c : Cfg)

theorem atRest_resetWith : atRest (State.resetWith c) := ⟨rfl, rfl, rfl, rfl, rfl, rfl⟩

/-- `INIT` has not completed, so the shadow and the pins are unwritten and there is no history. -/
theorem configured_resetWith : configured (State.resetWith c) := ⟨rfl, rfl, rfl, rfl⟩

/-- The checker of an empty history stands where it starts: outside every bracket, no pin driven, nothing sent to CONFIG. -/
theorem historyAgrees_resetWith : historyAgrees (State.resetWith c) := historyAgrees_iff.mpr rfl

theorem inv_resetWith : Inv (State.resetWith c) :=
  ⟨rfl, atRest_resetWith c, configured_resetWith c, historyAgrees_resetWith c⟩

/-- The memory at reset lists no cell. -/
theorem memWf_resetWith : memWf (State.resetWith c).mem = true := rfl
end

/-- Settles O50: the parts of the invariant one by one, and a memory that lists nothing. -/
theorem invAtReset : Obligations.InvAtReset := fun c => ⟨inv_resetWith c, memWf_resetWith c⟩

end Sys2Proof.Proofs
end
